-- ==== Sys2Proof/Word.lean ====
section
/-! DEFINITION. The word types of the delta decode unit (DDU): spec/00_scope.md section 5 "Widths and signs".
Every value is an unsigned bit vector of a stated width unless it is said to be signed. -/

namespace Sys2Proof

/-- A byte of SRC or DST (20_memory.md R40). -/
abbrev Byte := BitVec 8

/-- A 32-bit word: host registers, OFS, PFX, SFX and the 32-bit internal registers. -/
abbrev Word := BitVec 32

/-- A 64-bit word: the value of a varint (R111), the header registers, and a W-bit value zero-extended. -/
abbrev DWord := BitVec 64

/-- One 7-bit group of a varint (30_encoding.md R70). -/
abbrev Group := BitVec 7

end Sys2Proof
end

