-- ==== Sys2Proof/Config.lean ====
section
/-! DEFINITION. What one DDU fixes: the parameters of 00_scope.md R4, and the free values of
93_implementation_defined.md (opaque constants without a body, so that no proof can see a value of one). -/

namespace Sys2Proof

/-- The memory spaces of 20_memory.md R40, and the register array WIDTHS of 10_state.md R20. -/
inductive Space
  | src | dst | ofs | pfx | sfx | widths
  deriving DecidableEq, Repr

namespace Config

/-- The parameters of R4 that differ between units; they are fixed for one unit (R25). -/
structure Instance where
  srcCap : Nat
  dstCap : Nat
  lenCap : Nat
  maxBlockSize : Nat
  deriving DecidableEq, Repr

/-- The reference parameters of R4, which every vector of 95_test_vectors.md assumes. -/
def reference : Instance :=
  { srcCap := 65536, dstCap := 65536, lenCap := 4096, maxBlockSize := 65536 }

/-- The constraints of R4, as its table gives them: MAX_BLOCK_SIZE has no upper bound (log 5). -/
abbrev Instance.Legal (p : Instance) : Prop :=
  (1 ≤ p.srcCap ∧ p.srcCap ≤ 2 ^ 32 - 1) ∧
  (p.dstCap % 8 = 0 ∧ 8 ≤ p.dstCap ∧ p.dstCap ≤ 2 ^ 32 - 8) ∧
  (1 ≤ p.lenCap ∧ p.lenCap ≤ 2 ^ 31 - 1) ∧
  (p.maxBlockSize % 8 = 0 ∧ 8 ≤ p.maxBlockSize)

/-- MAX_TOTAL of R4 (fixed). -/
def maxTotal : Nat := 2 ^ 31 - 1

/-- VARINT_MAX_BYTES of R4 (fixed). -/
def varintMaxBytes : Nat := 10

/-- MIN_MB_SIZE of R4 (fixed). -/
def minMbSize : Nat := 8

/-- What entry `a` of a space holds while nothing has written it, in generation `gen` of that space: U1 and U3
say "any value". `w` is the width of the entry (log 6, log 8). -/
opaque freeCell (w : Nat) (sp : Space) (gen a : Nat) : BitVec w

/-- Free value number `n` of a 32-bit register: SRC_CUR, OUT_COUNT and DST_LEN after an error (U1) and read while
BUSY (U2) (log 8, log 10). -/
opaque freeWord (n : Nat) : Word

end Config
end Sys2Proof
end

