-- ==== Sys2Proof/Syntax.lean ====
section
/-! DEFINITION. The instructions of the DDU: one constructor for each row of spec/opcode_table.json, the command
words (30_encoding.md R61 to R63) and the stream elements (R64 to R71); and the positions that select a stream
element (R60). -/

namespace Sys2Proof

/-- A varint as it stands in the stream (R70): the groups of its non-final bytes, least significant first, and the
group of its final byte. -/
structure Varint where
  conts : List Group
  last : Group
  deriving DecidableEq, Repr

/-- How many bytes a varint takes. -/
def Varint.size (v : Varint) : Nat := v.conts.length + 1

/-- Commands first (written to CMD), then stream elements (read at SRC_CUR). -/
inductive Instr
  | clr
  | decI32
  | decI64
  | decBa
  | illegal (word : Word)
  | varintCont (v : Group)
  | varintLast (v : Group)
  | varintLast10 (v : BitVec 1)
  | uvarint (v : Varint)
  | zzvarint (v : Varint)
  | hdr (blockSize mbCount total first : Varint)
  | blkMin (v : Varint)
  | blkWidth (w : Byte)
  | mb (payload : List Byte)
  | raw (b : Byte)
  | pageInt (page : List Byte)
  | pageBa (page : List Byte)
  deriving DecidableEq, Repr

/-- Where the unit stands in the stream: "what a byte means is fixed entirely by where the unit is in its state
machine" (R60). `varintByte k` is byte number `k` (from 0) of a varint; `mb n` is a payload of `n` bytes. -/
inductive Pos
  | varintByte (k : Nat)
  | uvarint
  | zzvarint
  | hdr
  | blkMin
  | blkWidth
  | mb (n : Nat)
  | raw
  | pageInt
  | pageBa
  deriving DecidableEq, Repr

/-- How an instruction stands outside the unit: a word written to CMD, or bytes of SRC. -/
inductive Code
  | word (w : Word)
  | bytes (bs : List Byte)
  deriving DecidableEq, Repr

/-- Which position an instruction is an element of (R60). A payload may be shorter than its position asks when the
page ends inside it (R136 then raises). Commands stand at no position. -/
def Instr.fits : Instr → Pos → Bool
  | .clr, _ => false
  | .decI32, _ => false
  | .decI64, _ => false
  | .decBa, _ => false
  | .illegal _, _ => false
  | .varintCont _, .varintByte k => k < 9
  | .varintCont _, _ => false
  | .varintLast _, .varintByte k => k < 9
  | .varintLast _, _ => false
  | .varintLast10 _, .varintByte k => k == 9
  | .varintLast10 _, _ => false
  | .uvarint _, p => p == .uvarint
  | .zzvarint _, p => p == .zzvarint
  | .hdr _ _ _ _, p => p == .hdr
  | .blkMin _, p => p == .blkMin
  | .blkWidth _, p => p == .blkWidth
  | .mb bs, .mb n => bs.length ≤ n
  | .mb _, _ => false
  | .raw _, p => p == .raw
  | .pageInt _, p => p == .pageInt
  | .pageBa _, p => p == .pageBa

end Sys2Proof
end

