-- ==== Sys2Proof/WellFormed.lean ====
section
/-! DEFINITION. Which instructions the encodings admit (30_encoding.md R63, R70). -/

namespace Sys2Proof

/-- At most 10 bytes; "in a 10th byte only the values 0x00 and 0x01 are legal" (R70). -/
def Varint.wellFormed (v : Varint) : Bool :=
  v.conts.length < 9 || (v.conts.length == 9 && v.last.toNat ≤ 1)

/-- Bytes of SRC: fewer than 2^32 of them, since SRC_LEN is a 32-bit register (10_state.md R13). -/
def bytesOfSrc (bs : List Byte) : Bool := bs.length < 2 ^ 32

/-- Well-formedness of an instruction as its encoding gives it. A payload cut off by the end of the page, and one whose
width byte is above W, are elements too: R136 judges them. -/
def Instr.wellFormed : Instr → Bool
  | .clr => true
  | .decI32 => true
  | .decI64 => true
  | .decBa => true
  | .illegal w => 3 < w.toNat
  | .varintCont _ => true
  | .varintLast _ => true
  | .varintLast10 _ => true
  | .uvarint v => v.wellFormed
  | .zzvarint v => v.wellFormed
  | .hdr b m t f => b.wellFormed && m.wellFormed && t.wellFormed && f.wellFormed
  | .blkMin v => v.wellFormed
  | .blkWidth _ => true
  | .mb bs => bytesOfSrc bs
  | .raw _ => true
  | .pageInt bs => bytesOfSrc bs
  | .pageBa bs => bytesOfSrc bs

end Sys2Proof
end

