-- ==== Sys2Proof/Decode.lean ====
section
/-! DEFINITION. The decoder, total on any word and any bytes, and the encoder after it: command words by R61 to R63,
stream elements by position (R60) and R64 to R71 of 30_encoding.md. -/

namespace Sys2Proof

/-- Why bytes are no element of a position. -/
inductive DecodeErr
  /-- The page ends inside the element (R110): the unit raises UnexpectedEOF. -/
  | endOfPage
  /-- A 10th varint byte above 0x01 (R73, R111): the unit raises MalformedHeader. -/
  | varintTooLong
  deriving DecidableEq, Repr

/-- R62, R63: the four command words; every other word is an illegal command. -/
def decodeCommand (w : Word) : Instr :=
  if w = 0x00000000#32 then .clr
  else if w = 0x00000001#32 then .decI32
  else if w = 0x00000002#32 then .decI64
  else if w = 0x00000003#32 then .decBa
  else .illegal w

/-- Bits 6:0 of a varint byte (R70). -/
def groupOf (b : Byte) : Group := b.extractLsb' 0 7

/-- Bit 7 of a varint byte, the continuation flag (R70). -/
def continues (b : Byte) : Bool := b.getLsbD 7

/-- Byte number `k` of a varint (R70, R111). -/
def decodeVarintByte (k : Nat) (b : Byte) : Except DecodeErr Instr :=
  if k < 9 then
    if continues b then .ok (.varintCont (groupOf b)) else .ok (.varintLast (groupOf b))
  else if k = 9 ∧ b.toNat ≤ 1 then .ok (.varintLast10 (b.extractLsb' 0 1))
  else .error .varintTooLong

/-- The varint at the head of `bs`, whose first byte is byte number `k` of it: R111, byte by byte, end of page before
overflow at the same byte (R201). -/
def parseVarint : Nat → List Byte → Except DecodeErr (Varint × List Byte)
  | _, [] => .error .endOfPage
  | k, b :: bs =>
    if 9 ≤ k ∧ 1 < b.toNat then .error .varintTooLong
    else if continues b then
      (parseVarint (k + 1) bs).map fun (v, rest) => ({ v with conts := groupOf b :: v.conts }, rest)
    else .ok ({ conts := [], last := groupOf b }, bs)

/-- The four varints of a stream header in their order (R65). -/
def parseHdr (bs : List Byte) : Except DecodeErr (Instr × List Byte) := do
  let (b, bs) ← parseVarint 0 bs
  let (m, bs) ← parseVarint 0 bs
  let (t, bs) ← parseVarint 0 bs
  let (f, bs) ← parseVarint 0 bs
  return (.hdr b m t f, bs)

/-- The element at the head of `bs` for the position `pos`, and the bytes after it. A page takes all the bytes: it is
"the byte string in SRC from SRC_CUR to SRC_LEN - 1" (00_scope.md, glossary). -/
def decodeElement : Pos → List Byte → Except DecodeErr (Instr × List Byte)
  | .varintByte _, [] => .error .endOfPage
  | .varintByte k, b :: bs => (decodeVarintByte k b).map fun i => (i, bs)
  | .uvarint, bs => (parseVarint 0 bs).map fun (v, rest) => (.uvarint v, rest)
  | .zzvarint, bs => (parseVarint 0 bs).map fun (v, rest) => (.zzvarint v, rest)
  | .hdr, bs => parseHdr bs
  | .blkMin, bs => (parseVarint 0 bs).map fun (v, rest) => (.blkMin v, rest)
  | .blkWidth, [] => .error .endOfPage
  | .blkWidth, b :: bs => .ok (.blkWidth b, bs)
  | .mb n, bs => .ok (.mb (bs.take n), bs.drop n)
  | .raw, [] => .error .endOfPage
  | .raw, b :: bs => .ok (.raw b, bs)
  | .pageInt, bs => .ok (.pageInt bs, [])
  | .pageBa, bs => .ok (.pageBa bs, [])

/-! ### The encoder, from the same tables -/

/-- A non-final varint byte, `1vvvvvvv`. -/
def contByte (g : Group) : Byte := (1#1 ++ g : BitVec 8)

/-- A final varint byte, `0vvvvvvv`. -/
def lastByte (g : Group) : Byte := (0#1 ++ g : BitVec 8)

/-- The bytes of a varint (R70). -/
def Varint.bytes (v : Varint) : List Byte := v.conts.map contByte ++ [lastByte v.last]

/-- The word or bytes of an instruction. -/
def encode : Instr → Code
  | .clr => .word 0x00000000#32
  | .decI32 => .word 0x00000001#32
  | .decI64 => .word 0x00000002#32
  | .decBa => .word 0x00000003#32
  | .illegal w => .word w
  | .varintCont g => .bytes [contByte g]
  | .varintLast g => .bytes [lastByte g]
  | .varintLast10 v => .bytes [v.setWidth 8]
  | .uvarint v => .bytes v.bytes
  | .zzvarint v => .bytes v.bytes
  | .hdr b m t f => .bytes (b.bytes ++ m.bytes ++ t.bytes ++ f.bytes)
  | .blkMin v => .bytes v.bytes
  | .blkWidth w => .bytes [w]
  | .mb bs => .bytes bs
  | .raw b => .bytes [b]
  | .pageInt bs => .bytes bs
  | .pageBa bs => .bytes bs

/-! ### The host's question about one word of the table -/

/-- The position at which a lone byte is read when nothing else says where it stands: the most specific row of the
table that it matches, so `0000000v` (VARINT.LAST10, byte position 10) before `0vvvvvvv` (VARINT.LAST) (log 17). -/
def lonePos (b : Byte) : Pos := .varintByte (if b.toNat ≤ 1 then 9 else 0)

/-- The instruction of a table word: 32 bits are a command word, 8 bits a varint byte at its lone position. -/
def decodeTableWord (nbits w : Nat) : Option Instr :=
  if nbits = 32 then some (decodeCommand (BitVec.ofNat 32 w))
  else if nbits = 8 then
    match decodeElement (lonePos (BitVec.ofNat 8 w)) [BitVec.ofNat 8 w] with
    | .ok (i, _) => some i
    | .error _ => none
  else none

end Sys2Proof
end

