-- ==== Sys2Proof/Machine/State.lean ====
section
/-! DEFINITION. The state of one DDU (10_state.md R10), as plain data, and its value after reset (R26). The parts `regs`,
`diu`, `dbr` and `mem` are the spec's; `micro` and `env` are the model's own (INVENTORY.md, "State"). -/

namespace Sys2Proof

/-- A memory space or register array with entries of `w` bits: the entries that something has written, addresses
strictly rising. An entry not listed holds no known value; it reads as a free value of generation `gen` (log 6). -/
structure Memory (w : Nat) where
  gen : Nat
  cells : List (Nat × BitVec w)
  deriving DecidableEq, Repr

/-- Addresses strictly rise and are at least `lo`. -/
def Memory.rising {w : Nat} : Nat → List (Nat × BitVec w) → Bool
  | _, [] => true
  | lo, (a, _) :: rest => lo ≤ a && Memory.rising (a + 1) rest

/-- The canonical form, for a space of `cap` entries: listed addresses strictly rise and exist. No listed entry can be
known equal to what an unlisted address reads as, which is a free value (log 6). -/
def Memory.wf {w : Nat} (cap : Nat) (m : Memory w) : Bool :=
  Memory.rising 0 m.cells && m.cells.all fun c => c.1 < cap

namespace Machine

/-- The errors of 60_exceptions.md R191. -/
inductive Err
  | malformedHeader
  | invalidBitWidth
  | unexpectedEOF
  | lengthMismatch
  | negativeLength
  | prefixOutOfBounds
  | valueOutOfBounds
  | capacityExceeded
  | illegalCommand
  deriving DecidableEq, Repr

/-- STATUS of R12: STATE, and with ERROR the error in ERR ("ERR is nonzero exactly when STATE = ERROR"). -/
inductive Status
  | idle
  | busy
  | done
  | error (e : Err)
  deriving DecidableEq, Repr

/-- W_SEL of R18: 0 is W = 32, 1 is W = 64. -/
inductive Width
  | w32
  | w64
  deriving DecidableEq, Repr

/-- SINK of R18: 0 DST, 1 PFX, 2 SFX. -/
inductive Sink
  | dst
  | pfx
  | sfx
  deriving DecidableEq, Repr

/-- DSTATE of R19. -/
inductive DState
  | idle
  | hdr
  | blk
  | wid
  | pay
  | done
  deriving DecidableEq, Repr

/-- BSTATE of R21. -/
inductive BState
  | idle
  | pfx
  | sfx
  | cmp
  | val
  | done
  deriving DecidableEq, Repr

/-- The fields of a stream header in their order (R65, R131). -/
inductive HdrField
  | blockSize
  | mbCount
  | total
  | first
  deriving DecidableEq, Repr

/-- The grain at which the unit steps. `rule` and `whole` are the two grains of 00_scope.md R6 ("one rule per state";
"each operation as one function"); `field` and `byte` cut the reads of R131 and R134 and the suffix copy of R165 into
their fields and bytes. The model's own (log 1). -/
inductive Grain
  | byte
  | field
  | rule
  | whole
  deriving DecidableEq, Repr

/-- An action of the host at the machine's port (log 2). -/
inductive HostOp
  /-- The host lets the unit take a step. -/
  | tick
  /-- A write of a 32-bit word at a byte offset of the register port (R10, R17). -/
  | writeReg (off value : Word)
  /-- A read of a 32-bit word at a byte offset of the register port (R10, R17). -/
  | readReg (off : Word)
  /-- A byte written to SRC (R40). -/
  | writeSrc (a : Word) (b : Byte)
  /-- A byte read from SRC (R40). -/
  | readSrc (a : Word)
  /-- A byte read from DST (R40). -/
  | readDst (a : Word)
  /-- A word read from OFS (R40). -/
  | readOfs (i : Word)
  /-- `rst` asserted (70_reset_and_hazards.md R220, R221). -/
  | rst
  deriving DecidableEq, Repr

/-- The host registers that hold state (R12 to R16); CMD holds none (R11). -/
structure HostRegs where
  status : Status
  srcLen : Word
  srcCur : Word
  outCount : Word
  dstLen : Word
  deriving DecidableEq, Repr

/-- The DIU registers (R18), DSTATE (R19) and WIDTHS (R20). MIN_DELTA and RUN are W bits wide; their values stand
zero-extended in 64 bits (log 19). -/
structure Diu where
  wSel : Width
  sink : Sink
  sinkCap : Word
  blockSize : DWord
  mbCount : DWord
  total : DWord
  mbSize : DWord
  remaining : Word
  emitted : Word
  minDelta : DWord
  run : DWord
  mbIdx : Word
  dstate : DState
  widths : Memory 8
  deriving DecidableEq, Repr

/-- The DBR registers and BSTATE (R21) and the scratch memories PFX and SFX (R22). -/
structure Dbr where
  bstate : BState
  nPfx : Word
  nSfx : Word
  idx : Word
  prevOff : Word
  prevLen : Word
  pfx : Memory 32
  sfx : Memory 32
  deriving DecidableEq, Repr

/-- The memories shared with the host (R23). -/
structure Spaces where
  src : Memory 8
  dst : Memory 8
  ofs : Memory 32
  deriving DecidableEq, Repr

/-- The model's own: how far the unit is inside one rule, at the grains that cut a rule (log 18). -/
structure Micro where
  vrCount : Nat
  vrValue : DWord
  hdrField : HdrField
  widthIdx : Nat
  rawLeft : Word
  deriving DecidableEq, Repr

/-- The model's own: the parameters of the unit (R4, log 4), the grain (log 1), the host's pending actions, oldest
first (log 2), the value its last read returned (log 3), and how many free values were drawn (log 8). -/
structure Env where
  inst : Config.Instance
  grain : Grain
  host : List HostOp
  rdata : Word
  free : Nat
  deriving DecidableEq, Repr

/-- The state of one DDU (R10). -/
structure State where
  regs : HostRegs
  diu : Diu
  dbr : Dbr
  mem : Spaces
  micro : Micro
  env : Env
  deriving DecidableEq, Repr

/-- Why the machine stops with a fault. -/
inductive Fault
  /-- An access to an address that does not exist in a space: raised by a host memory access outside its space, and by
  the unit's writes in states that no run reaches (20_memory.md R47). Safe: the machine stops (log 14, log 23). -/
  | outsideSpace (sp : Space)
  /-- STATE is BUSY and no rule of the spec applies: raised by the unit's sequencer in states that no run reaches.
  Safe: the machine stops (log 23). -/
  | noRule
  deriving DecidableEq, Repr

/-- Why the machine gives an action no meaning. -/
inductive Refusal
  /-- An instruction that the model does not give a meaning yet: raised by `exec`. Safe. -/
  | notModelled (mnemonic : String)
  /-- A stream element executed where the unit does not expect it, or with an ill-formed operand: raised by the meanings
  of the stream elements, never by a step. R60 gives an element no meaning there. Safe (log 16). -/
  | elementOutOfPlace
  /-- A host access to SRC, DST or OFS while STATE = BUSY: raised by the host port. 93_implementation_defined.md U4 says
  `refuse`. Safe (log 12). -/
  | hostAccessWhileBusy
  deriving DecidableEq, Repr

/-- What a step, and the meaning of an instruction, answers. -/
abbrev Result := Host.Outcome State Fault Refusal

/-- A memory that nothing has written, in generation `gen`. -/
def unwritten (w gen : Nat) : Memory w := { gen := gen, cells := [] }

/-- The host registers after reset (R26). -/
def HostRegs.reset : HostRegs :=
  { status := .idle, srcLen := 0, srcCur := 0, outCount := 0, dstLen := 0 }

/-- The DIU after reset: D_IDLE by R26, the other registers DESIGN CHOICE zero (log 7). -/
def Diu.reset (gen : Nat) : Diu :=
  { wSel := .w32, sink := .dst, sinkCap := 0, blockSize := 0, mbCount := 0, total := 0, mbSize := 0, remaining := 0,
    emitted := 0, minDelta := 0, run := 0, mbIdx := 0, dstate := .idle, widths := unwritten 8 gen }

/-- The DBR after reset: B_IDLE by R26, the other registers DESIGN CHOICE zero (log 7). -/
def Dbr.reset (gen : Nat) : Dbr :=
  { bstate := .idle, nPfx := 0, nSfx := 0, idx := 0, prevOff := 0, prevLen := 0, pfx := unwritten 32 gen,
    sfx := unwritten 32 gen }

/-- The memories after reset: "every byte or word of SRC, DST, OFS, PFX and SFX is unspecified" (R26, log 6). -/
def Spaces.reset (gen : Nat) : Spaces :=
  { src := unwritten 8 gen, dst := unwritten 8 gen, ofs := unwritten 32 gen }

/-- No rule in progress (log 18). -/
def Micro.reset : Micro :=
  { vrCount := 0, vrValue := 0, hdrField := .blockSize, widthIdx := 0, rawLeft := 0 }

/-- The machine right after reset (R26, R220): the reference unit, at the step grain, no host action pending. -/
def State.reset : State :=
  { regs := HostRegs.reset, diu := Diu.reset 0, dbr := Dbr.reset 0, mem := Spaces.reset 0, micro := Micro.reset,
    env := { inst := Config.reference, grain := .rule, host := [], rdata := 0, free := 0 } }

end Machine
end Sys2Proof
end

