-- ==== Sys2Proof/Machine/Ops.lean ====
section
/-! DEFINITION. The named operations over memories and registers that every meaning is written with, and the entry into
an error (60_exceptions.md R202, R203) as one of them. -/

namespace Sys2Proof

namespace Memory

variable {w : Nat}

/-- The listed entry at address `a`, if there is one. -/
def lookup (a : Nat) : List (Nat × BitVec w) → Option (BitVec w)
  | [] => none
  | (b, v) :: rest => if a = b then some v else lookup a rest

/-- The entries with `v` at `a`, addresses kept rising. -/
def put (a : Nat) (v : BitVec w) : List (Nat × BitVec w) → List (Nat × BitVec w)
  | [] => [(a, v)]
  | (b, u) :: rest =>
    if a < b then (a, v) :: (b, u) :: rest
    else if a = b then (a, v) :: rest
    else (b, u) :: put a v rest

/-- Entry `a`: the last value written, or the free value of an unwritten entry (20_memory.md R45, R51; U3). -/
def read (sp : Space) (m : Memory w) (a : Nat) : BitVec w :=
  (lookup a m.cells).getD (Config.freeCell w sp m.gen a)

/-- Entry `a` written with `v`. -/
def write (m : Memory w) (a : Nat) (v : BitVec w) : Memory w := { m with cells := put a v m.cells }

/-- MemRead of 00_scope.md section 5: `n` entries from `a` on, lowest address first. -/
def readList (sp : Space) (m : Memory w) : Nat → Nat → List (BitVec w)
  | _, 0 => []
  | a, n + 1 => read sp m a :: readList sp m (a + 1) n

/-- MemWrite of 00_scope.md section 5: the values from `a` on, lowest address first. -/
def writeList (m : Memory w) : Nat → List (BitVec w) → Memory w
  | _, [] => m
  | a, v :: vs => writeList (m.write a v) (a + 1) vs

end Memory

/-- `le_N(v)` of 00_scope.md section 5: the `n` low bytes of `v`, least significant first (20_memory.md R42). -/
def leBytes (n : Nat) (v : DWord) : List Byte := (List.range n).map fun i => v.extractLsb' (8 * i) 8

namespace Machine

/-- The width W in bits (00_scope.md R4). -/
def Width.bits : Width → Nat
  | .w32 => 32
  | .w64 => 64

/-- W/8, the bytes of one W-bit value. -/
def Width.bytes : Width → Nat
  | .w32 => 4
  | .w64 => 8

/-- trunc_W (00_scope.md section 5), zero-extended to 64 bits (log 19). -/
def truncW : Width → DWord → DWord
  | .w32, v => (v.setWidth 32).setWidth 64
  | .w64, v => v

namespace State

/-- STATE = BUSY. -/
abbrev isBusy (s : State) : Prop := s.regs.status = .busy

/-- Move the read cursor past `n` bytes (R28: it is "advanced by every read primitive by exactly the number of bytes
read"). -/
def advance (n : Nat) (s : State) : State :=
  { s with regs.srcCur := s.regs.srcCur + BitVec.ofNat 32 n }

/-- The page that is left: SRC[SRC_CUR .. SRC_LEN - 1] (00_scope.md, glossary). Empty when SRC_CUR ≥ SRC_LEN, so that
the next read raises UnexpectedEOF (R110). -/
def page (s : State) : List Byte :=
  s.mem.src.readList .src s.regs.srcCur.toNat (s.regs.srcLen.toNat - s.regs.srcCur.toNat)

/-- DST[a ..] <- bs, or nothing where that is outside DST (R47). -/
def storeDst (a : Nat) (bs : List Byte) (s : State) : Option State :=
  if a + bs.length ≤ s.env.inst.dstCap then some { s with mem.dst := s.mem.dst.writeList a bs } else none

/-- OFS[i] <- v, or nothing where that is outside OFS, which has LEN_CAP + 1 entries (R4, R40). -/
def storeOfs (i : Nat) (v : Word) (s : State) : Option State :=
  if i ≤ s.env.inst.lenCap then some { s with mem.ofs := s.mem.ofs.write i v } else none

/-- Error entry, `raise E` of R202, as one action: STATE and ERR written, both state machines idle. By R203 and U1 the
result registers SRC_CUR, OUT_COUNT, DST_LEN and all of DST and OFS then hold arbitrary values: each is a fresh free
value, whatever the rules before the raise wrote (log 8). SRC_LEN and SRC stay exact. -/
def raise (e : Err) (s : State) : State :=
  { s with
    regs.status := .error e
    regs.srcCur := Config.freeWord (s.env.free + 1)
    regs.outCount := Config.freeWord (s.env.free + 2)
    regs.dstLen := Config.freeWord (s.env.free + 3)
    mem.dst := unwritten 8 (s.env.free + 4)
    mem.ofs := unwritten 32 (s.env.free + 5)
    diu.dstate := .idle
    dbr.bstate := .idle
    env.free := s.env.free + 5 }

/-- Completion (R97): the result registers and then STATE <- DONE with ERR = 0; the DIU and DBR are idle. -/
def finish (outCount dstLen : Word) (s : State) : State :=
  { s with
    regs.status := .done
    regs.outCount := outCount
    regs.dstLen := dstLen
    diu.dstate := .idle
    dbr.bstate := .idle }

/-- No varint in progress. -/
def clearVarint (s : State) : State := { s with micro.vrCount := 0, micro.vrValue := 0 }

/-- How many values a sink holds (R18, R92, R93, R161, R162). -/
def sinkCapOf (p : Config.Instance) : Width → Sink → Nat
  | w, .dst => p.dstCap / w.bytes
  | _, .pfx => p.lenCap
  | _, .sfx => p.lenCap

/-- A DIU run started by a command rule or by the DBR: W_SEL, SINK and SINK_CAP set, DSTATE in D_HDR (R130), no value
emitted yet (R27, R131; log 26), no rule in progress (log 18). -/
def startRun (w : Width) (k : Sink) (s : State) : State :=
  { s with
    diu.wSel := w
    diu.sink := k
    diu.sinkCap := BitVec.ofNat 32 (sinkCapOf s.env.inst w k)
    diu.emitted := 0
    diu.dstate := .hdr
    micro := Micro.reset }

/-- Emit of R118: append one W-bit value to the sink; nothing where the write would be outside the sink. -/
def emit (v : DWord) (s : State) : Option State :=
  let i := s.diu.emitted.toNat
  match s.diu.sink with
  | .dst => (s.storeDst (i * s.diu.wSel.bytes) (leBytes s.diu.wSel.bytes v)).map fun t =>
      { t with diu.emitted := t.diu.emitted + 1 }
  | .pfx =>
    if i < s.env.inst.lenCap then
      some { s with dbr.pfx := s.dbr.pfx.write i (v.setWidth 32), diu.emitted := s.diu.emitted + 1 }
    else none
  | .sfx =>
    if i < s.env.inst.lenCap then
      some { s with dbr.sfx := s.dbr.sfx.write i (v.setWidth 32), diu.emitted := s.diu.emitted + 1 }
    else none

/-- Emit, one value after another. -/
def emitAll : List DWord → State → Option State
  | [], s => some s
  | v :: vs, s => (s.emit v).bind (emitAll vs)

/-- The space behind the sink. -/
def sinkSpace (s : State) : Space :=
  match s.diu.sink with
  | .dst => .dst
  | .pfx => .pfx
  | .sfx => .sfx

end State

/-- Go on with a memory operation's state, or stop with the fault that names the space it left. -/
def orOutside (sp : Space) (r : Option State) (k : State → Result) : Result :=
  match r with
  | some s => k s
  | none => .fault (.outsideSpace sp)

end Machine
end Sys2Proof
end

