-- ==== Sys2Proof/Machine/Operands.lean ====
section
/-! DEFINITION. The operand forms of the stream (30_encoding.md R72) and the pure functions of 41_stream_primitives.md on
them: varint value, zig-zag, payload length, bit-pack reader, accumulator. -/

namespace Sys2Proof

/-- One turn of the loop of R111: `v <- v or (zext_64(b[6:0]) << (7 * k))` (GK1, log 20). -/
def addGroup (v : DWord) (k : Nat) (g : Group) : DWord := v ||| (g.setWidth 64 <<< (7 * k))

/-- The loop of R111 over groups `k`, `k + 1`, ... -/
def addGroups : DWord → Nat → List Group → DWord
  | v, _, [] => v
  | v, k, g :: gs => addGroups (addGroup v k g) (k + 1) gs

/-- The 64-bit value of a varint (R111). -/
def Varint.value (v : Varint) : DWord := addGroups 0 0 (v.conts ++ [v.last])

/-- ZigZag64 of R112 (GK2, log 20). -/
def zigZag64 (u : DWord) : DWord := (u >>> 1) ^^^ (0 - (u &&& 1))

namespace Machine

/-- PayloadBytes(w) of R115. -/
def payloadBytes (mbSize w : Nat) : Nat := mbSize * w / 8

/-- PayloadBit of R116: bit `n` of a payload is bit `n mod 8` of byte `n div 8` (GK3, log 20). -/
def payloadBit (payload : List Byte) (n : Nat) : Bool := (payload.getD (n / 8) 0).getLsbD (n % 8)

/-- The bits `n`, `n + 1`, ... as a number, bit `n` least significant: the sum of R116 over `w` bits. -/
def bitsFrom (payload : List Byte) : Nat → Nat → Nat
  | _, 0 => 0
  | n, w + 1 => (payloadBit payload n).toNat + 2 * bitsFrom payload (n + 1) w

/-- Unpack(base, j, w) of R116, the payload at `base` given as its bytes; zero-extended to 64 bits. -/
def unpack (payload : List Byte) (j w : Nat) : DWord := BitVec.ofNat 64 (bitsFrom payload (j * w) w)

/-- Fields 0 .. k - 1 of a payload, in order. -/
def fields (payload : List Byte) (w k : Nat) : List DWord := (List.range k).map fun j => unpack payload j w

/-- Accumulate(u) of R117: the next RUN. Both additions are modulo 2^W. -/
def accumulate (w : Width) (minDelta run u : DWord) : DWord := truncW w (run + truncW w (minDelta + u))

/-- Accumulate over successive fields: the values, in order. -/
def accumulateAll (w : Width) (minDelta : DWord) : DWord → List DWord → List DWord
  | _, [] => []
  | run, u :: us => accumulate w minDelta run u :: accumulateAll w minDelta (accumulate w minDelta run u) us

/-- RUN after the values `vs`: the last of them. -/
def lastRun (run : DWord) (vs : List DWord) : DWord := vs.getLast?.getD run

/-- The W-bit value of a zig-zag varint with unsigned value `u`: trunc_W(ZigZag64(u)) of R113. -/
def zzValue (w : Width) (u : DWord) : DWord := truncW w (zigZag64 u)

/-- The power-of-two test of R119. -/
def isPowerOfTwo (x : DWord) : Bool := x != 0 && x &&& (x - 1) == 0

/-- The seven checks of R132 in their order; the first that fails names the error. -/
def headerError (p : Config.Instance) (sinkCap : Nat) (blockSize mbCount total : DWord) : Option Err :=
  if mbCount = 0 then some .malformedHeader
  else if blockSize = 0 then some .malformedHeader
  else if blockSize.toNat % mbCount.toNat ≠ 0 then some .malformedHeader
  else if !isPowerOfTwo (blockSize / mbCount) || (blockSize / mbCount).toNat < Config.minMbSize then
    some .malformedHeader
  else if Config.maxTotal < total.toNat then some .malformedHeader
  else if p.maxBlockSize < blockSize.toNat then some .capacityExceeded
  else if sinkCap < total.toNat then some .capacityExceeded
  else none

/-- sgn_32(v) < 0: "bit 31 set means negative" (R119, R164). -/
def isNegative (v : Word) : Bool := v.getLsbD 31

/-- The four checks of R164 in their order, on a prefix length `p`, a suffix length `q`, the length of the previous
value, the bytes left in the page and DST_LEN. The sums are on natural numbers (R119). -/
def valueError (dstCap : Nat) (p q : Word) (prevLen left dstLen : Nat) : Option Err :=
  if isNegative p || isNegative q then some .negativeLength
  else if prevLen < p.toNat then some .prefixOutOfBounds
  else if left < q.toNat then some .valueOutOfBounds
  else if dstCap < dstLen + p.toNat + q.toNat then some .capacityExceeded
  else none

end Machine
end Sys2Proof
end

