-- ==== Sys2Proof/Machine/Commands.lean ====
section
/-! DEFINITION. The command words (spec/40_commands.md): CLR, DEC_I32, DEC_I64, DEC_BA and the illegal words. A decode
command starts the unit (R90); its body then runs step by step (R130, R160) until R97. -/

namespace Sys2Proof.Machine

/-- Issue of a decode command (R90): STATE BUSY, ERR 0, OUT_COUNT and DST_LEN 0, then the check of SRC_LEN, then the
body. R27 adds EMITTED = 0 and PREV_LEN = 0. A CMD write while BUSY is ignored (R96). -/
def issue (body : State → State) (s : State) : Result :=
  if s.isBusy then .next s
  else
    let t : State :=
      { s with regs.status := .busy, regs.outCount := 0, regs.dstLen := 0, diu.emitted := 0, dbr.prevLen := 0 }
    if s.env.inst.srcCap < s.regs.srcLen.toNat then .next (t.raise .capacityExceeded) else .next (body t)

/-- CLR (R91): STATE <- IDLE, ERR <- 0 and nothing else; while BUSY it is ignored (R96). -/
def execClr (s : State) : Result :=
  if s.isBusy then .next s else .next { s with regs.status := .idle }

/-- DEC_I32 (R92): W_SEL <- 0, SINK <- DST, SINK_CAP <- DST_CAP div 4, then a DIU run. -/
def execDecI32 (s : State) : Result :=
  issue (fun t => ({ t with dbr.bstate := .idle } : State).startRun .w32 .dst) s

/-- DEC_I64 (R93): W_SEL <- 1, SINK <- DST, SINK_CAP <- DST_CAP div 8, then a DIU run. -/
def execDecI64 (s : State) : Result :=
  issue (fun t => ({ t with dbr.bstate := .idle } : State).startRun .w64 .dst) s

/-- DEC_BA (R94, R161): BSTATE <- B_PFX, then the DIU run of the prefix lengths. -/
def execDecBa (s : State) : Result :=
  issue (fun t => ({ t with dbr.bstate := .pfx } : State).startRun .w32 .pfx) s

/-- An illegal command word (R95): STATE <- ERROR, ERR <- 9 and nothing else, whatever the word. While BUSY it is
ignored (R96). -/
def execIllegal (_word : Word) (s : State) : Result :=
  if s.isBusy then .next s else .next { s with regs.status := .error .illegalCommand }

end Sys2Proof.Machine
end

