-- ==== Sys2Proof/Machine/Fetch.lean ====
section
/-! DEFINITION. Where the unit stands in the stream (30_encoding.md R60: the program counter is SRC_CUR together with
DSTATE and BSTATE, 10_state.md R28), what it fetches there, and how the host's question about one table word is placed. -/

namespace Sys2Proof.Machine

/-- The error a byte string that is no element raises: R110 for the end of the page, R111 for a 10th byte above 1. -/
def fetchError : DecodeErr → Err
  | .endOfPage => .unexpectedEOF
  | .varintTooLong => .malformedHeader

namespace State

/-- WIDTHS[MB_IDX], the width of the next miniblock (R136). -/
def mbWidth (s : State) : Nat := (s.diu.widths.read .widths s.diu.mbIdx.toNat).toNat

/-- What the next bytes of SRC are. `none` when the unit is not BUSY, and in the states whose rule reads no stream
element: D_DONE, B_CMP, B_VAL before its suffix, B_DONE. -/
def position (s : State) : Option Pos :=
  match s.regs.status with
  | .busy =>
    match s.diu.dstate with
    | .hdr =>
      match s.env.grain with
      | .byte => some (.varintByte s.micro.vrCount)
      | .field => if s.micro.hdrField = .first then some .zzvarint else some .uvarint
      | .rule => some .hdr
      | .whole => if s.dbr.bstate = .pfx then some .pageBa else some .pageInt
    | .blk => if s.env.grain = .byte then some (.varintByte s.micro.vrCount) else some .blkMin
    | .wid => some .blkWidth
    | .pay => some (.mb (payloadBytes s.diu.mbSize.toNat s.mbWidth))
    | .done => none
    | .idle => if s.dbr.bstate = .val ∧ s.micro.rawLeft ≠ 0 then some .raw else none
  | .idle => none
  | .done => none
  | .error _ => none

/-- The instruction at the cursor, for a position: R110 reads below SRC_LEN only. -/
def fetch (s : State) (pos : Pos) : Except DecodeErr Instr := (decodeElement pos s.page).map (·.1)

/-- A CMD write pending as the host's next action, the unit not BUSY (a CMD write while BUSY is ignored, R96). -/
def placeCommand (w : Word) (s : State) : State :=
  let s := if s.regs.status = .busy then { s with regs.status := .idle, diu.dstate := .idle, dbr.bstate := .idle } else s
  { s with env.host := .writeReg 0 w :: s.env.host }

/-- One varint byte as the whole page, the unit in D_HDR at byte grain and at the byte's lone position, the host letting
it step (log 17, log 22). -/
def placeByte (b : Byte) (s : State) : State :=
  { s with
    regs.status := .busy
    regs.srcLen := 1
    regs.srcCur := 0
    diu.dstate := .hdr
    dbr.bstate := .idle
    mem.src := s.mem.src.write 0 b
    micro.vrCount := if b.toNat ≤ 1 then 9 else 0
    micro.hdrField := .blockSize
    env.grain := .byte
    env.host := .tick :: s.env.host }

end State
end Sys2Proof.Machine
end

