-- ==== Sys2Proof/Machine/Stream.lean ====
section
/-! DEFINITION. The stream elements of the delta-integer-unpacker (spec/41_stream_primitives.md, spec/42_int_delta.md):
varint bytes, varints, the stream header, the block prologue and the miniblock payload. -/

namespace Sys2Proof.Machine

/-- Run the meaning of a stream element where the unit expects that element and its operand is well-formed; elsewhere
R60 gives it no meaning (log 16). -/
def inPlace (i : Instr) (s : State) (k : Result) : Result :=
  if s.position.any i.fits && i.wellFormed then k else .refused .elementOutOfPlace

/-- R132 and R133, after the four fields of R131 have been read: the seven checks in their order, then the first value.
`first` is the W-bit first value. -/
def finishHeader (first : DWord) (s : State) : Result :=
  match headerError s.env.inst s.diu.sinkCap.toNat s.diu.blockSize s.diu.mbCount s.diu.total with
  | some e => .next (s.raise e)
  | none =>
    let t : State := { s with diu.mbSize := s.diu.blockSize / s.diu.mbCount }
    if s.diu.total = 0 then .next { t with diu.dstate := .done }
    else
      orOutside t.sinkSpace (({ t with diu.run := first } : State).emit first) fun u =>
        let remaining : Word := (s.diu.total - 1).setWidth 32
        .next { u with
          diu.remaining := remaining
          diu.dstate := if remaining = 0 then .done else .blk }

/-- A varint field with value `u` has been read: in D_HDR the next of the four header fields (R131), in D_BLK the min
delta (R134). -/
def takeField (u : DWord) (s : State) : Result :=
  match s.diu.dstate with
  | .hdr =>
    match s.micro.hdrField with
    | .blockSize => .next { s with diu.blockSize := u, micro.hdrField := .mbCount }
    | .mbCount => .next { s with diu.mbCount := u, micro.hdrField := .total }
    | .total => .next { s with diu.total := u, micro.hdrField := .first }
    | .first => finishHeader (zzValue s.diu.wSel u) s
  | .blk => .next { s with diu.minDelta := zzValue s.diu.wSel u, diu.dstate := .wid, micro.widthIdx := 0 }
  | .idle => .refused .elementOutOfPlace
  | .wid => .refused .elementOutOfPlace
  | .pay => .refused .elementOutOfPlace
  | .done => .refused .elementOutOfPlace

/-- VARINT.CONT (R111): a non-final byte, `v <- v or group << 7k`, then byte `k + 1`. -/
def execVarintCont (g : Group) (s : State) : Result :=
  inPlace (.varintCont g) s
    (.next { s.advance 1 with
      micro.vrCount := s.micro.vrCount + 1
      micro.vrValue := addGroup s.micro.vrValue s.micro.vrCount g })

/-- VARINT.LAST (R111): the final byte in byte positions 1 to 9; the field is complete. -/
def execVarintLast (g : Group) (s : State) : Result :=
  inPlace (.varintLast g) s
    (takeField (addGroup s.micro.vrValue s.micro.vrCount g) (s.advance 1).clearVarint)

/-- VARINT.LAST10 (R111): byte position 10, whose one value bit is bit 63 of the value. -/
def execVarintLast10 (v : BitVec 1) (s : State) : Result :=
  inPlace (.varintLast10 v) s
    (takeField (addGroup s.micro.vrValue 9 (v.setWidth 7)) (s.advance 1).clearVarint)

/-- UVARINT (R111): a whole unsigned varint, at field grain the next of block size, miniblock count and total value
count (R131). -/
def execUvarint (v : Varint) (s : State) : Result :=
  inPlace (.uvarint v) s (takeField v.value (s.advance v.size))

/-- ZZVARINT (R113): a whole zig-zag varint, at field grain the first value (R131), which completes the header. -/
def execZzvarint (v : Varint) (s : State) : Result :=
  inPlace (.zzvarint v) s (takeField v.value (s.advance v.size))

/-- .hdr (R131, R132, R133): all four fields are read before any is checked. -/
def execHdr (b m t f : Varint) (s : State) : Result :=
  inPlace (.hdr b m t f) s
    (finishHeader (zzValue s.diu.wSel f.value)
      { s.advance (b.size + m.size + t.size + f.size) with
        diu.emitted := 0
        diu.blockSize := b.value
        diu.mbCount := m.value
        diu.total := t.value })

/-- .blk.min (R134): MIN_DELTA, then D_WID. -/
def execBlkMin (v : Varint) (s : State) : Result :=
  inPlace (.blkMin v) s (takeField v.value (s.advance v.size))

/-- .blk.width (R114, R135): width byte number m of the block; after the last of MB_COUNT, MB_IDX <- 0 and D_PAY. No
width is judged here. -/
def execBlkWidth (w : Byte) (s : State) : Result :=
  inPlace (.blkWidth w) s
    (let m := s.micro.widthIdx
     if m < s.env.inst.maxBlockSize / 8 then
       let t : State := { s.advance 1 with diu.widths := s.diu.widths.write m w }
       if m + 1 = s.diu.mbCount.toNat then
         .next { t with diu.mbIdx := 0, diu.dstate := .pay, micro.widthIdx := 0 }
       else .next { t with micro.widthIdx := s.micro.widthIdx + 1 }
     else .fault (.outsideSpace .widths))

/-- DSTATE after a miniblock (R137): the test on REMAINING comes first. -/
def afterMiniblock (remaining : Word) (mbIdx mbCount : Nat) : DState :=
  if remaining = 0 then .done else if mbIdx = mbCount then .blk else .pay

/-- .mb (R136, R137): the width check, the length check, then k = min(MB_SIZE, REMAINING) fields unpacked, accumulated
and emitted; the cursor passes the whole payload. A whole payload of another length than the position asks is none of
this position's elements. -/
def execMb (payload : List Byte) (s : State) : Result :=
  inPlace (.mb payload) s
    (let n := payloadBytes s.diu.mbSize.toNat s.mbWidth
     if s.diu.wSel.bits < s.mbWidth then .next (s.raise .invalidBitWidth)
     else if s.regs.srcLen.toNat < s.regs.srcCur.toNat + n then .next (s.raise .unexpectedEOF)
     else if payload.length ≠ n then .refused .elementOutOfPlace
     else
       let k := min s.diu.mbSize.toNat s.diu.remaining.toNat
       let vs := accumulateAll s.diu.wSel s.diu.minDelta s.diu.run (fields payload s.mbWidth k)
       orOutside s.sinkSpace (s.emitAll vs) fun t =>
         let remaining := s.diu.remaining - BitVec.ofNat 32 k
         let mbIdx := s.diu.mbIdx + 1
         .next { t.advance n with
           diu.run := lastRun s.diu.run vs
           diu.remaining := remaining
           diu.mbIdx := mbIdx
           diu.dstate := afterMiniblock remaining mbIdx.toNat s.diu.mbCount.toNat })

end Sys2Proof.Machine
end

