-- ==== Sys2Proof/Machine/ByteArray.lean ====
section
/-! DEFINITION. The delta-byte-array reconstructor (spec/43_byte_array.md): the rules of B_CMP, B_VAL and B_DONE, and the
raw suffix bytes. -/

namespace Sys2Proof.Machine

namespace State

/-- B_CMP (R163): the two counts compared, and the value loop set up. -/
def compareCounts (s : State) : State :=
  if s.dbr.nPfx ≠ s.dbr.nSfx then s.raise .lengthMismatch
  else
    { s with
      dbr.idx := 0
      dbr.prevOff := 0
      dbr.prevLen := 0
      dbr.bstate := if s.dbr.nPfx = 0 then .done else .val }

/-- PFX[IDX] (R164). -/
def prefixLen (s : State) : Word := s.dbr.pfx.read .pfx s.dbr.idx.toNat

/-- SFX[IDX] (R164). -/
def suffixLen (s : State) : Word := s.dbr.sfx.read .sfx s.dbr.idx.toNat

/-- B_VAL, part 1 (R164). -/
def checkValue (s : State) : Option Err :=
  valueError s.env.inst.dstCap s.prefixLen s.suffixLen s.dbr.prevLen.toNat
    (s.regs.srcLen.toNat - s.regs.srcCur.toNat) s.regs.dstLen.toNat

/-- B_VAL, part 2 (R165), up to the suffix: OFS[IDX], the copy of the shared prefix from DST, the new PREV_OFF, PREV_LEN
and IDX. The suffix bytes are then still to copy. -/
def beginValue (s : State) : Option State :=
  let start := s.regs.dstLen
  let p := s.prefixLen
  let q := s.suffixLen
  ((s.storeOfs s.dbr.idx.toNat start).bind
    (storeDst start.toNat (s.mem.dst.readList .dst s.dbr.prevOff.toNat p.toNat))).map fun t =>
      { t with
        regs.dstLen := start + p
        dbr.prevOff := start
        dbr.prevLen := p + q
        dbr.idx := s.dbr.idx + 1
        micro.rawLeft := q }

/-- R165: the whole new suffix copied from SRC in one go. -/
def copySuffix (s : State) : Option State :=
  let q := s.micro.rawLeft
  (s.storeDst s.regs.dstLen.toNat (s.mem.src.readList .src s.regs.srcCur.toNat q.toNat)).map fun t =>
    { t.advance q.toNat with regs.dstLen := s.regs.dstLen + q, micro.rawLeft := 0 }

/-- The end of R165: B_DONE after the last value, else B_VAL for the next, once no suffix byte is left to copy. -/
def nextValue (s : State) : State :=
  if s.micro.rawLeft = 0 then
    { s with dbr.bstate := if s.dbr.idx = s.dbr.nPfx then .done else .val }
  else s

/-- R165 as far as one step goes: at the grains of R6 the whole value, at byte and field grain the value without its
suffix bytes, each of which is then an element of its own (log 1). -/
def emitValue (s : State) : Option State :=
  match s.env.grain with
  | .byte => s.beginValue.map nextValue
  | .field => s.beginValue.map nextValue
  | .rule => (s.beginValue.bind copySuffix).map nextValue
  | .whole => (s.beginValue.bind copySuffix).map nextValue

end State

/-- B_VAL (R164, R165). -/
def valueStep (s : State) : Result :=
  match s.checkValue with
  | some e => .next (s.raise e)
  | none => orOutside .dst s.emitValue .next

/-- B_DONE (R166), and the end of DEC_BA (R94): OFS[N_PFX] <- DST_LEN, OUT_COUNT <- N_PFX, STATE <- DONE. -/
def closeOffsets (s : State) : Result :=
  orOutside .ofs (s.storeOfs s.dbr.nPfx.toNat s.regs.dstLen) fun t => .next (t.finish s.dbr.nPfx s.regs.dstLen)

/-- .raw (R165): one byte of the new suffix, copied unchanged to DST after what was written before it. -/
def execRaw (b : Byte) (s : State) : Result :=
  inPlace (.raw b) s
    (orOutside .dst (s.storeDst s.regs.dstLen.toNat [b]) fun t =>
      .next (State.nextValue { t.advance 1 with
        regs.dstLen := s.regs.dstLen + 1
        micro.rawLeft := s.micro.rawLeft - 1 }))

end Sys2Proof.Machine
end

