-- ==== Sys2Proof/Machine/Pages.lean ====
section
/-! DEFINITION. The whole-operation grain of 00_scope.md R6: DecodeInt (42_int_delta.md R139) and DecodeByteArray
(43_byte_array.md R167) as pure functions of the page, and the instructions .page.int and .page.ba that run them. -/

namespace Sys2Proof.Machine

/-- A varint at the head of the page, as its value (R111). -/
def readUvarint (page : List Byte) : Except Err (DWord × List Byte) :=
  match parseVarint 0 page with
  | .ok (v, rest) => .ok (v.value, rest)
  | .error e => .error (fetchError e)

/-- `n` width bytes at the head of the page (R114). -/
def readWidths : Nat → List Byte → Except Err (List Byte × List Byte)
  | 0, page => .ok ([], page)
  | _ + 1, [] => .error .unexpectedEOF
  | n + 1, b :: page => (readWidths n page).map fun (ws, rest) => (b :: ws, rest)

/-- What a stretch of a stream gives: the values in order, the values still missing, RUN, and the page that is left. -/
structure Decoded where
  values : List DWord
  missing : Nat
  run : DWord
  rest : List Byte
  deriving DecidableEq, Repr

/-- The miniblocks of one block (the inner loop of R139), for the width bytes still to use. -/
def decodeMiniblocks (w : Width) (mbSize : Nat) (minDelta : DWord) :
    List Byte → Nat → DWord → List Byte → Except Err Decoded
  | [], missing, run, page => .ok { values := [], missing := missing, run := run, rest := page }
  | b :: widths, missing, run, page =>
    if missing = 0 then .ok { values := [], missing := 0, run := run, rest := page }
    else if w.bits < b.toNat then .error .invalidBitWidth
    else
      let n := payloadBytes mbSize b.toNat
      if page.length < n then .error .unexpectedEOF
      else
        let k := min mbSize missing
        let vs := accumulateAll w minDelta run (fields (page.take n) b.toNat k)
        (decodeMiniblocks w mbSize minDelta widths (missing - k) (lastRun run vs) (page.drop n)).map fun d =>
          { d with values := vs ++ d.values }

/-- The blocks of a stream (the outer loop of R139). `fuel` bounds the blocks by the bytes of the page: a block takes at
least one byte, and with no byte left its min delta raises UnexpectedEOF. -/
def decodeBlocks (w : Width) (mbCount mbSize : Nat) : Nat → Nat → DWord → List Byte → Except Err Decoded
  | fuel, missing, run, page =>
    if missing = 0 then .ok { values := [], missing := 0, run := run, rest := page }
    else
      match fuel with
      | 0 => .error .unexpectedEOF
      | fuel + 1 => do
        let (u, page) ← readUvarint page
        let (widths, page) ← readWidths mbCount page
        let d ← decodeMiniblocks w mbSize (zzValue w u) widths missing run page
        let e ← decodeBlocks w mbCount mbSize fuel d.missing d.run d.rest
        return { e with values := d.values ++ e.values }

/-- DecodeInt() of R139 as a function of the page: the values in order and the page after the stream, or the first error
met. `sinkCap` is SINK_CAP. -/
def decodeIntPage (p : Config.Instance) (w : Width) (sinkCap : Nat) (page : List Byte) :
    Except Err (List DWord × List Byte) := do
  let (blockSize, page) ← readUvarint page
  let (mbCount, page) ← readUvarint page
  let (total, page) ← readUvarint page
  let (f, page) ← readUvarint page
  match headerError p sinkCap blockSize mbCount total with
  | some e => .error e
  | none =>
    if total = 0 then return ([], page)
    else
      let first := zzValue w f
      let d ← decodeBlocks w mbCount.toNat (blockSize / mbCount).toNat page.length (total.toNat - 1) first page
      return (first :: d.values, d.rest)

/-- The value loop of R167 over the pairs of lengths: the values in order and the page after the last suffix. -/
def decodeValues (dstCap : Nat) : List (Word × Word) → List Byte → Nat → List Byte →
    Except Err (List (List Byte) × List Byte)
  | [], _, _, page => .ok ([], page)
  | (p, q) :: lens, prev, dstLen, page =>
    match valueError dstCap p q prev.length page.length dstLen with
    | some e => .error e
    | none =>
      let value := prev.take p.toNat ++ page.take q.toNat
      (decodeValues dstCap lens value (dstLen + value.length) (page.drop q.toNat)).map fun (vs, rest) =>
        (value :: vs, rest)

/-- What DecodeByteArray gives: the two arrays of lengths, the values in order, and the page that is left. -/
structure DecodedBa where
  prefixes : List Word
  suffixes : List Word
  values : List (List Byte)
  rest : List Byte
  deriving DecidableEq, Repr

/-- DecodeByteArray() of R167 as a function of the page. -/
def decodeBaPage (p : Config.Instance) (page : List Byte) : Except Err DecodedBa := do
  let (ps, page) ← decodeIntPage p .w32 p.lenCap page
  let (qs, page) ← decodeIntPage p .w32 p.lenCap page
  if ps.length ≠ qs.length then .error .lengthMismatch
  else
    let prefixes := ps.map fun v => v.setWidth 32
    let suffixes := qs.map fun v => v.setWidth 32
    let (values, rest) ← decodeValues p.dstCap (prefixes.zip suffixes) [] 0 page
    return { prefixes := prefixes, suffixes := suffixes, values := values, rest := rest }

/-- OFS[i] for successive values that start at `start` (R50). -/
def offsetsFrom : Nat → List (List Byte) → List Word
  | _, [] => []
  | start, v :: vs => BitVec.ofNat 32 start :: offsetsFrom (start + v.length) vs

/-- .page.int (R139): DecodeInt over the whole page, its values put into the sink, the cursor past the stream; the run is
then in D_DONE (R138). The registers that only the steps inside the run use are not written (DESIGN CHOICE, log 9). -/
def execPageInt (page : List Byte) (s : State) : Result :=
  inPlace (.pageInt page) s
    (match decodeIntPage s.env.inst s.diu.wSel s.diu.sinkCap.toNat page with
     | .error e => .next (s.raise e)
     | .ok (vs, rest) =>
       orOutside s.sinkSpace (({ s with diu.emitted := 0 } : State).emitAll vs) fun t =>
         .next { t.advance (page.length - rest.length) with diu.dstate := .done })

/-- .page.ba (R167): DecodeByteArray over the whole page: PFX and SFX, the values back to back in DST, their starts in
OFS, DST_LEN and the cursor; the DBR is then in B_DONE (R166). The registers of the DIU hold no value outside a run (R18), so
none but DSTATE is written: EMITTED keeps its value from before the page, and W_SEL, SINK and SINK_CAP those of the prefix
run (DESIGN CHOICE, log 9). -/
def execPageBa (page : List Byte) (s : State) : Result :=
  inPlace (.pageBa page) s
    (match decodeBaPage s.env.inst page with
     | .error e => .next (s.raise e)
     | .ok d =>
       let n := d.values.length
       let arena := d.values.flatten
       let last := (d.values.getLast?.getD []).length
       if s.env.inst.lenCap < n then .fault (.outsideSpace .ofs)
       else
         orOutside .dst (s.storeDst 0 arena) fun t =>
           .next { t.advance (page.length - d.rest.length) with
             regs.dstLen := BitVec.ofNat 32 arena.length
             mem.ofs := s.mem.ofs.writeList 0 (offsetsFrom 0 d.values)
             diu.dstate := .idle
             dbr.bstate := .done
             dbr.nPfx := BitVec.ofNat 32 n
             dbr.nSfx := BitVec.ofNat 32 n
             dbr.idx := BitVec.ofNat 32 n
             dbr.prevOff := BitVec.ofNat 32 (arena.length - last)
             dbr.prevLen := BitVec.ofNat 32 last
             dbr.pfx := s.dbr.pfx.writeList 0 d.prefixes
             dbr.sfx := s.dbr.sfx.writeList 0 d.suffixes })

end Sys2Proof.Machine
end

