-- ==== Sys2Proof/Machine/Dispatch.lean ====
section
/-! DEFINITION. What each instruction does: one arm for each constructor of Instr. -/

namespace Sys2Proof.Machine

def exec (i : Instr) (s : State) : Host.Outcome State Fault Refusal :=
  match i with
  | .clr => Sys2Proof.Machine.execClr s
  | .decI32 => Sys2Proof.Machine.execDecI32 s
  | .decI64 => Sys2Proof.Machine.execDecI64 s
  | .decBa => Sys2Proof.Machine.execDecBa s
  | .illegal word => Sys2Proof.Machine.execIllegal word s
  | .varintCont v => Sys2Proof.Machine.execVarintCont v s
  | .varintLast v => Sys2Proof.Machine.execVarintLast v s
  | .varintLast10 v => Sys2Proof.Machine.execVarintLast10 v s
  | .uvarint v => Sys2Proof.Machine.execUvarint v s
  | .zzvarint v => Sys2Proof.Machine.execZzvarint v s
  | .hdr b m t f => Sys2Proof.Machine.execHdr b m t f s
  | .blkMin v => Sys2Proof.Machine.execBlkMin v s
  | .blkWidth w => Sys2Proof.Machine.execBlkWidth w s
  | .mb payload => Sys2Proof.Machine.execMb payload s
  | .raw b => Sys2Proof.Machine.execRaw b s
  | .pageInt page => Sys2Proof.Machine.execPageInt page s
  | .pageBa page => Sys2Proof.Machine.execPageBa page s

end Sys2Proof.Machine
end

