-- ==== Sys2Proof/Machine/Flags.lean ====
section
/-! DEFINITION. The only status bits of the DDU: STATE and ERR of STATUS (10_state.md R12, R29, 60_exceptions.md R191).
There are no condition codes, and no instruction computes one (R29). -/

namespace Sys2Proof.Machine

/-- The error codes of R191. -/
def Err.code : Err → BitVec 4
  | .malformedHeader => 1
  | .invalidBitWidth => 2
  | .unexpectedEOF => 3
  | .lengthMismatch => 4
  | .negativeLength => 5
  | .prefixOutOfBounds => 6
  | .valueOutOfBounds => 7
  | .capacityExceeded => 8
  | .illegalCommand => 9

/-- STATUS.STATE, bits 1:0 (R12). -/
def Status.stateCode : Status → BitVec 2
  | .idle => 0
  | .busy => 1
  | .done => 2
  | .error _ => 3

/-- STATUS.ERR, bits 11:8 (R12): 0 unless STATE = ERROR. -/
def Status.errCode : Status → BitVec 4
  | .idle => 0
  | .busy => 0
  | .done => 0
  | .error e => e.code

/-- The STATUS word of R12: bits 31:12 and 7:2 read as 0. -/
def Status.word (st : Status) : Word := (0#20 ++ st.errCode ++ 0#6 ++ st.stateCode : BitVec 32)

/-- The optional `done` wire of R207: "1 exactly when STATE is DONE or ERROR"; it carries no state. -/
def Status.doneWire : Status → Bool
  | .idle => false
  | .busy => false
  | .done => true
  | .error _ => true

end Sys2Proof.Machine
end

