-- ==== Sys2Proof/Machine/HostPort.lean ====
section
/-! DEFINITION. The host's accesses: the register port (10_state.md R10 to R17), the memories (20_memory.md R40,
70_reset_and_hazards.md R224) and the reset input (R220, R221). Issuing a command by a CMD write is in Sequencer.lean. -/

namespace Sys2Proof.Machine

/-- Offsets of the register map (R10). -/
def offCmd : Word := 0x00
def offStatus : Word := 0x04
def offSrcLen : Word := 0x08
def offSrcCur : Word := 0x0C
def offOutCount : Word := 0x10
def offDstLen : Word := 0x14

namespace State

/-- A host write to a register other than CMD: SRC_LEN and SRC_CUR while not BUSY; every other write, and every write of
these two while BUSY, is ignored (R13, R14, R17). -/
def writePort (off value : Word) (s : State) : State :=
  if s.isBusy then s
  else if off = offSrcLen then { s with regs.srcLen := value }
  else if off = offSrcCur then { s with regs.srcCur := value }
  else s

/-- What a read of a result register returns: its value, or while BUSY an unspecified value (R14, R15, R16, U2), drawn
as free value number `env.free + 1` (log 10). -/
def resultValue (v : Word) (s : State) : Word := if s.isBusy then Config.freeWord (s.env.free + 1) else v

/-- What a host read of a register returns: CMD and undecoded offsets read 0 (R10, R11). -/
def portValue (off : Word) (s : State) : Word :=
  if off = offStatus then s.regs.status.word
  else if off = offSrcLen then s.regs.srcLen
  else if off = offSrcCur then s.resultValue s.regs.srcCur
  else if off = offOutCount then s.resultValue s.regs.outCount
  else if off = offDstLen then s.resultValue s.regs.dstLen
  else 0

/-- A host read: "A host read never changes state" (R17); only the value it returned and the counter of free values move,
which are the model's own. -/
def readPort (off : Word) (s : State) : State :=
  { s with env.rdata := s.portValue off, env.free := s.env.free + 1 }

/-- `rst` (R220, R221): every register and state machine as after reset, every memory unspecified again, in a new
generation; a command in progress is abandoned with no error recorded. The unit's parameters, the grain and the host's
own side stay (log 11). -/
def applyReset (s : State) : State :=
  { s with
    regs := HostRegs.reset
    diu := Diu.reset (s.env.free + 1)
    dbr := Dbr.reset (s.env.free + 1)
    mem := Spaces.reset (s.env.free + 1)
    micro := Micro.reset
    env.free := s.env.free + 1 }

end State

/-- A host access to a memory of `cap` entries: refused while BUSY (R224, U4; log 12), a fault at an address that does
not exist (log 14). -/
def hostMemory (sp : Space) (cap : Nat) (a : Word) (s : State) (t : State) : Result :=
  if s.isBusy then .refused .hostAccessWhileBusy
  else if a.toNat < cap then .next t
  else .fault (.outsideSpace sp)

/-- A byte written to SRC by the host (R40). -/
def hostWriteSrc (a : Word) (b : Byte) (s : State) : Result :=
  hostMemory .src s.env.inst.srcCap a s { s with mem.src := s.mem.src.write a.toNat b }

/-- A byte of SRC read by the host (R40). -/
def hostReadSrc (a : Word) (s : State) : Result :=
  hostMemory .src s.env.inst.srcCap a s { s with env.rdata := (s.mem.src.read .src a.toNat).setWidth 32 }

/-- A byte of DST read by the host (R40; log 13). -/
def hostReadDst (a : Word) (s : State) : Result :=
  hostMemory .dst s.env.inst.dstCap a s { s with env.rdata := (s.mem.dst.read .dst a.toNat).setWidth 32 }

/-- A word of OFS read by the host; OFS has LEN_CAP + 1 entries (R4, R40; log 13). -/
def hostReadOfs (i : Word) (s : State) : Result :=
  hostMemory .ofs (s.env.inst.lenCap + 1) i s { s with env.rdata := s.mem.ofs.read .ofs i.toNat }

end Sys2Proof.Machine
end

