-- ==== Sys2Proof/Machine/Sequencer.lean ====
section
/-! DEFINITION. What moves the machine: the unit's sequencer while BUSY (42_int_delta.md R137, 43_byte_array.md R160), and
the host's pending actions (00_scope.md R5, log 2). -/

namespace Sys2Proof.Machine

namespace State

/-- D_DONE for a DIU run that a command started (R138, R92, R93): OUT_COUNT <- EMITTED, DST_LEN <- (W/8) * EMITTED,
STATE <- DONE. -/
def endIntCommand (s : State) : State :=
  s.finish s.diu.emitted (BitVec.ofNat 32 s.diu.wSel.bytes * s.diu.emitted)

/-- D_DONE for the run of the prefix lengths (R138, R161, R162): N_PFX <- EMITTED, then the run of the suffix lengths. -/
def endPrefixRun (s : State) : State :=
  ({ s with dbr.nPfx := s.diu.emitted, dbr.bstate := .sfx } : State).startRun .w32 .sfx

/-- D_DONE for the run of the suffix lengths (R138, R162): N_SFX <- EMITTED, then B_CMP. -/
def endSuffixRun (s : State) : State :=
  { s with dbr.nSfx := s.diu.emitted, dbr.bstate := .cmp, diu.dstate := .idle }

end State

/-- The rules of the state machines that read no stream element. -/
def sequence (s : State) : Result :=
  match s.diu.dstate, s.dbr.bstate with
  | .done, .idle => .next s.endIntCommand
  | .done, .pfx => .next s.endPrefixRun
  | .done, .sfx => .next s.endSuffixRun
  | .idle, .cmp => .next s.compareCounts
  | .idle, .val => valueStep s
  | .idle, .done => closeOffsets s
  | _, _ => .fault .noRule

/-- One step of the unit: nothing unless BUSY (R97, R233); else the stream element at the cursor, or the rule that reads
none. Bytes that are no element raise (R110, R111). -/
def unitStep (s : State) : Result :=
  if s.isBusy then
    match s.position with
    | some pos =>
      match s.fetch pos with
      | .ok i => exec i s
      | .error e => .next (s.raise (fetchError e))
    | none => sequence s
  else .next s

/-- One action of the host. A CMD write issues the command its word encodes (R11). -/
def hostStep (op : HostOp) (s : State) : Result :=
  match op with
  | .tick => unitStep s
  | .writeReg off value => if off = offCmd then exec (decodeCommand value) s else .next (s.writePort off value)
  | .readReg off => .next (s.readPort off)
  | .writeSrc a b => hostWriteSrc a b s
  | .readSrc a => hostReadSrc a s
  | .readDst a => hostReadDst a s
  | .readOfs i => hostReadOfs i s
  | .rst => .next s.applyReset

/-- One step of the machine: the oldest pending action of the host, or, with none pending, a step of the unit (log 2). -/
def machineStep (s : State) : Result :=
  match s.env.host with
  | [] => unitStep s
  | op :: rest => hostStep op { s with env.host := rest }

/-- The state whose next step fetches and runs the table word `w` of `nbits` bits (log 17, log 22). -/
def placeTableWord (s : State) (nbits w : Nat) : State :=
  if nbits = 8 then s.placeByte (BitVec.ofNat 8 w) else s.placeCommand (BitVec.ofNat 32 w)

end Sys2Proof.Machine
end

