-- ==== Sys2Proof/Machine/RefEncoder.lean ====
section
/-! DEFINITION. The reference encoder of 30_encoding.md R76 (`.ints` and `.strs`). It is not part of the hardware: the
round-trip rules R144 and R171 are stated with it. -/

namespace Sys2Proof.Machine

/-- `uvarint(v)` of R75, the shortest varint of `v`; `fuel` is the bytes still allowed. -/
def shortest : Nat → DWord → Varint
  | 0, v => { conts := [], last := v.setWidth 7 }
  | fuel + 1, v =>
    if v.toNat < 128 then { conts := [], last := v.setWidth 7 }
    else
      let r := shortest fuel (v >>> 7)
      { r with conts := v.setWidth 7 :: r.conts }

/-- `uvarint(v)` of R75 as bytes. -/
def uvarintBytes (v : DWord) : List Byte := (shortest 9 v).bytes

/-- sgn_W of a W-bit value, sign-extended to 64 bits. -/
def signExtendW : Width → DWord → DWord
  | .w32, v => (v.setWidth 32).signExtend 64
  | .w64, v => v

/-- `zz(s) = (s << 1) xor (s >> 63 arithmetic)` of R75. -/
def zigZagOf (s : DWord) : DWord := (s <<< 1) ^^^ (s.sshiftRight 63)

/-- `zzvarint` of R75 for a W-bit value. -/
def zzvarintBytes (w : Width) (v : DWord) : List Byte := uvarintBytes (zigZagOf (signExtendW w v))

/-- trunc_W(v(k+1) - v(k)) of R76 for the values after `v`. -/
def deltasFrom (w : Width) : DWord → List DWord → List DWord
  | _, [] => []
  | v, u :: us => truncW w (u - v) :: deltasFrom w u us

/-- The lesser of two W-bit values read as signed numbers. -/
def signedMin (w : Width) (a b : DWord) : DWord :=
  if (signExtendW w a).toInt ≤ (signExtendW w b).toInt then a else b

/-- The least delta of a group (R76). -/
def leastDelta (w : Width) : List DWord → DWord
  | [] => 0
  | d :: ds => ds.foldl (signedMin w) d

/-- The number of significant bits of the largest of `us` (R76): 0 if all are 0. -/
def widthOf (us : List DWord) : Nat := us.foldl (fun n u => max n u.toNat.size) 0

/-- The fields `us` of width `w` as one number, field 0 least significant (R67). -/
def packNat (w : Nat) : List DWord → Nat
  | [] => 0
  | u :: us => u.toNat + 2 ^ w * packNat w us

/-- A number as `n` bytes, least significant first. -/
def natBytes : Nat → Nat → List Byte
  | 0, _ => []
  | n + 1, x => BitVec.ofNat 8 x :: natBytes n (x / 256)

/-- `.mb w : us` of R75: zero fields up to the miniblock size, packed as R116 reads them. -/
def packPayload (mbSize w : Nat) (us : List DWord) : List Byte := natBytes (payloadBytes mbSize w) (packNat w us)

/-- The widths of `n` miniblocks over the fields `us`: 0 for a miniblock with no delta (R76). -/
def widthsOf (mbSize : Nat) : Nat → List DWord → List Nat
  | 0, _ => []
  | n + 1, us => widthOf (us.take mbSize) :: widthsOf mbSize n (us.drop mbSize)

/-- The payloads of the miniblocks that hold at least one delta (R76). -/
def payloadsOf (mbSize : Nat) : Nat → List DWord → List Byte
  | 0, _ => []
  | n + 1, us =>
    if us.isEmpty then []
    else packPayload mbSize (widthOf (us.take mbSize)) (us.take mbSize) ++ payloadsOf mbSize n (us.drop mbSize)

/-- One block over the deltas `ds` (R76). -/
def encodeBlock (w : Width) (mbCount mbSize : Nat) (ds : List DWord) : List Byte :=
  let least := leastDelta w ds
  let us := ds.map fun d => truncW w (d - least)
  zzvarintBytes w least ++ (widthsOf mbSize mbCount us).map (BitVec.ofNat 8) ++ payloadsOf mbSize mbCount us

/-- The blocks over the deltas, `mbCount * mbSize` deltas a block; `fuel` bounds the blocks. -/
def encodeBlocks (w : Width) (mbCount mbSize : Nat) : Nat → List DWord → List Byte
  | 0, _ => []
  | fuel + 1, ds =>
    if ds.isEmpty then []
    else
      encodeBlock w mbCount mbSize (ds.take (mbCount * mbSize)) ++
        encodeBlocks w mbCount mbSize fuel (ds.drop (mbCount * mbSize))

/-- `.ints W, bs, mc : vs` of R76, with bs = mbCount * mbSize. -/
def encodeInts (w : Width) (mbCount mbSize : Nat) (vs : List DWord) : List Byte :=
  let deltas := deltasFrom w (vs.headD 0) vs.tail
  uvarintBytes (BitVec.ofNat 64 (mbCount * mbSize)) ++ uvarintBytes (BitVec.ofNat 64 mbCount) ++
    uvarintBytes (BitVec.ofNat 64 vs.length) ++ zzvarintBytes w (vs.headD 0) ++
    encodeBlocks w mbCount mbSize deltas.length deltas

/-- The length of the longest common prefix of two byte strings (R76). -/
def commonLen : List Byte → List Byte → Nat
  | a :: as, b :: bs => if a = b then commonLen as bs + 1 else 0
  | [], _ => 0
  | _, [] => 0

/-- The prefix lengths p_i of R76 for the strings after `prev`. -/
def prefixLensFrom : List Byte → List (List Byte) → List Nat
  | _, [] => []
  | prev, v :: vs => commonLen prev v :: prefixLensFrom v vs

/-- The byte-array page (R69) of the strings `vs` with the prefix lengths `ps`: the lengths of the rest as the second
stream, then the rests. -/
def encodeStringsBy (mbCount mbSize : Nat) (ps : List Nat) (vs : List (List Byte)) : List Byte :=
  encodeInts .w32 mbCount mbSize (ps.map (BitVec.ofNat 64)) ++
    encodeInts .w32 mbCount mbSize ((vs.zip ps).map fun x => BitVec.ofNat 64 (x.1.length - x.2)) ++
    ((vs.zip ps).map fun x => x.1.drop x.2).flatten

/-- `.strs bs, mc : vs` of R76: the prefix lengths are the longest common ones. -/
def encodeStrings (mbCount mbSize : Nat) (vs : List (List Byte)) : List Byte :=
  encodeStringsBy mbCount mbSize (prefixLensFrom [] vs) vs

end Sys2Proof.Machine
end

