-- ==== Sys2Proof/Safety.lean ====
section
/-! DEFINITION. The terms that claims about the DDU are stated in: the invariant of the machine, the conditions under
which an element stands at the cursor, and what a command leaves when it ends. -/

namespace Sys2Proof.Machine

/-- STATE is BUSY, or not. -/
abbrev State.Ready (s : State) : Prop := ¬ s.isBusy

/-- Every memory and register array is in canonical form and inside its space (20_memory.md R40, R47). -/
structure State.MemoriesOk (s : State) : Prop where
  src : s.mem.src.wf s.env.inst.srcCap = true
  dst : s.mem.dst.wf s.env.inst.dstCap = true
  ofs : s.mem.ofs.wf (s.env.inst.lenCap + 1) = true
  pfx : s.dbr.pfx.wf s.env.inst.lenCap = true
  sfx : s.dbr.sfx.wf s.env.inst.lenCap = true
  widths : s.diu.widths.wf (s.env.inst.maxBlockSize / 8) = true

/-- W_SEL, SINK and SINK_CAP are what the command or the DBR set (R92, R93, R161, R162). -/
def State.SinkOk (s : State) : Prop :=
  s.diu.sinkCap.toNat = State.sinkCapOf s.env.inst s.diu.wSel s.diu.sink ∧
  match s.dbr.bstate with
  | .idle => s.diu.sink = .dst
  | .pfx => s.diu.sink = .pfx ∧ s.diu.wSel = .w32
  | .sfx => s.diu.sink = .sfx ∧ s.diu.wSel = .w32 ∧ s.dbr.nPfx.toNat ≤ s.env.inst.lenCap
  | .cmp => False
  | .val => False
  | .done => False

/-- SRC_CUR has not passed SRC_LEN (R14). -/
abbrev State.CursorOk (s : State) : Prop := s.regs.srcCur.toNat ≤ s.regs.srcLen.toNat

/-- The header has passed its checks and values are still to emit (R18, R132, R134, R136). -/
structure State.BlocksOk (s : State) : Prop where
  legal : headerError s.env.inst s.diu.sinkCap.toNat s.diu.blockSize s.diu.mbCount s.diu.total = none
  size : s.diu.mbSize = s.diu.blockSize / s.diu.mbCount
  some_left : s.diu.remaining ≠ 0
  counted : s.diu.emitted.toNat + s.diu.remaining.toNat = s.diu.total.toNat

/-- The value loop of the DBR between two steps: the previous value ends where DST_LEN will stand when its suffix is
copied, inside DST; the suffix bytes still to copy are in the page (R49, R163 to R165). -/
structure State.ValuesOk (s : State) : Prop where
  count : s.dbr.nPfx.toNat ≤ s.env.inst.lenCap
  index : s.dbr.idx.toNat ≤ s.dbr.nPfx.toNat
  some_left : s.micro.rawLeft = 0 → s.dbr.idx.toNat < s.dbr.nPfx.toNat
  arena : s.dbr.prevOff.toNat + s.dbr.prevLen.toNat = s.regs.dstLen.toNat + s.micro.rawLeft.toNat
  fits : s.regs.dstLen.toNat + s.micro.rawLeft.toNat ≤ s.env.inst.dstCap
  suffix : s.regs.srcCur.toNat + s.micro.rawLeft.toNat ≤ s.regs.srcLen.toNat

/-- What holds while a command runs, by DSTATE and BSTATE. Every miniblock emits a value (R136), so MB_IDX is at most
EMITTED and never wraps (R119), whatever MAX_BLOCK_SIZE is. -/
def State.BusyOk (s : State) : Prop :=
  s.regs.srcLen.toNat ≤ s.env.inst.srcCap ∧ s.micro.vrCount ≤ 9 ∧
  match s.diu.dstate with
  | .hdr =>
    s.SinkOk ∧ s.diu.emitted = 0 ∧ s.regs.dstLen = 0 ∧ s.micro.rawLeft = 0 ∧ (s.dbr.bstate = .sfx → s.CursorOk)
  | .blk => s.SinkOk ∧ s.BlocksOk ∧ s.CursorOk ∧ s.regs.dstLen = 0 ∧ s.micro.rawLeft = 0
  | .wid =>
    s.SinkOk ∧ s.BlocksOk ∧ s.CursorOk ∧ s.regs.dstLen = 0 ∧ s.micro.rawLeft = 0 ∧
      s.micro.widthIdx < s.diu.mbCount.toNat
  | .pay =>
    s.SinkOk ∧ s.BlocksOk ∧ s.CursorOk ∧ s.regs.dstLen = 0 ∧ s.micro.rawLeft = 0 ∧
      s.diu.mbIdx.toNat < s.diu.mbCount.toNat ∧ s.diu.mbIdx.toNat ≤ s.diu.emitted.toNat
  | .done =>
    s.SinkOk ∧ s.diu.emitted.toNat ≤ s.diu.sinkCap.toNat ∧ s.CursorOk ∧ s.regs.dstLen = 0 ∧ s.micro.rawLeft = 0
  | .idle =>
    match s.dbr.bstate with
    | .cmp =>
      s.dbr.nPfx.toNat ≤ s.env.inst.lenCap ∧ s.CursorOk ∧ s.regs.dstLen = 0 ∧ s.micro.rawLeft = 0
    | .val => s.ValuesOk
    | .done =>
      s.dbr.nPfx.toNat ≤ s.env.inst.lenCap ∧ s.CursorOk ∧ s.regs.dstLen.toNat ≤ s.env.inst.dstCap
    | .idle => False
    | .pfx => False
    | .sfx => False

/-- The invariant of the machine: legal parameters, canonical memories inside their spaces, both state machines idle
unless BUSY, and what each state of a running command promises. -/
structure State.Inv (s : State) : Prop where
  legal : s.env.inst.Legal
  memories : s.MemoriesOk
  quiet : s.Ready → s.diu.dstate = .idle ∧ s.dbr.bstate = .idle
  running : s.isBusy → s.BusyOk

/-- The host has nothing pending, or lets the unit step: the next step is the unit's. -/
def State.unitMoves (s : State) : Bool :=
  match s.env.host with
  | [] => true
  | .tick :: _ => true
  | _ => false

/-- The state in which the machine's next action runs: its oldest host action taken from the list. -/
def State.popHost (s : State) : State := { s with env.host := s.env.host.tail }

/-- `i` is an element of the position the unit stands at (so the unit is BUSY), and well-formed. -/
structure State.At (s : State) (i : Instr) : Prop where
  position : s.position.any i.fits = true
  wellFormed : i.wellFormed = true

/-- The bytes that value number `i` and the values before it take in DST (R50). -/
def arenaEnd (vs : List (List Byte)) (i : Nat) : Nat := (vs.take i).flatten.length

/-- A command left STATE in ERROR with error `e`, and SRC_LEN and SRC as they were (R203). -/
structure EndsInError (s t : State) (e : Err) : Prop where
  status : t.regs.status = .error e
  srcLen : t.regs.srcLen = s.regs.srcLen
  src : t.mem.src = s.mem.src

/-- DEC_I32 or DEC_I64 left the values `vs` and the page `rest` (R92, R93): the result registers, DST below DST_LEN, and
everything else of the host's view as it was. -/
structure EndsInInts (s t : State) (w : Width) (vs : List DWord) (rest : List Byte) : Prop where
  status : t.regs.status = .done
  srcLen : t.regs.srcLen = s.regs.srcLen
  srcCur : t.regs.srcCur.toNat = s.regs.srcCur.toNat + (s.page.length - rest.length)
  outCount : t.regs.outCount.toNat = vs.length
  dstLen : t.regs.dstLen.toNat = w.bytes * vs.length
  values : t.mem.dst.readList .dst 0 (w.bytes * vs.length) = vs.flatMap (leBytes w.bytes)
  above : ∀ a, w.bytes * vs.length ≤ a → t.mem.dst.read .dst a = s.mem.dst.read .dst a
  ofs : t.mem.ofs = s.mem.ofs
  src : t.mem.src = s.mem.src

/-- What an integer command must end in: a function of the page (R139, R7, R27). -/
def IntEnds (w : Width) (s t : State) : Prop :=
  match decodeIntPage s.env.inst w (State.sinkCapOf s.env.inst w .dst) s.page with
  | .ok (vs, rest) => EndsInInts s t w vs rest
  | .error e => EndsInError s t e

/-- DEC_BA left the values `vs` and the page `rest` (R94, R50). -/
structure EndsInStrings (s t : State) (vs : List (List Byte)) (rest : List Byte) : Prop where
  status : t.regs.status = .done
  srcLen : t.regs.srcLen = s.regs.srcLen
  srcCur : t.regs.srcCur.toNat = s.regs.srcCur.toNat + (s.page.length - rest.length)
  outCount : t.regs.outCount.toNat = vs.length
  dstLen : t.regs.dstLen.toNat = vs.flatten.length
  values : t.mem.dst.readList .dst 0 vs.flatten.length = vs.flatten
  above : ∀ a, vs.flatten.length ≤ a → t.mem.dst.read .dst a = s.mem.dst.read .dst a
  offsets : ∀ i, i ≤ vs.length → (t.mem.ofs.read .ofs i).toNat = arenaEnd vs i
  ofsAbove : ∀ i, vs.length < i → t.mem.ofs.read .ofs i = s.mem.ofs.read .ofs i
  src : t.mem.src = s.mem.src

/-- What DEC_BA must end in: a function of the page (R167, R7, R27). -/
def StringsEnd (s t : State) : Prop :=
  match decodeBaPage s.env.inst s.page with
  | .ok d => EndsInStrings s t d.values d.rest
  | .error e => EndsInError s t e

/-- A stream geometry that R132 accepts in a unit: MB_COUNT ≥ 1, MB_SIZE a power of two of at least 8, and the block
size a 64-bit value (R18, R111) of at most MAX_BLOCK_SIZE. -/
def geometryLegal (p : Config.Instance) (mbCount mbSize : Nat) : Prop :=
  1 ≤ mbCount ∧ (∃ k, 3 ≤ k ∧ mbSize = 2 ^ k) ∧ mbCount * mbSize ≤ p.maxBlockSize ∧ mbCount * mbSize < 2 ^ 64

/-- A W-bit value zero-extended to 64 bits. -/
def isWValue (w : Width) (v : DWord) : Prop := v.toNat < 2 ^ w.bits

/-- The number a list of 7-bit groups stands for, least significant group first (R70). -/
def groupSum : List Group → Nat
  | [] => 0
  | g :: gs => g.toNat + 2 ^ 7 * groupSum gs

/-- A byte string read as one little-endian number (R116). -/
def leNat : List Byte → Nat
  | [] => 0
  | b :: bs => b.toNat + 2 ^ 8 * leNat bs

/-- The values `vs` stand at `a` in `k`, and every other entry is as in `m`. -/
structure Wrote {w : Nat} (sp : Space) (a : Nat) (vs : List (BitVec w)) (m k : Memory w) : Prop where
  inside : k.readList sp a vs.length = vs
  outside : ∀ b, b < a ∨ a + vs.length ≤ b → k.read sp b = m.read sp b

/-- What Emit (R118) over `vs`, from `s` on, leaves in `t`: the values in the sink at EMITTED, in DST little-endian, and
EMITTED past them; no other memory and no other entry changed. -/
structure SinkGets (s t : State) (vs : List DWord) : Prop where
  emitted : t.diu.emitted.toNat = s.diu.emitted.toNat + vs.length
  sink :
    match s.diu.sink with
    | .dst =>
      Wrote .dst (s.diu.emitted.toNat * s.diu.wSel.bytes) (vs.flatMap (leBytes s.diu.wSel.bytes)) s.mem.dst t.mem.dst ∧
        t.dbr.pfx = s.dbr.pfx ∧ t.dbr.sfx = s.dbr.sfx
    | .pfx =>
      Wrote .pfx s.diu.emitted.toNat (vs.map fun v => v.setWidth 32) s.dbr.pfx t.dbr.pfx ∧
        t.mem.dst = s.mem.dst ∧ t.dbr.sfx = s.dbr.sfx
    | .sfx =>
      Wrote .sfx s.diu.emitted.toNat (vs.map fun v => v.setWidth 32) s.dbr.sfx t.dbr.sfx ∧
        t.mem.dst = s.mem.dst ∧ t.dbr.pfx = s.dbr.pfx
  src : t.mem.src = s.mem.src
  ofs : t.mem.ofs = s.mem.ofs

/-- Checks 1 to 5 of R132 all pass: MB_COUNT miniblocks, each of a power of two of at least 8 values. -/
def headerFormat (b m t : DWord) : Prop :=
  0 < m.toNat ∧ (∃ k, 3 ≤ k ∧ b.toNat = m.toNat * 2 ^ k) ∧ t.toNat ≤ 2 ^ 31 - 1

/-- Checks 6 and 7 of R132 both pass. -/
def headerFits (p : Config.Instance) (sinkCap : Nat) (b t : DWord) : Prop :=
  b.toNat ≤ p.maxBlockSize ∧ t.toNat ≤ sinkCap

/-- R133 after R132 has passed: `s` is the state with the four fields read into their registers, `first` the W-bit first
value. -/
structure HeaderEnds (s : State) (first : DWord) (u : State) : Prop where
  regs : u.regs = s.regs
  diu : u.diu = { s.diu with
    mbSize := s.diu.blockSize / s.diu.mbCount
    run := if s.diu.total = 0 then s.diu.run else first
    remaining := if s.diu.total = 0 then s.diu.remaining else (s.diu.total - 1).setWidth 32
    emitted := if s.diu.total = 0 then s.diu.emitted else s.diu.emitted + 1
    dstate := if s.diu.total.toNat ≤ 1 then .done else .blk }
  sink : SinkGets s u (if s.diu.total = 0 then [] else [first])
  dbr : u.dbr = { s.dbr with pfx := u.dbr.pfx, sfx := u.dbr.sfx }
  micro : u.micro = s.micro
  env : u.env = s.env

/-- Whether `i` is read whole at `pos` when the bytes `rest` follow its own: a page and a cut-off payload end where the
page ends, every other element marks its own end. -/
def endsBefore : Instr → Pos → List Byte → Bool
  | .mb bs, .mb n, rest => bs.length == n || rest.isEmpty
  | .pageInt _, _, rest => rest.isEmpty
  | .pageBa _, _, rest => rest.isEmpty
  | _, _, _ => true

/-- `n` steps of the machine, if each answers a next state. -/
def runSteps : Nat → State → Option State
  | 0, s => some s
  | n + 1, s =>
    match step s with
    | .next t => runSteps n t
    | .fault _ => none
    | .refused _ => none

/-- The host writes `w` to CMD and then leaves the unit alone until it is not BUSY: `t`. -/
def Ends (w : Word) (s t : State) : Prop :=
  ∃ n, runSteps (n + 1) { s with env.host := [.writeReg offCmd w] } = some t ∧ t.Ready

/-- A state in which the host may issue a command on a page that fits the unit (R90, R223). -/
structure State.MayIssue (s : State) : Prop where
  inv : s.Inv
  ready : s.Ready
  fits : s.regs.srcLen.toNat ≤ s.env.inst.srcCap

/-- The command word of an integer decode (R62). -/
def intCommand : Width → Word
  | .w32 => 1
  | .w64 => 2

end Sys2Proof.Machine
end

