-- ==== Sys2Proof/Certificates/Slice0/Obligations.lean ====
section
/-! DEFINITION. The statements about the DDU, for the provers. Each docstring names the rules of spec/ it follows. -/

open Sys2Proof Sys2Proof.Machine

/-! ### Encoding (30_encoding.md) -/

/-- R60 to R71: decoding an encoded well-formed instruction gives it back, and the bytes after it. -/
def Obligations.DecodeEncode : Prop :=
  (∀ (i : Instr) (w : Word), i.wellFormed = true → encode i = .word w → decodeCommand w = i) ∧
  ∀ (i : Instr) (pos : Pos) (bs rest : List Byte), i.wellFormed = true → i.fits pos = true →
    endsBefore i pos rest = true → encode i = .bytes bs → decodeElement pos (bs ++ rest) = .ok (i, rest)

/-- R60 to R71: what the decoder answers is well-formed, fits the position, and is encoded in the bytes it was read
from; every word is a command's. -/
def Obligations.EncodeDecode : Prop :=
  (∀ w, (decodeCommand w).wellFormed = true ∧ encode (decodeCommand w) = .word w) ∧
  ∀ (pos : Pos) (bs rest : List Byte) (i : Instr), bs.length < 2 ^ 32 → decodeElement pos bs = .ok (i, rest) →
    i.wellFormed = true ∧ i.fits pos = true ∧ ∃ own, encode i = .bytes own ∧ bs = own ++ rest

/-- R62, R66, R70, R111, R165: words written out from the spec's encodings, with the instructions they stand for. -/
def Obligations.SampleWords : Prop :=
  decodeCommand 0b00000000000000000000000000000010 = .decI64 ∧
  decodeCommand 0b00000000000000000000000100000001 = .illegal 0x101 ∧
  decodeElement (.varintByte 0) [0b11100101] = .ok (.varintCont 0b1100101, []) ∧
  decodeElement (.varintByte 8) [0b00100110] = .ok (.varintLast 0b0100110, []) ∧
  decodeElement (.varintByte 9) [0b00000001] = .ok (.varintLast10 0b1, []) ∧
  decodeElement .uvarint [0b11100101, 0b10001110, 0b00100110, 0b11111111] =
    .ok (.uvarint { conts := [0b1100101, 0b0001110], last := 0b0100110 }, [0b11111111]) ∧
  decodeElement .blkWidth [0b00000011] = .ok (.blkWidth 3, []) ∧
  decodeElement (.mb 3) [0b11000011, 0b00000001, 0b00000000, 0b11101110] = .ok (.mb [0xC3, 0x01, 0x00], [0xEE]) ∧
  decodeElement .raw [0b01110100] = .ok (.raw 0x74, [])

/-- R62: each of the four words of the opcode map selects its command, and no other word selects one. -/
def Obligations.OpcodeMap : Prop :=
  ∀ w : Word,
    (decodeCommand w = .clr ↔ w &&& 0xFFFFFFFF = 0x00000000) ∧
    (decodeCommand w = .decI32 ↔ w &&& 0xFFFFFFFF = 0x00000001) ∧
    (decodeCommand w = .decI64 ↔ w &&& 0xFFFFFFFF = 0x00000002) ∧
    (decodeCommand w = .decBa ↔ w &&& 0xFFFFFFFF = 0x00000003) ∧
    (∀ u, decodeCommand w = .illegal u ↔ u = w ∧ 3 < w.toNat)

/-- R70: the bytes of a varint that is read, their continuation flags, the value they sum to, and the 10-byte limit. -/
def Obligations.VarintFormat : Prop :=
  ∀ (bs rest : List Byte) (v : Varint), parseVarint 0 bs = .ok (v, rest) →
    v.size ≤ 10 ∧ bs.drop v.size = rest ∧ v.size ≤ bs.length ∧
    (∀ k, k + 1 < v.size → continues (bs.getD k 0) = true) ∧ continues (bs.getD (v.size - 1) 0) = false ∧
    v.value.toNat = groupSum ((bs.take v.size).map groupOf) ∧
    (v.size = 10 → bs.getD 9 0 = 0x00 ∨ bs.getD 9 0 = 0x01)

/-- R111, R201: the 64-bit value of an unsigned varint, what is left of the page, and the two errors, byte by byte, the
end of the page before the overflow at the same byte. -/
def Obligations.ReadVarint : Prop :=
  ∀ bs : List Byte,
    (∀ u rest, readUvarint bs = .ok (u, rest) → ∃ n, 1 ≤ n ∧ n ≤ 10 ∧ n ≤ bs.length ∧ rest = bs.drop n ∧
      (∀ k, k + 1 < n → continues (bs.getD k 0) = true) ∧ continues (bs.getD (n - 1) 0) = false ∧
      u.toNat = groupSum ((bs.take n).map groupOf)) ∧
    (readUvarint bs = .error .unexpectedEOF ↔ bs.length < 10 ∧ ∀ b ∈ bs, continues b = true) ∧
    (readUvarint bs = .error .malformedHeader ↔
      10 ≤ bs.length ∧ (∀ b ∈ bs.take 9, continues b = true) ∧ 1 < (bs.getD 9 0).toNat) ∧
    (∀ e, readUvarint bs = .error e → e = .unexpectedEOF ∨ e = .malformedHeader)

/-! ### The host's port (10_state.md, 70_reset_and_hazards.md) -/

/-- R10 to R16, R191, R207: what a read of each offset of the register map returns. STATUS: STATE in bits 1:0, ERR in
bits 11:8, the reserved bits 0, ERR nonzero exactly in ERROR, and the `done` wire. CMD and undecoded offsets read 0;
SRC_CUR, OUT_COUNT and DST_LEN read so while not BUSY. -/
def Obligations.RegisterReads : Prop :=
  ∀ (s : State) (off : Word), ∃ t, hostStep (.readReg off) s = .next t ∧
    (off = 0x04 →
      t.env.rdata.extractLsb' 0 2 = (match s.regs.status with | .idle => 0 | .busy => 1 | .done => 2 | .error _ => 3) ∧
      t.env.rdata.extractLsb' 2 6 = 0 ∧ t.env.rdata.extractLsb' 12 20 = 0 ∧
      t.env.rdata.extractLsb' 8 4 = (match s.regs.status with
        | .idle => 0
        | .busy => 0
        | .done => 0
        | .error .malformedHeader => 1
        | .error .invalidBitWidth => 2
        | .error .unexpectedEOF => 3
        | .error .lengthMismatch => 4
        | .error .negativeLength => 5
        | .error .prefixOutOfBounds => 6
        | .error .valueOutOfBounds => 7
        | .error .capacityExceeded => 8
        | .error .illegalCommand => 9) ∧
      (t.env.rdata.extractLsb' 8 4 ≠ 0 ↔ t.env.rdata.extractLsb' 0 2 = 3) ∧
      (s.regs.status.doneWire = true ↔ t.env.rdata.extractLsb' 0 2 = 2 ∨ t.env.rdata.extractLsb' 0 2 = 3)) ∧
    (off = 0x00 → t.env.rdata = 0) ∧ (off = 0x08 → t.env.rdata = s.regs.srcLen) ∧
    (s.Ready → off = 0x0C → t.env.rdata = s.regs.srcCur) ∧
    (s.Ready → off = 0x10 → t.env.rdata = s.regs.outCount) ∧
    (s.Ready → off = 0x14 → t.env.rdata = s.regs.dstLen) ∧
    (0x18 ≤ off.toNat → t.env.rdata = 0)

/-- R17, R10, R13, R14, R96: a read changes nothing but the value it returns (log 3) and the model's counter of free values
(log 10); a write to a read-only register, a reserved field or an undecoded offset is ignored, and so is every write to
SRC_LEN, SRC_CUR or CMD while BUSY; while not BUSY a write to SRC_LEN or SRC_CUR sets that register and nothing else. That
a misaligned offset below 0x18 is ignored like an undecoded one is the model's choice (log 15). -/
def Obligations.HostAccessRule : Prop :=
  (∀ (s : State) (off : Word), ∃ t, hostStep (.readReg off) s = .next t ∧
    t = { s with env.rdata := t.env.rdata, env.free := t.env.free }) ∧
  (∀ (s : State) (off value : Word), off ≠ 0x00 → off ≠ 0x08 → off ≠ 0x0C →
    hostStep (.writeReg off value) s = .next s) ∧
  (∀ (s : State) (value : Word), s.isBusy →
    hostStep (.writeReg 0x08 value) s = .next s ∧ hostStep (.writeReg 0x0C value) s = .next s ∧
    hostStep (.writeReg 0x00 value) s = .next s) ∧
  (∀ (s : State) (value : Word), s.Ready →
    hostStep (.writeReg 0x08 value) s = .next { s with regs.srcLen := value } ∧
    hostStep (.writeReg 0x0C value) s = .next { s with regs.srcCur := value })

/-- R40, R224, U4: the host's accesses to SRC, DST and OFS. While BUSY they are refused (log 12); at an address that
does not exist they fault (log 14); else a byte written to SRC is the only thing that changes, and a read returns the
entry. -/
def Obligations.HostMemoryAccess : Prop :=
  (∀ (s : State) (a : Word) (b : Byte), s.isBusy →
    hostStep (.writeSrc a b) s = .refused .hostAccessWhileBusy ∧
    hostStep (.readSrc a) s = .refused .hostAccessWhileBusy ∧
    hostStep (.readDst a) s = .refused .hostAccessWhileBusy ∧
    hostStep (.readOfs a) s = .refused .hostAccessWhileBusy) ∧
  (∀ (s : State) (a : Word) (b : Byte), s.Ready →
    (a.toNat < s.env.inst.srcCap → ∃ t, hostStep (.writeSrc a b) s = .next t ∧
      t = { s with mem.src := t.mem.src } ∧ Wrote .src a.toNat [b] s.mem.src t.mem.src) ∧
    (a.toNat < s.env.inst.srcCap → ∃ t, hostStep (.readSrc a) s = .next t ∧
      t = { s with env.rdata := (s.mem.src.read .src a.toNat).setWidth 32 }) ∧
    (a.toNat < s.env.inst.dstCap → ∃ t, hostStep (.readDst a) s = .next t ∧
      t = { s with env.rdata := (s.mem.dst.read .dst a.toNat).setWidth 32 }) ∧
    (a.toNat ≤ s.env.inst.lenCap → ∃ t, hostStep (.readOfs a) s = .next t ∧
      t = { s with env.rdata := s.mem.ofs.read .ofs a.toNat }) ∧
    (s.env.inst.srcCap ≤ a.toNat → hostStep (.writeSrc a b) s = .fault (.outsideSpace .src) ∧
      hostStep (.readSrc a) s = .fault (.outsideSpace .src)) ∧
    (s.env.inst.dstCap ≤ a.toNat → hostStep (.readDst a) s = .fault (.outsideSpace .dst)) ∧
    (s.env.inst.lenCap < a.toNat → hostStep (.readOfs a) s = .fault (.outsideSpace .ofs)))

/-- R26, R220: the values the spec gives for reset. -/
def Obligations.ResetValues : Prop :=
  State.reset.regs.status = .idle ∧ State.reset.regs.status.word = 0 ∧ State.reset.regs.srcLen = 0 ∧
  State.reset.regs.srcCur = 0 ∧ State.reset.regs.outCount = 0 ∧ State.reset.regs.dstLen = 0 ∧
  State.reset.diu.dstate = .idle ∧ State.reset.dbr.bstate = .idle

/-- R220, R221: `rst` in any state, BUSY or not: the values of R26, no error recorded; the parameters of the unit stay
(R25). Every memory is of a new generation with nothing listed, so that it reads as free values (the model's form of
"unspecified", log 6); the host's list, the grain and the last read value, which are the model's own, stay (log 11). -/
def Obligations.ResetInput : Prop :=
  ∀ s : State, ∃ t, hostStep .rst s = .next t ∧ t.regs = State.reset.regs ∧ t.diu.dstate = .idle ∧
    t.dbr.bstate = .idle ∧ t.mem.src.cells = [] ∧ t.mem.dst.cells = [] ∧ t.mem.ofs.cells = [] ∧
    t.dbr.pfx.cells = [] ∧ t.dbr.sfx.cells = [] ∧ t.diu.widths.cells = [] ∧
    t.mem.src.gen = s.env.free + 1 ∧ t.mem.dst.gen = s.env.free + 1 ∧ t.mem.ofs.gen = s.env.free + 1 ∧
    t.dbr.pfx.gen = s.env.free + 1 ∧ t.dbr.sfx.gen = s.env.free + 1 ∧ t.diu.widths.gen = s.env.free + 1 ∧
    t.env.inst = s.env.inst ∧ t.env.host = s.env.host ∧ t.env.grain = s.env.grain ∧ t.env.rdata = s.env.rdata

/-! ### The commands (40_commands.md) -/

/-- R91, with R96: CLR sets STATE to IDLE and ERR to 0 and changes nothing else; while BUSY it is ignored. -/
def Obligations.ClrResult : Prop :=
  ∀ s : State,
    (s.Ready → exec .clr s = .next { s with regs.status := .idle }) ∧ (s.isBusy → exec .clr s = .next s)

/-- R95: every word that R62 does not list, written to CMD while not BUSY, ends in ERROR with IllegalCommand and changes
nothing else. -/
def Obligations.IllegalCommandResult : Prop :=
  ∀ (s : State) (w : Word), s.Ready → w ≠ 0 → w ≠ 1 → w ≠ 2 → w ≠ 3 →
    exec (.illegal w) s = .next { s with regs.status := .error .illegalCommand } ∧
    hostStep (.writeReg offCmd w) s = .next { s with regs.status := .error .illegalCommand }

/-- R90, R92, R93, R94, R161, R199: a decode command on a page that fits SRC starts the unit: STATE BUSY, OUT_COUNT and
DST_LEN 0, W_SEL, SINK and SINK_CAP of the run, D_HDR, and nothing of R10 else changed but EMITTED and PREV_LEN, which
R27 lists as 0 and the model writes here (log 26); SRC_LEN and SRC_CUR as the host left them. The model's own `micro`
fields stand at the start of a rule (log 18). With SRC_LEN above SRC_CAP the command ends at once in
CapacityExceeded. -/
def Obligations.DecodeCommandsIssue : Prop :=
  (∀ s : State, s.Ready → s.regs.srcLen.toNat ≤ s.env.inst.srcCap →
    exec .decI32 s = .next { s with
      regs := { status := .busy, srcLen := s.regs.srcLen, srcCur := s.regs.srcCur, outCount := 0, dstLen := 0 }
      diu := { s.diu with
        wSel := .w32, sink := .dst, sinkCap := BitVec.ofNat 32 (s.env.inst.dstCap / 4), emitted := 0, dstate := .hdr }
      dbr := { s.dbr with bstate := .idle, prevLen := 0 }
      micro := Micro.reset } ∧
    exec .decI64 s = .next { s with
      regs := { status := .busy, srcLen := s.regs.srcLen, srcCur := s.regs.srcCur, outCount := 0, dstLen := 0 }
      diu := { s.diu with
        wSel := .w64, sink := .dst, sinkCap := BitVec.ofNat 32 (s.env.inst.dstCap / 8), emitted := 0, dstate := .hdr }
      dbr := { s.dbr with bstate := .idle, prevLen := 0 }
      micro := Micro.reset } ∧
    exec .decBa s = .next { s with
      regs := { status := .busy, srcLen := s.regs.srcLen, srcCur := s.regs.srcCur, outCount := 0, dstLen := 0 }
      diu := { s.diu with
        wSel := .w32, sink := .pfx, sinkCap := BitVec.ofNat 32 s.env.inst.lenCap, emitted := 0, dstate := .hdr }
      dbr := { s.dbr with bstate := .pfx, prevLen := 0 }
      micro := Micro.reset }) ∧
  ∀ (s : State) (i : Instr), s.Ready → s.env.inst.srcCap < s.regs.srcLen.toNat →
    i = .decI32 ∨ i = .decI64 ∨ i = .decBa →
    ∃ t, exec i s = .next t ∧ t.regs.status = .error .capacityExceeded ∧ t.regs.srcLen = s.regs.srcLen ∧
      t.mem.src = s.mem.src ∧ t.diu.dstate = .idle ∧ t.dbr.bstate = .idle ∧ t.env.inst = s.env.inst

/-! ### The primitives (41_stream_primitives.md) -/

/-- R112, R71: the zig-zag map on signed numbers, a bijection. -/
def Obligations.ZigZagMap : Prop :=
  (∀ (u : DWord) (k : Nat), u.toNat = 2 * k → (zigZag64 u).toInt = k) ∧
  (∀ (u : DWord) (k : Nat), u.toNat = 2 * k + 1 → (zigZag64 u).toInt = -((k : Int) + 1)) ∧
  Function.Bijective zigZag64

/-- R116: field `j` of width `w` is bits j*w .. j*w + w - 1 of the payload read as one little-endian number. -/
def Obligations.UnpackField : Prop :=
  ∀ (payload : List Byte) (j w : Nat), w ≤ 64 → (j + 1) * w ≤ 8 * payload.length →
    (unpack payload j w).toNat = leNat payload / 2 ^ (j * w) % 2 ^ w ∧
    ∀ t, t < w → (unpack payload j w).getLsbD t = (payload.getD ((j * w + t) / 8) 0).getLsbD ((j * w + t) % 8)

/-- R117: value `i` of a miniblock is RUN plus the deltas MIN_DELTA + u_0 .. MIN_DELTA + u_i, modulo 2^W, and RUN ends
as the last value. -/
def Obligations.AccumulatedValues : Prop :=
  ∀ (w : Width) (m run : DWord) (us : List DWord) (i : Nat), i < us.length →
    ((accumulateAll w m run us).getD i 0).toNat =
      (run.toNat + ((us.take (i + 1)).map fun u => m.toNat + u.toNat).sum) % 2 ^ w.bits ∧
    lastRun run (accumulateAll w m run us) = (accumulateAll w m run us).getD (us.length - 1) 0

/-- R118, R42: while the sink has room Emit stores one value, little-endian in DST, and advances EMITTED; nothing else
changes. The bytes it stores are the value's. -/
def Obligations.EmitOne : Prop :=
  (∀ (w : Width) (v : DWord), leNat (leBytes w.bytes v) = v.toNat % 2 ^ w.bits) ∧
  ∀ (s : State) (v : DWord), s.env.inst.Legal →
    s.diu.emitted.toNat < State.sinkCapOf s.env.inst s.diu.wSel s.diu.sink →
    ∃ t, s.emit v = some t ∧ SinkGets s t [v] ∧
      t = { s with
        mem.dst := t.mem.dst, dbr.pfx := t.dbr.pfx, dbr.sfx := t.dbr.sfx, diu.emitted := s.diu.emitted + 1 }

/-! ### The stream elements (42_int_delta.md) -/

/-- R132 (with R131): the seven checks of the header. A header whose format fails is MalformedHeader, one that only
exceeds this unit's limits is CapacityExceeded, and one that passes is not rejected: MB_SIZE is the quotient. -/
def Obligations.HeaderValidated : Prop :=
  ∀ (s : State) (b m t f : Varint), s.Inv → s.At (.hdr b m t f) →
    ∃ u, exec (.hdr b m t f) s = .next u ∧
      (¬ headerFormat b.value m.value t.value → u.regs.status = .error .malformedHeader) ∧
      (headerFormat b.value m.value t.value →
        ¬ headerFits s.env.inst s.diu.sinkCap.toNat b.value t.value → u.regs.status = .error .capacityExceeded) ∧
      (headerFormat b.value m.value t.value → headerFits s.env.inst s.diu.sinkCap.toNat b.value t.value →
        u.regs.status = .busy ∧ u.diu.mbSize.toNat = b.value.toNat / m.value.toNat)

/-- R131, R133: .hdr on a header that passes: the fields in their registers, the first value emitted unless TOTAL is 0,
REMAINING = TOTAL - 1, D_DONE or D_BLK, the cursor past the four fields. -/
def Obligations.HeaderAccepted : Prop :=
  ∀ (s : State) (b m t f : Varint), s.Inv → s.At (.hdr b m t f) → headerFormat b.value m.value t.value →
    headerFits s.env.inst s.diu.sinkCap.toNat b.value t.value →
    ∃ u, exec (.hdr b m t f) s = .next u ∧
      HeaderEnds
        { s with
          regs.srcCur := s.regs.srcCur + BitVec.ofNat 32 (b.size + m.size + t.size + f.size)
          diu.emitted := 0
          diu.blockSize := b.value
          diu.mbCount := m.value
          diu.total := t.value }
        (zzValue s.diu.wSel f.value) u

/-- R111, one turn of its loop: a non-final varint byte adds its group at 7 times its number and moves the cursor one
byte; nothing else changes. -/
def Obligations.VarintContResult : Prop :=
  ∀ (s : State) (g : Group), s.At (.varintCont g) →
    exec (.varintCont g) s = .next { s with
      regs.srcCur := s.regs.srcCur + 1
      micro.vrCount := s.micro.vrCount + 1
      micro.vrValue := s.micro.vrValue ||| (g.setWidth 64 <<< (7 * s.micro.vrCount)) }

/-- R131: the first three header fields, read whole by UVARINT, or completed by the final byte of a varint in byte
positions 1 to 9 (VARINT.LAST) or 10 (VARINT.LAST10): the value goes to its register and the next field is next. -/
def Obligations.HeaderFields : Prop :=
  ∀ (s : State) (i : Instr) (u : DWord) (n : Nat), s.At i → s.diu.dstate = .hdr →
    (∃ v : Varint, i = .uvarint v ∧ u = v.value ∧ n = v.size) ∨
    (∃ g, i = .varintLast g ∧ u = (s.micro.vrValue ||| (g.setWidth 64 <<< (7 * s.micro.vrCount))) ∧ n = 1) ∨
    (∃ v, i = .varintLast10 v ∧ u = (s.micro.vrValue ||| (v.setWidth 64 <<< 63)) ∧ n = 1) →
    s.micro.hdrField ≠ .first →
    ∃ t, exec i s = .next t ∧
      t.regs = { s.regs with srcCur := s.regs.srcCur + BitVec.ofNat 32 n } ∧
      t.mem = s.mem ∧ t.dbr = s.dbr ∧ t.env = s.env ∧
      t.diu = (match s.micro.hdrField with
        | .blockSize => { s.diu with blockSize := u }
        | .mbCount => { s.diu with mbCount := u }
        | .total => { s.diu with total := u }
        | .first => s.diu) ∧
      t.micro.hdrField = (match s.micro.hdrField with
        | .blockSize => .mbCount
        | .mbCount => .total
        | .total => .first
        | .first => .first)

/-- R131 to R133: the first value, read whole by ZZVARINT or completed by its final byte, completes a header whose
registers pass the checks of R132, as R133 says; a header that does not pass raises. -/
def Obligations.FirstValue : Prop :=
  ∀ (s : State) (i : Instr) (u : DWord) (n : Nat), s.Inv → s.At i → s.diu.dstate = .hdr →
    s.micro.hdrField = .first →
    (∃ v : Varint, i = .zzvarint v ∧ u = v.value ∧ n = v.size) ∨
    (∃ g, i = .varintLast g ∧ u = (s.micro.vrValue ||| (g.setWidth 64 <<< (7 * s.micro.vrCount))) ∧ n = 1) ∨
    (∃ v, i = .varintLast10 v ∧ u = (s.micro.vrValue ||| (v.setWidth 64 <<< 63)) ∧ n = 1) →
    ∃ t, exec i s = .next t ∧
      (headerFormat s.diu.blockSize s.diu.mbCount s.diu.total →
        headerFits s.env.inst s.diu.sinkCap.toNat s.diu.blockSize s.diu.total →
        ∃ micro, HeaderEnds
          { s with regs.srcCur := s.regs.srcCur + BitVec.ofNat 32 n, micro := micro } (zzValue s.diu.wSel u) t) ∧
      (headerFormat s.diu.blockSize s.diu.mbCount s.diu.total →
        ¬ headerFits s.env.inst s.diu.sinkCap.toNat s.diu.blockSize s.diu.total →
        t.regs.status = .error .capacityExceeded) ∧
      (¬ headerFormat s.diu.blockSize s.diu.mbCount s.diu.total → t.regs.status = .error .malformedHeader)

/-- R134: the min delta, trunc_W of the zig-zag value, read whole or completed by its final byte; then D_WID. -/
def Obligations.BlockMinDelta : Prop :=
  ∀ (s : State) (i : Instr) (u : DWord) (n : Nat), s.At i → s.diu.dstate = .blk →
    (∃ v : Varint, i = .blkMin v ∧ u = v.value ∧ n = v.size) ∨
    (∃ g, i = .varintLast g ∧ u = (s.micro.vrValue ||| (g.setWidth 64 <<< (7 * s.micro.vrCount))) ∧ n = 1) ∨
    (∃ v, i = .varintLast10 v ∧ u = (s.micro.vrValue ||| (v.setWidth 64 <<< 63)) ∧ n = 1) →
    ∃ t, exec i s = .next t ∧
      t.regs = { s.regs with srcCur := s.regs.srcCur + BitVec.ofNat 32 n } ∧
      t.mem = s.mem ∧ t.dbr = s.dbr ∧ t.env = s.env ∧ t.micro.widthIdx = 0 ∧
      t.diu = { s.diu with minDelta := zzValue s.diu.wSel u, dstate := .wid } ∧
      t.diu.minDelta.toNat = (zigZag64 u).toNat % 2 ^ s.diu.wSel.bits

/-- R114, R135: a width byte goes to WIDTHS[m] whatever it is; after the last of MB_COUNT, MB_IDX <- 0 and D_PAY. -/
def Obligations.WidthByte : Prop :=
  ∀ (s : State) (w : Byte), s.Inv → s.At (.blkWidth w) →
    ∃ t, exec (.blkWidth w) s = .next t ∧
      t.regs = { s.regs with srcCur := s.regs.srcCur + 1 } ∧ t.mem = s.mem ∧ t.dbr = s.dbr ∧ t.env = s.env ∧
      Wrote .widths s.micro.widthIdx [w] s.diu.widths t.diu.widths ∧
      (s.micro.widthIdx + 1 = s.diu.mbCount.toNat →
        t.diu = { s.diu with widths := t.diu.widths, mbIdx := 0, dstate := .pay }) ∧
      (s.micro.widthIdx + 1 ≠ s.diu.mbCount.toNat →
        t.diu = { s.diu with widths := t.diu.widths } ∧ t.micro.widthIdx = s.micro.widthIdx + 1)

/-- R136, its two checks in their order: the width above W, then the payload beyond the page. -/
def Obligations.MiniblockErrors : Prop :=
  ∀ (s : State) (payload : List Byte), s.At (.mb payload) →
    (s.diu.wSel.bits < s.mbWidth → ∃ t, exec (.mb payload) s = .next t ∧ t.regs.status = .error .invalidBitWidth) ∧
    (s.mbWidth ≤ s.diu.wSel.bits →
      s.regs.srcLen.toNat < s.regs.srcCur.toNat + s.diu.mbSize.toNat * s.mbWidth / 8 →
      ∃ t, exec (.mb payload) s = .next t ∧ t.regs.status = .error .unexpectedEOF)

/-- R136, R137: a whole payload in the page, with a legal width: min(MB_SIZE, REMAINING) fields unpacked (R116),
accumulated (R117) and emitted (R118), the cursor past the whole payload, the counters moved and the next state as R137
orders them. -/
def Obligations.MiniblockResult : Prop :=
  ∀ (s : State) (payload : List Byte), s.Inv → s.At (.mb payload) → s.mbWidth ≤ s.diu.wSel.bits →
    payload.length = s.diu.mbSize.toNat * s.mbWidth / 8 →
    s.regs.srcCur.toNat + payload.length ≤ s.regs.srcLen.toNat →
    ∃ t, exec (.mb payload) s = .next t ∧
      (let k := min s.diu.mbSize.toNat s.diu.remaining.toNat
       let us := (List.range k).map fun j => unpack payload j s.mbWidth
       let vs := accumulateAll s.diu.wSel s.diu.minDelta s.diu.run us
       SinkGets s t vs ∧
       t.regs = { s.regs with srcCur := s.regs.srcCur + BitVec.ofNat 32 payload.length } ∧
       t.diu.run = vs.getLastD s.diu.run ∧ t.diu.remaining.toNat = s.diu.remaining.toNat - k ∧
       t.diu.mbIdx.toNat = s.diu.mbIdx.toNat + 1 ∧
       t.diu.dstate = (if t.diu.remaining.toNat = 0 then .done
         else if t.diu.mbIdx.toNat = s.diu.mbCount.toNat then .blk else .pay) ∧
       t.diu = { s.diu with
         run := t.diu.run, remaining := t.diu.remaining, mbIdx := t.diu.mbIdx, dstate := t.diu.dstate
         emitted := t.diu.emitted } ∧
       t.dbr = { s.dbr with pfx := t.dbr.pfx, sfx := t.dbr.sfx } ∧ t.micro = s.micro ∧ t.env = s.env)

/-- R142: a miniblock of width 0 reads no byte, and value number `i` of it is RUN + (i + 1) * MIN_DELTA modulo 2^W. -/
def Obligations.WidthZeroRun : Prop :=
  ∀ s : State, s.Inv → s.At (.mb []) → s.mbWidth = 0 →
    ∃ t vs, exec (.mb []) s = .next t ∧ SinkGets s t vs ∧ t.regs.srcCur = s.regs.srcCur ∧
      vs.length = min s.diu.mbSize.toNat s.diu.remaining.toNat ∧
      ∀ i, i < vs.length →
        (vs.getD i 0).toNat = (s.diu.run.toNat + (i + 1) * s.diu.minDelta.toNat) % 2 ^ s.diu.wSel.bits

/-- R165, one byte of its second copy: .raw appends the byte to DST and moves both cursors; the last byte of a suffix
ends the value. -/
def Obligations.RawByte : Prop :=
  ∀ (s : State) (b : Byte), s.Inv → s.At (.raw b) →
    ∃ t, exec (.raw b) s = .next t ∧ Wrote .dst s.regs.dstLen.toNat [b] s.mem.dst t.mem.dst ∧
      t.mem.src = s.mem.src ∧ t.mem.ofs = s.mem.ofs ∧ t.diu = s.diu ∧ t.env = s.env ∧
      t.regs = { s.regs with srcCur := s.regs.srcCur + 1, dstLen := s.regs.dstLen + 1 } ∧
      t.regs.dstLen.toNat = s.regs.dstLen.toNat + 1 ∧
      t.micro.rawLeft.toNat = s.micro.rawLeft.toNat - 1 ∧
      t.dbr = { s.dbr with
        bstate := if s.micro.rawLeft = 1 then (if s.dbr.idx = s.dbr.nPfx then .done else .val) else .val }

/-- R139 as one operation: .page.int over the page puts the values of DecodeInt into the sink, the cursor past the
stream, the run in D_DONE; the first error of DecodeInt is raised. That the header and counter registers of the DIU are not
written is the model's choice (log 9). -/
def Obligations.IntPageResult : Prop :=
  ∀ (s : State) (page : List Byte), s.Inv → s.At (.pageInt page) →
    page.length ≤ s.regs.srcLen.toNat - s.regs.srcCur.toNat →
    ∃ t, exec (.pageInt page) s = .next t ∧
      match decodeIntPage s.env.inst s.diu.wSel s.diu.sinkCap.toNat page with
      | .error e => t.regs.status = .error e
      | .ok (vs, rest) =>
        SinkGets s t vs ∧
        t.regs = { s.regs with srcCur := s.regs.srcCur + BitVec.ofNat 32 (page.length - rest.length) } ∧
        t.diu = { s.diu with emitted := t.diu.emitted, dstate := .done } ∧
        t.dbr = { s.dbr with pfx := t.dbr.pfx, sfx := t.dbr.sfx } ∧ t.micro = s.micro ∧ t.env = s.env

/-- R167 as one operation: .page.ba over the page puts the values of DecodeByteArray back to back into DST, their starts
into OFS, the lengths into PFX and SFX, and leaves the DBR in B_DONE; the first error is raised. That no register of the
DIU but DSTATE is written is the model's choice (log 9): R18 gives them no value outside a run. -/
def Obligations.ByteArrayPageResult : Prop :=
  ∀ (s : State) (page : List Byte), s.Inv → s.At (.pageBa page) →
    page.length ≤ s.regs.srcLen.toNat - s.regs.srcCur.toNat →
    ∃ t, exec (.pageBa page) s = .next t ∧
      match decodeBaPage s.env.inst page with
      | .error e => t.regs.status = .error e
      | .ok d =>
        Wrote .dst 0 d.values.flatten s.mem.dst t.mem.dst ∧
        Wrote .ofs 0 (offsetsFrom 0 d.values) s.mem.ofs t.mem.ofs ∧
        (∀ i, i < d.values.length → ((offsetsFrom 0 d.values).getD i 0).toNat = arenaEnd d.values i) ∧
        Wrote .pfx 0 d.prefixes s.dbr.pfx t.dbr.pfx ∧ Wrote .sfx 0 d.suffixes s.dbr.sfx t.dbr.sfx ∧
        t.mem.src = s.mem.src ∧ t.regs.status = .busy ∧ t.regs.srcLen = s.regs.srcLen ∧
        t.regs.outCount = s.regs.outCount ∧
        t.regs.srcCur = s.regs.srcCur + BitVec.ofNat 32 (page.length - d.rest.length) ∧
        t.regs.dstLen.toNat = d.values.flatten.length ∧ t.dbr.nPfx.toNat = d.values.length ∧
        t.dbr.bstate = .done ∧ t.diu = { s.diu with dstate := .idle } ∧ t.micro = s.micro ∧ t.env = s.env

/-- R60: a stream element has no meaning but where the unit expects it. The refusal is the model's choice (log 16). -/
def Obligations.ElementOutOfPlace : Prop :=
  ∀ (s : State) (i : Instr) (bs : List Byte), encode i = .bytes bs → ¬ s.At i →
    exec i s = .refused .elementOutOfPlace

/-! ### The step -/

/-- R5, R11, R28, R60, R97: a step of the machine is the meaning of the instruction that its next action decodes to: a
word written to CMD, or, when the unit moves, the element at the cursor; bytes that are no element raise (R110, R111);
unless BUSY the unit does nothing. Every host action is run by `hostStep`, every other step by `unitStep`; that the host's
actions stand in a list is the model's form of the host (log 2). -/
def Obligations.StepRunsDecoded : Prop :=
  (∀ (s : State) (op : HostOp) (rest : List HostOp), s.env.host = op :: rest →
    step s = hostStep op { s with env.host := rest }) ∧
  (∀ s : State, s.unitMoves = true → step s = unitStep s.popHost) ∧
  (∀ (s : State) (w : Word) (rest : List HostOp), s.env.host = .writeReg offCmd w :: rest →
    step s = exec (decodeCommand w) { s with env.host := rest }) ∧
  (∀ (s : State) (pos : Pos) (i : Instr) (rest : List Byte), s.unitMoves = true → s.position = some pos →
    decodeElement pos s.page = .ok (i, rest) → step s = exec i s.popHost) ∧
  (∀ (s : State) (pos : Pos) (e : DecodeErr), s.unitMoves = true → s.position = some pos →
    decodeElement pos s.page = .error e →
    step s = .next (s.popHost.raise (match e with
      | .endOfPage => .unexpectedEOF
      | .varintTooLong => .malformedHeader))) ∧
  (∀ s : State, s.unitMoves = true → s.Ready → step s = .next s.popHost)

/-- The placing of one table word (log 17, log 22): the next step runs the instruction that the decoder reads from it. -/
def Obligations.PlacedWordRuns : Prop :=
  (∀ (s : State) (w : Nat), ∃ t, t.Ready ∧ t.env = s.env ∧ t.mem = s.mem ∧
    step (s.withFetchWord 32 w) = exec (decodeCommand (BitVec.ofNat 32 w)) t) ∧
  (∀ (s : State) (w : Nat) (i : Instr), decodeTableWord 8 w = some i → ∃ t, t.At i ∧
    step (s.withFetchWord 8 w) = exec i t)

/-- R28: every element moves the cursor by exactly the number of its bytes; a page by at most that. -/
def Obligations.CursorCountsBytes : Prop :=
  ∀ (s t : State) (i : Instr) (bs : List Byte), encode i = .bytes bs → exec i s = .next t →
    (∀ e, t.regs.status ≠ .error e) →
    ∃ n, n ≤ bs.length ∧ t.regs.srcCur = s.regs.srcCur + BitVec.ofNat 32 n ∧
      ((∀ p, i ≠ .pageInt p) → (∀ p, i ≠ .pageBa p) → n = bs.length)

/-! ### Errors (60_exceptions.md) -/

/-- R202, R191: an error entry writes STATUS and idles both state machines, and no rule after it has any effect: the unit
stays in that state. -/
def Obligations.ErrorEntry : Prop :=
  ∀ (s : State) (e : Err),
    (s.raise e).regs.status = .error e ∧ (s.raise e).diu.dstate = .idle ∧ (s.raise e).dbr.bstate = .idle ∧
    unitStep (s.raise e) = .next (s.raise e)

/-- R203, U1 (log 8): of the host's view only STATUS, SRC_LEN and SRC are determined after an error other than
IllegalCommand (which keeps the rest by R95, see IllegalCommandResult): two runs that differ in everything the rules
before the raise wrote cannot be told apart. The free values are the model's form of "any value". -/
def Obligations.ErrorStateUnspecified : Prop :=
  ∀ (s u : State) (e : Err), e ≠ .illegalCommand →
    (s.raise e).regs.srcLen = s.regs.srcLen ∧ (s.raise e).mem.src = s.mem.src ∧ (s.raise e).env.inst = s.env.inst ∧
    (s.regs.srcLen = u.regs.srcLen → s.mem.src = u.mem.src → s.env.free = u.env.free →
      (s.raise e).regs = (u.raise e).regs ∧ (s.raise e).mem = (u.raise e).mem)

/-- R145: a step of a DIU run raises none but its four errors. The DEC_BA page as one operation is not a DIU run. -/
def Obligations.DiuErrors : Prop :=
  ∀ (s t : State) (e : Err), s.isBusy → s.diu.dstate ≠ .idle → (∀ p, s.position = some p → p ≠ .pageBa) →
    unitStep s = .next t → t.regs.status = .error e →
    e = .unexpectedEOF ∨ e = .malformedHeader ∨ e = .invalidBitWidth ∨ e = .capacityExceeded

/-- R172, R194: after the two runs DEC_BA raises none but the count mismatch and the four errors of R164; a suffix that
does not fit the page is never UnexpectedEOF. -/
def Obligations.DbrErrors : Prop :=
  ∀ (s t : State) (e : Err), s.Inv → s.isBusy → s.diu.dstate = .idle → unitStep s = .next t →
    t.regs.status = .error e →
    s.dbr.bstate = .cmp ∧ e = .lengthMismatch ∨
    s.dbr.bstate = .val ∧ (e = .negativeLength ∨ e = .prefixOutOfBounds ∨ e = .valueOutOfBounds ∨ e = .capacityExceeded)

/-! ### The byte arrays (43_byte_array.md) -/

/-- R138, with the ends of R92, R93, R161 and R162: D_DONE hands the run back to whoever started it. That the second run of
the DBR is set up with EMITTED 0, which R131 writes only in its header step, is the model's choice (log 26); the model's
own `micro` fields then stand at the start of a rule (log 18). -/
def Obligations.RunEnds : Prop :=
  ∀ s : State, s.isBusy → s.diu.dstate = .done →
    (s.dbr.bstate = .idle → unitStep s = .next { s with
      regs := { s.regs with
        status := .done, outCount := s.diu.emitted
        dstLen := (match s.diu.wSel with | .w32 => 4 | .w64 => 8) * s.diu.emitted }
      diu.dstate := .idle }) ∧
    (s.dbr.bstate = .pfx → unitStep s = .next { s with
      diu := { s.diu with
        wSel := .w32, sink := .sfx, sinkCap := BitVec.ofNat 32 s.env.inst.lenCap, emitted := 0, dstate := .hdr }
      dbr := { s.dbr with nPfx := s.diu.emitted, bstate := .sfx }
      micro := Micro.reset }) ∧
    (s.dbr.bstate = .sfx → unitStep s = .next { s with
      diu.dstate := .idle
      dbr := { s.dbr with nSfx := s.diu.emitted, bstate := .cmp } })

/-- R163: B_CMP compares the two counts and sets up the value loop. -/
def Obligations.CompareCounts : Prop :=
  ∀ s : State, s.isBusy → s.diu.dstate = .idle → s.dbr.bstate = .cmp →
    (s.dbr.nPfx ≠ s.dbr.nSfx → ∃ t, unitStep s = .next t ∧ t.regs.status = .error .lengthMismatch) ∧
    (s.dbr.nPfx = s.dbr.nSfx → unitStep s = .next { s with
      dbr := { s.dbr with
        idx := 0, prevOff := 0, prevLen := 0, bstate := if s.dbr.nPfx = 0 then .done else .val } })

/-- R164: the four checks of a value in their order, on the signed lengths. -/
def Obligations.ValueChecks : Prop :=
  ∀ s : State, s.Inv → s.isBusy → s.diu.dstate = .idle → s.dbr.bstate = .val → s.micro.rawLeft = 0 →
    let p := (s.dbr.pfx.read .pfx s.dbr.idx.toNat).toInt
    let q := (s.dbr.sfx.read .sfx s.dbr.idx.toNat).toInt
    (p < 0 ∨ q < 0 → ∃ t, unitStep s = .next t ∧ t.regs.status = .error .negativeLength) ∧
    (0 ≤ p → 0 ≤ q → s.dbr.prevLen.toNat < p →
      ∃ t, unitStep s = .next t ∧ t.regs.status = .error .prefixOutOfBounds) ∧
    (0 ≤ p → 0 ≤ q → p ≤ s.dbr.prevLen.toNat → (s.regs.srcLen.toNat : Int) - s.regs.srcCur.toNat < q →
      ∃ t, unitStep s = .next t ∧ t.regs.status = .error .valueOutOfBounds) ∧
    (0 ≤ p → 0 ≤ q → p ≤ s.dbr.prevLen.toNat → q ≤ (s.regs.srcLen.toNat : Int) - s.regs.srcCur.toNat →
      s.env.inst.dstCap < s.regs.dstLen.toNat + p + q →
      ∃ t, unitStep s = .next t ∧ t.regs.status = .error .capacityExceeded)

/-- R165: a value whose lengths `p` and `q` pass R164. At the grains of R6 the whole value is emitted in one step: the
first `p` bytes of the previous value and then `q` bytes of SRC, at DST_LEN, its start in OFS. At byte and field grain
the step does the same without the suffix, whose `q` bytes are then still to copy (log 1). -/
def Obligations.ValueEmitted : Prop :=
  ∀ (s : State) (p q : Nat), s.Inv → s.isBusy → s.diu.dstate = .idle → s.dbr.bstate = .val → s.micro.rawLeft = 0 →
    (s.dbr.pfx.read .pfx s.dbr.idx.toNat).toInt = p → (s.dbr.sfx.read .sfx s.dbr.idx.toNat).toInt = q →
    p ≤ s.dbr.prevLen.toNat → s.regs.srcCur.toNat + q ≤ s.regs.srcLen.toNat →
    s.regs.dstLen.toNat + p + q ≤ s.env.inst.dstCap →
    ∃ t, unitStep s = .next t ∧
      (let shared := (s.mem.dst.readList .dst s.dbr.prevOff.toNat s.dbr.prevLen.toNat).take p
       let suffix := s.mem.src.readList .src s.regs.srcCur.toNat q
       let whole := s.env.grain = .rule ∨ s.env.grain = .whole
       (whole → Wrote .dst s.regs.dstLen.toNat (shared ++ suffix) s.mem.dst t.mem.dst ∧
         t.regs.dstLen.toNat = s.regs.dstLen.toNat + p + q ∧ t.regs.srcCur.toNat = s.regs.srcCur.toNat + q ∧
         t.micro.rawLeft = 0 ∧ t.dbr.bstate = if s.dbr.idx + 1 = s.dbr.nPfx then .done else .val) ∧
       (¬ whole → Wrote .dst s.regs.dstLen.toNat shared s.mem.dst t.mem.dst ∧
         t.regs.dstLen.toNat = s.regs.dstLen.toNat + p ∧ t.regs.srcCur = s.regs.srcCur ∧
         t.micro.rawLeft.toNat = q ∧
         t.dbr.bstate = if q = 0 ∧ s.dbr.idx + 1 = s.dbr.nPfx then .done else .val) ∧
       Wrote .ofs s.dbr.idx.toNat [s.regs.dstLen] s.mem.ofs t.mem.ofs ∧ t.mem.src = s.mem.src ∧
       t.regs = { s.regs with dstLen := t.regs.dstLen, srcCur := t.regs.srcCur } ∧
       t.dbr = { s.dbr with
         prevOff := s.regs.dstLen, prevLen := BitVec.ofNat 32 (p + q), idx := s.dbr.idx + 1
         bstate := t.dbr.bstate } ∧
       t.diu = s.diu ∧ t.env = s.env)

/-- R49: where a value may be emitted, the prefix it copies ends at or before the place it is copied to. -/
def Obligations.PrefixCopyDisjoint : Prop :=
  ∀ s : State, s.Inv → s.isBusy → s.diu.dstate = .idle → s.dbr.bstate = .val → s.micro.rawLeft = 0 →
    s.checkValue = none →
    s.dbr.prevOff.toNat + s.dbr.prevLen.toNat = s.regs.dstLen.toNat ∧
    s.dbr.prevOff.toNat + s.prefixLen.toNat ≤ s.regs.dstLen.toNat

/-- R166, with the end of R94: B_DONE closes the offsets and ends the command. -/
def Obligations.OffsetsClosed : Prop :=
  ∀ s : State, s.Inv → s.isBusy → s.diu.dstate = .idle → s.dbr.bstate = .done →
    ∃ t, unitStep s = .next t ∧ Wrote .ofs s.dbr.nPfx.toNat [s.regs.dstLen] s.mem.ofs t.mem.ofs ∧
      t.mem.src = s.mem.src ∧ t.mem.dst = s.mem.dst ∧
      t.regs = { s.regs with status := .done, outCount := s.dbr.nPfx } ∧ t.dbr = { s.dbr with bstate := .idle } ∧
      t.diu = s.diu ∧ t.micro = s.micro ∧ t.env = s.env

/-! ### The machine as a whole -/

/-- The invariant holds right after reset. -/
def Obligations.ResetMeetsInv : Prop := State.reset.Inv

/-- Every step keeps the invariant: canonical memories inside their spaces, both state machines idle unless BUSY, and
what each state of a running command promises (10_state.md R18, 20_memory.md R47). -/
def Obligations.StepKeepsInv : Prop :=
  ∀ s t : State, s.Inv → step s = .next t → t.Inv

/-- R47: from every state of the invariant the unit's next step answers a next state: no access is outside its space
and no state is without a rule; and no command is without an effect. -/
def Obligations.UnitNeverStops : Prop :=
  ∀ s : State, s.Inv → (∃ t, unitStep s = .next t) ∧ ∀ w, ∃ t, exec (decodeCommand w) s = .next t

/-- R41, R13, R25: no instruction and no step of the unit writes SRC, SRC_LEN or the parameters, from any state. -/
def Obligations.SourceNeverWritten : Prop :=
  (∀ (i : Instr) (s t : State), exec i s = .next t →
    t.mem.src = s.mem.src ∧ t.regs.srcLen = s.regs.srcLen ∧ t.env.inst = s.env.inst ∧ t.env.host = s.env.host) ∧
  ∀ s t : State, unitStep s = .next t →
    t.mem.src = s.mem.src ∧ t.regs.srcLen = s.regs.srcLen ∧ t.env.inst = s.env.inst ∧ t.env.host = s.env.host

/-- R14, R28: while a command runs without an error the cursor never moves backwards, and in DONE it is at most
SRC_LEN. -/
def Obligations.CursorOnlyAdvances : Prop :=
  ∀ s t : State, s.Inv → s.isBusy → unitStep s = .next t → (∀ e, t.regs.status ≠ .error e) →
    s.regs.srcCur.toNat ≤ t.regs.srcCur.toNat ∧
    (t.regs.status = .done → t.regs.srcCur.toNat ≤ t.regs.srcLen.toNat)

/-- R48: while a command runs without an error no byte of DST below what it has written changes: below the values
emitted by an integer decode, below DST_LEN otherwise; and DST_LEN never shrinks. -/
def Obligations.DstAppendOnly : Prop :=
  ∀ s t : State, s.Inv → s.isBusy → unitStep s = .next t → (∀ e, t.regs.status ≠ .error e) →
    s.regs.dstLen.toNat ≤ t.regs.dstLen.toNat ∧
    ∀ a, a < (if s.diu.dstate ≠ .idle ∧ s.diu.sink = .dst then s.diu.emitted.toNat * s.diu.wSel.bytes
      else s.regs.dstLen.toNat) → t.mem.dst.read .dst a = s.mem.dst.read .dst a

/-- R8: from every state of the invariant in which a command runs and no host action is pending, the command ends in DONE
or ERROR after finitely many steps, whatever is in SRC and whatever the grain. -/
def Obligations.EveryCommandEnds : Prop :=
  ∀ s : State, s.Inv → s.isBusy → s.env.host = [] →
    ∃ n t, runSteps n s = some t ∧ (t.regs.status = .done ∨ ∃ e, t.regs.status = .error e)

/-- R6, R7, R92, R93, R94, R139, R167 at the whole-operation grain: a decode command ends in what the pure function of
its page gives. -/
def Obligations.WholeGrainCommands : Prop :=
  ∀ s : State, s.MayIssue → s.env.grain = .whole →
    (∀ w, ∃ t, Ends (intCommand w) s t ∧ IntEnds w s t) ∧ ∃ t, Ends 3 s t ∧ StringsEnd s t

/-- R6, R92, R93, R139: at the step grain (one rule per state) an integer command ends in what the pure function of its
page gives. -/
def Obligations.RuleGrainInts : Prop :=
  ∀ (s : State) (w : Width), s.MayIssue → s.env.grain = .rule → ∃ t, Ends (intCommand w) s t ∧ IntEnds w s t

/-- R92, R93, R139: the same at field and byte grain, which cut the header and the varints. These two grains are the
model's own (log 1); R6 has only the other two. -/
def Obligations.CutGrainInts : Prop :=
  ∀ (s : State) (w : Width), s.MayIssue → s.env.grain = .field ∨ s.env.grain = .byte →
    ∃ t, Ends (intCommand w) s t ∧ IntEnds w s t

/-- R6, R94, R167, R50: at the step grain DEC_BA ends in what the pure function of its page gives. -/
def Obligations.RuleGrainStrings : Prop :=
  ∀ s : State, s.MayIssue → s.env.grain = .rule → ∃ t, Ends 3 s t ∧ StringsEnd s t

/-- R94, R167, R50: the same at field and byte grain, which cut the header, the varints and the suffixes. These two grains
are the model's own (log 1); R6 has only the other two. -/
def Obligations.CutGrainStrings : Prop :=
  ∀ s : State, s.MayIssue → s.env.grain = .field ∨ s.env.grain = .byte → ∃ t, Ends 3 s t ∧ StringsEnd s t

/-- R7, R27: what a decode command leaves depends only on its page: two units with the same parameters and the same page,
whatever ran before on them and at whatever grain (log 1) they step, end in the same STATUS and, in DONE, in the same results. -/
def Obligations.ResultDependsOnPage : Prop :=
  ∀ (s s' t t' : State) (w : Word), s.MayIssue → s'.MayIssue → s.env.inst = s'.env.inst → s.page = s'.page →
    w = 1 ∨ w = 2 ∨ w = 3 → Ends w s t → Ends w s' t' →
    t.regs.status = t'.regs.status ∧
    (t.regs.status = .done →
      t.regs.outCount = t'.regs.outCount ∧ t.regs.dstLen = t'.regs.dstLen ∧
      t.regs.srcCur.toNat - s.regs.srcCur.toNat = t'.regs.srcCur.toNat - s'.regs.srcCur.toNat ∧
      (∀ a, a < t.regs.dstLen.toNat → t.mem.dst.read .dst a = t'.mem.dst.read .dst a) ∧
      (w = 3 → ∀ i, i ≤ t.regs.outCount.toNat → t.mem.ofs.read .ofs i = t'.mem.ofs.read .ofs i))

/-- R144: every sequence of W-bit values within the limits, encoded by the reference encoder of R76 in any geometry that
R132 accepts, is decoded to itself, and exactly the encoded bytes are consumed. -/
def Obligations.IntRoundTrip : Prop :=
  ∀ (p : Config.Instance) (w : Width) (cap mbCount mbSize : Nat) (vs : List DWord) (rest : List Byte), p.Legal →
    geometryLegal p mbCount mbSize → (∀ v ∈ vs, isWValue w v) → vs.length ≤ min Config.maxTotal cap →
    decodeIntPage p w cap (encodeInts w mbCount mbSize vs ++ rest) = .ok (vs, rest)

/-- R171: every sequence of byte strings within the limits, encoded by the reference encoder of R76, is decoded to
itself, and exactly the encoded bytes are consumed; and so it is when the prefix lengths of the page are shorter than the
longest common ones (R77). -/
def Obligations.StringRoundTrip : Prop :=
  ∀ (p : Config.Instance) (mbCount mbSize : Nat) (vs : List (List Byte)) (rest : List Byte), p.Legal →
    geometryLegal p mbCount mbSize → vs.length ≤ p.lenCap → vs.flatten.length ≤ p.dstCap →
    (∀ v ∈ vs, v.length < 2 ^ 31) →
    (∃ d, decodeBaPage p (encodeStrings mbCount mbSize vs ++ rest) = .ok d ∧ d.values = vs ∧ d.rest = rest) ∧
    ∀ ps : List Nat, ps.length = vs.length →
      (∀ i, i < vs.length → ps.getD i 0 ≤ (prefixLensFrom [] vs).getD i 0) →
      ∃ d, decodeBaPage p (encodeStringsBy mbCount mbSize ps vs ++ rest) = .ok d ∧ d.values = vs ∧ d.rest = rest
end

