-- ==== Sys2Proof/Laws/Decode.lean ====
section
/-! SUPPORT. What the decoder takes: a varint is 1 to 10 bytes and well-formed, an element fits its position, and no
element is longer than the bytes it was read from. -/

namespace Sys2Proof

/-- A varint read from byte number `k` on: its bytes come off the head, and it is well-formed. -/
theorem parseVarint_ok {k : Nat} {bs rest : List Byte} {v : Varint} (h : parseVarint k bs = .ok (v, rest)) :
    bs.length = v.size + rest.length ∧
      (k + v.conts.length < 9 ∨ k + v.conts.length = 9 ∧ v.last.toNat ≤ 1 ∨ 9 ≤ k ∧ v.conts = [] ∧ v.last.toNat ≤ 1) := by
  induction bs generalizing k v with
  | nil => simp [parseVarint] at h
  | cons b bs ih =>
    unfold parseVarint at h
    split at h
    · simp at h
    · next hb =>
      split at h
      · next hc =>
        cases hr : parseVarint (k + 1) bs with
        | error e => simp [hr, Except.map] at h
        | ok r =>
          simp only [hr, Except.map, Except.ok.injEq, Prod.mk.injEq] at h
          obtain ⟨rfl, rfl⟩ := h
          obtain ⟨h1, h2⟩ := ih hr
          have hk : k < 9 := by
            by_contra hk
            have hb2 : b.toNat ≤ 1 := by omega
            have : b.toNat = 0 ∨ b.toNat = 1 := by omega
            have hbb : b = 0#8 ∨ b = 1#8 := by
              rcases this with h | h
              · exact .inl (BitVec.eq_of_toNat_eq h)
              · exact .inr (BitVec.eq_of_toNat_eq h)
            rcases hbb with rfl | rfl <;> simp [continues] at hc
          refine ⟨by simp only [Varint.size, List.length_cons] at *; omega, ?_⟩
          simp only [List.length_cons]
          rcases h2 with h2 | h2 | ⟨h2, h3, h4⟩
          · left; omega
          · right; left; omega
          · right; left; rw [h3]; simp only [List.length_nil]; omega
      · simp only [Except.ok.injEq, Prod.mk.injEq] at h
        obtain ⟨rfl, rfl⟩ := h
        refine ⟨by simp only [Varint.size, List.length_cons, List.length_nil]; omega, ?_⟩
        by_cases hk : k < 9
        · left; simpa using hk
        · right; right
          refine ⟨by omega, rfl, ?_⟩
          have : b.toNat ≤ 1 := by omega
          simp only [groupOf, BitVec.extractLsb'_toNat]
          omega

/-- A whole varint is well-formed and 1 to 10 bytes long (R70). -/
theorem parseVarint_zero {bs rest : List Byte} {v : Varint} (h : parseVarint 0 bs = .ok (v, rest)) :
    bs.length = v.size + rest.length ∧ v.wellFormed = true := by
  obtain ⟨h1, h2⟩ := parseVarint_ok h
  refine ⟨h1, ?_⟩
  simp only [Varint.wellFormed, Bool.or_eq_true, Bool.and_eq_true, decide_eq_true_eq, beq_iff_eq]
  rcases h2 with h2 | h2 | h2
  · left; omega
  · right; omega
  · omega

/-- The four varints of a header (R65). -/
theorem parseHdr_ok {bs rest : List Byte} {i : Instr} (h : parseHdr bs = .ok (i, rest)) :
    ∃ b m t f, i = .hdr b m t f ∧ bs.length = b.size + m.size + t.size + f.size + rest.length ∧
      b.wellFormed = true ∧ m.wellFormed = true ∧ t.wellFormed = true ∧ f.wellFormed = true := by
  simp only [parseHdr, bind, Except.bind, pure, Except.pure] at h
  split at h
  · simp at h
  · next r1 e1 =>
    obtain ⟨b, bs1⟩ := r1
    simp only at h
    split at h
    · simp at h
    · next r2 e2 =>
      obtain ⟨m, bs2⟩ := r2
      simp only at h
      split at h
      · simp at h
      · next r3 e3 =>
        obtain ⟨t, bs3⟩ := r3
        simp only at h
        split at h
        · simp at h
        · next r4 e4 =>
          obtain ⟨f, bs4⟩ := r4
          simp only [Except.ok.injEq, Prod.mk.injEq] at h
          obtain ⟨rfl, rfl⟩ := h
          obtain ⟨l1, w1⟩ := parseVarint_zero e1
          obtain ⟨l2, w2⟩ := parseVarint_zero e2
          obtain ⟨l3, w3⟩ := parseVarint_zero e3
          obtain ⟨l4, w4⟩ := parseVarint_zero e4
          exact ⟨b, m, t, f, rfl, by omega, w1, w2, w3, w4⟩

/-- The bytes an instruction takes at the cursor. -/
def Instr.taken : Instr → Nat
  | .clr => 0
  | .decI32 => 0
  | .decI64 => 0
  | .decBa => 0
  | .illegal _ => 0
  | .varintCont _ => 1
  | .varintLast _ => 1
  | .varintLast10 _ => 1
  | .uvarint v => v.size
  | .zzvarint v => v.size
  | .hdr b m t f => b.size + m.size + t.size + f.size
  | .blkMin v => v.size
  | .blkWidth _ => 1
  | .mb bs => bs.length
  | .raw _ => 1
  | .pageInt bs => bs.length
  | .pageBa bs => bs.length

/-- What the decoder answers for a position: an element of that position, well-formed, its bytes taken off the head. -/
theorem decodeElement_ok {pos : Pos} {bs rest : List Byte} {i : Instr} (hlen : bs.length < 2 ^ 32)
    (h : decodeElement pos bs = .ok (i, rest)) :
    i.fits pos = true ∧ i.wellFormed = true ∧ bs.length = i.taken + rest.length := by
  have varint : ∀ {mk : Varint → Instr}, (parseVarint 0 bs).map (fun (v, r) => (mk v, r)) = .ok (i, rest) →
      ∃ v, i = mk v ∧ bs.length = v.size + rest.length ∧ v.wellFormed = true := by
    intro mk h
    cases hp : parseVarint 0 bs with
    | error e => simp [hp, Except.map] at h
    | ok r =>
      simp only [hp, Except.map, Except.ok.injEq, Prod.mk.injEq] at h
      obtain ⟨rfl, rfl⟩ := h
      exact ⟨_, rfl, parseVarint_zero hp⟩
  cases pos with
  | varintByte k =>
    cases bs with
    | nil => simp [decodeElement] at h
    | cons b bs =>
      simp only [decodeElement, decodeVarintByte] at h
      split at h
      · next hk =>
        split at h <;>
        · simp only [Except.map, Except.ok.injEq, Prod.mk.injEq] at h
          obtain ⟨rfl, rfl⟩ := h
          exact ⟨by simp [Instr.fits, hk], rfl, by simp [Instr.taken]; omega⟩
      · split at h
        · next hk =>
          simp only [Except.map, Except.ok.injEq, Prod.mk.injEq] at h
          obtain ⟨rfl, rfl⟩ := h
          exact ⟨by simp [Instr.fits, hk.1], rfl, by simp [Instr.taken]; omega⟩
        · simp [Except.map] at h
  | uvarint => obtain ⟨v, rfl, hl, hw⟩ := varint h; exact ⟨rfl, hw, hl⟩
  | zzvarint => obtain ⟨v, rfl, hl, hw⟩ := varint h; exact ⟨rfl, hw, hl⟩
  | blkMin => obtain ⟨v, rfl, hl, hw⟩ := varint h; exact ⟨rfl, hw, hl⟩
  | hdr =>
    obtain ⟨b, m, t, f, rfl, hl, hb, hm, ht, hf⟩ := parseHdr_ok h
    exact ⟨rfl, by simp [Instr.wellFormed, hb, hm, ht, hf], hl⟩
  | blkWidth =>
    cases bs with
    | nil => simp [decodeElement] at h
    | cons b bs =>
      simp only [decodeElement, Except.ok.injEq, Prod.mk.injEq] at h
      obtain ⟨rfl, rfl⟩ := h
      exact ⟨rfl, rfl, by simp [Instr.taken]; omega⟩
  | raw =>
    cases bs with
    | nil => simp [decodeElement] at h
    | cons b bs =>
      simp only [decodeElement, Except.ok.injEq, Prod.mk.injEq] at h
      obtain ⟨rfl, rfl⟩ := h
      exact ⟨rfl, rfl, by simp [Instr.taken]; omega⟩
  | mb n =>
    simp only [decodeElement, Except.ok.injEq, Prod.mk.injEq] at h
    obtain ⟨rfl, rfl⟩ := h
    simp only [Instr.fits, Instr.wellFormed, Instr.taken, bytesOfSrc, List.length_take, List.length_drop,
      decide_eq_true_eq]
    omega
  | pageInt =>
    simp only [decodeElement, Except.ok.injEq, Prod.mk.injEq] at h
    obtain ⟨rfl, rfl⟩ := h
    simpa [Instr.fits, Instr.wellFormed, Instr.taken, bytesOfSrc] using hlen
  | pageBa =>
    simp only [decodeElement, Except.ok.injEq, Prod.mk.injEq] at h
    obtain ⟨rfl, rfl⟩ := h
    simpa [Instr.fits, Instr.wellFormed, Instr.taken, bytesOfSrc] using hlen

end Sys2Proof
end

