-- ==== Sys2Proof/Laws/Memory.lean ====
section
/-! SUPPORT. The laws of one memory space: read after write, every other entry alone, and the canonical form kept by
every operation. -/

namespace Sys2Proof.Memory

variable {w : Nat}

theorem lookup_put_self (a : Nat) (v : BitVec w) (l : List (Nat × BitVec w)) : lookup a (put a v l) = some v := by
  induction l with
  | nil => simp [put, lookup]
  | cons c l ih =>
    obtain ⟨b, u⟩ := c
    unfold put
    split
    · simp [lookup]
    · split
      · simp [lookup]
      · next h => simp [lookup, h, ih]

theorem lookup_put_ne {a b : Nat} (h : b ≠ a) (v : BitVec w) (l : List (Nat × BitVec w)) :
    lookup b (put a v l) = lookup b l := by
  induction l with
  | nil => simp [put, lookup, h]
  | cons c l ih =>
    obtain ⟨d, u⟩ := c
    unfold put
    split
    · simp [lookup, h]
    · split
      · next _ e => subst e; simp [lookup, h]
      · simp [lookup, ih]

@[simp] theorem gen_write (m : Memory w) (a : Nat) (v : BitVec w) : (m.write a v).gen = m.gen := rfl

@[simp] theorem read_write_self (sp : Space) (m : Memory w) (a : Nat) (v : BitVec w) : (m.write a v).read sp a = v := by
  simp [read, write, lookup_put_self]

theorem read_write_ne (sp : Space) (m : Memory w) {a b : Nat} (h : b ≠ a) (v : BitVec w) :
    (m.write a v).read sp b = m.read sp b := by
  simp [read, write, lookup_put_ne h]

/-- A list written at `a` leaves every entry outside `a .. a + vs.length - 1` alone. -/
theorem read_writeList_outside (sp : Space) (vs : List (BitVec w)) (m : Memory w) (a b : Nat)
    (h : b < a ∨ a + vs.length ≤ b) : (m.writeList a vs).read sp b = m.read sp b := by
  induction vs generalizing m a with
  | nil => rfl
  | cons v vs ih =>
    simp only [List.length_cons] at h
    rw [writeList, ih _ _ (by omega), read_write_ne]
    omega

/-- A list written at `a` is read back entry by entry. -/
theorem read_writeList_inside (sp : Space) (vs : List (BitVec w)) (m : Memory w) (a i : Nat) (h : i < vs.length) :
    (m.writeList a vs).read sp (a + i) = vs[i] := by
  induction vs generalizing m a i with
  | nil => simp at h
  | cons v vs ih =>
    cases i with
    | zero => simp [writeList, read_writeList_outside]
    | succ i =>
      have := ih (m.write a v) (a + 1) i (by simpa using h)
      simpa [writeList, Nat.add_assoc, Nat.add_comm 1] using this

@[simp] theorem length_readList (sp : Space) (m : Memory w) (a n : Nat) : (m.readList sp a n).length = n := by
  induction n generalizing a with
  | zero => rfl
  | succ n ih => simp [readList, ih]

theorem getElem_readList (sp : Space) (m : Memory w) (a n i : Nat) (h : i < (m.readList sp a n).length) :
    (m.readList sp a n)[i] = m.read sp (a + i) := by
  induction n generalizing a i with
  | zero => simp [readList] at h
  | succ n ih =>
    cases i with
    | zero => simp [readList]
    | succ i => simp [readList, ih, Nat.add_comm 1, Nat.add_assoc]

theorem readList_congr (sp : Space) (m k : Memory w) (a n : Nat)
    (h : ∀ b, a ≤ b → b < a + n → m.read sp b = k.read sp b) : m.readList sp a n = k.readList sp a n := by
  induction n generalizing a with
  | zero => rfl
  | succ n ih =>
    rw [readList, readList, h a (by omega) (by omega), ih (a + 1) fun b h1 h2 => h b (by omega) (by omega)]

theorem readList_append (sp : Space) (m : Memory w) (a n k : Nat) :
    m.readList sp a (n + k) = m.readList sp a n ++ m.readList sp (a + n) k := by
  induction n generalizing a with
  | zero => simp [readList]
  | succ n ih => simp [readList, Nat.succ_add, ih, Nat.add_assoc]

theorem readList_writeList_self (sp : Space) (vs : List (BitVec w)) (m : Memory w) (a : Nat) :
    (m.writeList a vs).readList sp a vs.length = vs := by
  apply List.ext_getElem (by simp)
  intro i h1 h2
  rw [getElem_readList, read_writeList_inside _ _ _ _ _ h2]

theorem take_readList (sp : Space) (m : Memory w) (a n k : Nat) :
    (m.readList sp a n).take k = m.readList sp a (min k n) := by
  induction n generalizing a k with
  | zero => simp [readList]
  | succ n ih =>
    cases k with
    | zero => simp [readList]
    | succ k => simp [readList, ih, Nat.succ_min_succ]

theorem drop_readList (sp : Space) (m : Memory w) (a n k : Nat) :
    (m.readList sp a n).drop k = m.readList sp (a + k) (n - k) := by
  induction k generalizing a n with
  | zero => simp
  | succ k ih =>
    cases n with
    | zero => simp [readList]
    | succ n => simp [readList, ih, Nat.add_assoc, Nat.add_comm 1]

theorem writeList_append (m : Memory w) (a : Nat) (us vs : List (BitVec w)) :
    m.writeList a (us ++ vs) = (m.writeList a us).writeList (a + us.length) vs := by
  induction us generalizing m a with
  | nil => rfl
  | cons u us ih => simp [writeList, ih, Nat.add_assoc, Nat.add_comm 1]

/-! ### The canonical form -/

theorem rising_mono {lo hi : Nat} (h : lo ≤ hi) {l : List (Nat × BitVec w)} (hr : rising hi l = true) :
    rising lo l = true := by
  cases l with
  | nil => rfl
  | cons c l => simp only [rising, Bool.and_eq_true, decide_eq_true_eq] at *; exact ⟨by omega, hr.2⟩

theorem rising_put {lo a : Nat} (h : lo ≤ a) (v : BitVec w) {l : List (Nat × BitVec w)} (hr : rising lo l = true) :
    rising lo (put a v l) = true := by
  induction l generalizing lo with
  | nil => simp [put, rising, h]
  | cons c l ih =>
    obtain ⟨b, u⟩ := c
    simp only [rising, Bool.and_eq_true, decide_eq_true_eq] at hr
    unfold put
    split
    · next hab => simp [rising, h, hr.2]; omega
    · split
      · next _ e => subst e; simp [rising, h, hr.2]
      · simp only [rising, Bool.and_eq_true, decide_eq_true_eq]
        exact ⟨hr.1, ih (by omega) hr.2⟩

theorem all_lt_put {cap a : Nat} (h : a < cap) (v : BitVec w) {l : List (Nat × BitVec w)}
    (hl : (l.all fun c => c.1 < cap) = true) : ((put a v l).all fun c => c.1 < cap) = true := by
  induction l with
  | nil => simp [put, h]
  | cons c l ih =>
    obtain ⟨b, u⟩ := c
    simp only [List.all_cons, Bool.and_eq_true, decide_eq_true_eq] at hl
    unfold put
    split
    · simp only [List.all_cons, Bool.and_eq_true, decide_eq_true_eq]; exact ⟨h, hl⟩
    · split
      · simp only [List.all_cons, Bool.and_eq_true, decide_eq_true_eq]; exact ⟨h, hl.2⟩
      · simp only [List.all_cons, Bool.and_eq_true, decide_eq_true_eq]; exact ⟨hl.1, ih hl.2⟩

theorem wf_unwritten (cap gen : Nat) : (Machine.unwritten w gen).wf cap = true := rfl

theorem wf_write {cap a : Nat} {m : Memory w} (hm : m.wf cap = true) (h : a < cap) (v : BitVec w) :
    (m.write a v).wf cap = true := by
  simp only [wf, Bool.and_eq_true] at *
  exact ⟨rising_put (Nat.zero_le a) v hm.1, all_lt_put h v hm.2⟩

theorem wf_writeList {cap : Nat} (vs : List (BitVec w)) {m : Memory w} {a : Nat} (hm : m.wf cap = true)
    (h : a + vs.length ≤ cap) : (m.writeList a vs).wf cap = true := by
  induction vs generalizing m a with
  | nil => exact hm
  | cons v vs ih =>
    simp only [List.length_cons] at h
    exact ih (wf_write hm (by omega) v) (by omega)

end Sys2Proof.Memory
end

