-- ==== Sys2Proof/Laws/Operands.lean ====
section
/-! SUPPORT. What the operand functions of 41_stream_primitives.md give: lengths, W-bit ranges, the power-of-two test and
what a header that passes R132 promises. -/

namespace Sys2Proof

@[simp] theorem length_leBytes (n : Nat) (v : DWord) : (leBytes n v).length = n := by simp [leBytes]

namespace Machine

theorem Width.bytes_pos (w : Width) : 0 < w.bytes := by cases w <;> decide

theorem Width.bits_eq (w : Width) : w.bits = 8 * w.bytes := by cases w <;> rfl

@[simp] theorem truncW_toNat (w : Width) (v : DWord) : (truncW w v).toNat = v.toNat % 2 ^ w.bits := by
  cases w with
  | w32 => simp only [truncW, Width.bits, BitVec.toNat_setWidth]; omega
  | w64 => simp only [truncW, Width.bits]; omega

theorem truncW_lt (w : Width) (v : DWord) : (truncW w v).toNat < 2 ^ w.bits := by
  rw [truncW_toNat]; exact Nat.mod_lt _ (Nat.two_pow_pos _)

/-- A value that already has W bits is not changed. -/
theorem truncW_of_lt {w : Width} {v : DWord} (h : v.toNat < 2 ^ w.bits) : truncW w v = v := by
  apply BitVec.eq_of_toNat_eq; rw [truncW_toNat, Nat.mod_eq_of_lt h]

@[simp] theorem length_fields (payload : List Byte) (w k : Nat) : (fields payload w k).length = k := by simp [fields]

@[simp] theorem length_accumulateAll (w : Width) (m run : DWord) (us : List DWord) :
    (accumulateAll w m run us).length = us.length := by
  induction us generalizing run with
  | nil => rfl
  | cons u us ih => simp [accumulateAll, ih]

theorem accumulateAll_append (w : Width) (m run : DWord) (us vs : List DWord) :
    accumulateAll w m run (us ++ vs) =
      accumulateAll w m run us ++ accumulateAll w m (lastRun run (accumulateAll w m run us)) vs := by
  induction us generalizing run with
  | nil => simp [accumulateAll, lastRun]
  | cons u us ih =>
    simp only [List.cons_append, accumulateAll, ih, lastRun]
    congr 3
    simp [List.getLast?_cons]

/-- What R132 lets pass (the conditions of its seven checks, each negated). -/
theorem headerError_none {p : Config.Instance} {cap : Nat} {b m t : DWord} (h : headerError p cap b m t = none) :
    m ≠ 0 ∧ b ≠ 0 ∧ b.toNat % m.toNat = 0 ∧ isPowerOfTwo (b / m) = true ∧ 8 ≤ (b / m).toNat ∧
      t.toNat ≤ 2 ^ 31 - 1 ∧ b.toNat ≤ p.maxBlockSize ∧ t.toNat ≤ cap := by
  unfold headerError at h
  repeat' split at h
  all_goals first | (exact absurd h (Option.some_ne_none _)) | skip
  next h1 h2 h3 h4 h5 h6 h7 =>
    simp only [Bool.or_eq_true, Bool.not_eq_true', not_or, Bool.not_eq_false, Nat.not_lt,
      Config.minMbSize, Config.maxTotal] at h4 h5 h6 h7
    exact ⟨h1, h2, by omega, h4.1, by simpa using h4.2, h5, h6, h7⟩

/-- After R132 MB_COUNT miniblocks of MB_SIZE ≥ 8 fit in MAX_BLOCK_SIZE, so MB_COUNT ≤ MAX_BLOCK_SIZE / 8 (R18). -/
theorem headerError_mbCount {p : Config.Instance} {cap : Nat} {b m t : DWord} (h : headerError p cap b m t = none) :
    0 < m.toNat ∧ m.toNat ≤ p.maxBlockSize / 8 := by
  obtain ⟨hm, _, hd, _, h8, _, hb, _⟩ := headerError_none h
  have hm' : 0 < m.toNat := by
    rcases Nat.eq_zero_or_pos m.toNat with h0 | h0
    · exact absurd (BitVec.eq_of_toNat_eq (by simpa using h0)) hm
    · exact h0
  refine ⟨hm', ?_⟩
  rw [BitVec.toNat_udiv] at h8
  have := Nat.mul_le_of_le_div _ _ _ h8
  rw [Nat.le_div_iff_mul_le (by decide)]
  omega

/-- What R164 lets pass. -/
theorem valueError_none {cap : Nat} {p q : Word} {prev left len : Nat} (h : valueError cap p q prev left len = none) :
    isNegative p = false ∧ isNegative q = false ∧ p.toNat ≤ prev ∧ q.toNat ≤ left ∧ len + p.toNat + q.toNat ≤ cap := by
  unfold valueError at h
  repeat' split at h
  all_goals first | (exact absurd h (Option.some_ne_none _)) | skip
  simp_all

theorem isNegative_eq (v : Word) : isNegative v = decide (2 ^ 31 ≤ v.toNat) := by
  rw [isNegative, ← BitVec.msb_eq_getLsbD_last (x := v), BitVec.msb_eq_decide]

end Machine
end Sys2Proof
end

