-- ==== Sys2Proof/Laws/State.lean ====
section
/-! SUPPORT. What each named update of the state leaves in each field: one lemma for each part the update leaves alone,
and one for each field of a part it touches. -/

namespace Sys2Proof.Machine.State

variable (s : State)

/-! ### advance -/

@[simp] theorem advance_status (n : Nat) : (s.advance n).regs.status = s.regs.status := rfl
@[simp] theorem advance_srcLen (n : Nat) : (s.advance n).regs.srcLen = s.regs.srcLen := rfl
@[simp] theorem advance_srcCur (n : Nat) : (s.advance n).regs.srcCur = s.regs.srcCur + BitVec.ofNat 32 n := rfl
@[simp] theorem advance_outCount (n : Nat) : (s.advance n).regs.outCount = s.regs.outCount := rfl
@[simp] theorem advance_dstLen (n : Nat) : (s.advance n).regs.dstLen = s.regs.dstLen := rfl
@[simp] theorem advance_diu (n : Nat) : (s.advance n).diu = s.diu := rfl
@[simp] theorem advance_dbr (n : Nat) : (s.advance n).dbr = s.dbr := rfl
@[simp] theorem advance_mem (n : Nat) : (s.advance n).mem = s.mem := rfl
@[simp] theorem advance_micro (n : Nat) : (s.advance n).micro = s.micro := rfl
@[simp] theorem advance_env (n : Nat) : (s.advance n).env = s.env := rfl

/-! ### clearVarint -/

@[simp] theorem clearVarint_regs : s.clearVarint.regs = s.regs := rfl
@[simp] theorem clearVarint_diu : s.clearVarint.diu = s.diu := rfl
@[simp] theorem clearVarint_dbr : s.clearVarint.dbr = s.dbr := rfl
@[simp] theorem clearVarint_mem : s.clearVarint.mem = s.mem := rfl
@[simp] theorem clearVarint_vrCount : s.clearVarint.micro.vrCount = 0 := rfl
@[simp] theorem clearVarint_vrValue : s.clearVarint.micro.vrValue = 0 := rfl
@[simp] theorem clearVarint_hdrField : s.clearVarint.micro.hdrField = s.micro.hdrField := rfl
@[simp] theorem clearVarint_widthIdx : s.clearVarint.micro.widthIdx = s.micro.widthIdx := rfl
@[simp] theorem clearVarint_rawLeft : s.clearVarint.micro.rawLeft = s.micro.rawLeft := rfl
@[simp] theorem clearVarint_env : s.clearVarint.env = s.env := rfl

/-! ### raise -/

@[simp] theorem raise_status (e : Err) : (s.raise e).regs.status = .error e := rfl
@[simp] theorem raise_srcLen (e : Err) : (s.raise e).regs.srcLen = s.regs.srcLen := rfl
@[simp] theorem raise_srcCur (e : Err) : (s.raise e).regs.srcCur = Config.freeWord (s.env.free + 1) := rfl
@[simp] theorem raise_outCount (e : Err) : (s.raise e).regs.outCount = Config.freeWord (s.env.free + 2) := rfl
@[simp] theorem raise_dstLen (e : Err) : (s.raise e).regs.dstLen = Config.freeWord (s.env.free + 3) := rfl
@[simp] theorem raise_wSel (e : Err) : (s.raise e).diu.wSel = s.diu.wSel := rfl
@[simp] theorem raise_sink (e : Err) : (s.raise e).diu.sink = s.diu.sink := rfl
@[simp] theorem raise_sinkCap (e : Err) : (s.raise e).diu.sinkCap = s.diu.sinkCap := rfl
@[simp] theorem raise_blockSize (e : Err) : (s.raise e).diu.blockSize = s.diu.blockSize := rfl
@[simp] theorem raise_mbCount (e : Err) : (s.raise e).diu.mbCount = s.diu.mbCount := rfl
@[simp] theorem raise_total (e : Err) : (s.raise e).diu.total = s.diu.total := rfl
@[simp] theorem raise_mbSize (e : Err) : (s.raise e).diu.mbSize = s.diu.mbSize := rfl
@[simp] theorem raise_remaining (e : Err) : (s.raise e).diu.remaining = s.diu.remaining := rfl
@[simp] theorem raise_emitted (e : Err) : (s.raise e).diu.emitted = s.diu.emitted := rfl
@[simp] theorem raise_minDelta (e : Err) : (s.raise e).diu.minDelta = s.diu.minDelta := rfl
@[simp] theorem raise_run (e : Err) : (s.raise e).diu.run = s.diu.run := rfl
@[simp] theorem raise_mbIdx (e : Err) : (s.raise e).diu.mbIdx = s.diu.mbIdx := rfl
@[simp] theorem raise_dstate (e : Err) : (s.raise e).diu.dstate = .idle := rfl
@[simp] theorem raise_widths (e : Err) : (s.raise e).diu.widths = s.diu.widths := rfl
@[simp] theorem raise_bstate (e : Err) : (s.raise e).dbr.bstate = .idle := rfl
@[simp] theorem raise_nPfx (e : Err) : (s.raise e).dbr.nPfx = s.dbr.nPfx := rfl
@[simp] theorem raise_nSfx (e : Err) : (s.raise e).dbr.nSfx = s.dbr.nSfx := rfl
@[simp] theorem raise_idx (e : Err) : (s.raise e).dbr.idx = s.dbr.idx := rfl
@[simp] theorem raise_prevOff (e : Err) : (s.raise e).dbr.prevOff = s.dbr.prevOff := rfl
@[simp] theorem raise_prevLen (e : Err) : (s.raise e).dbr.prevLen = s.dbr.prevLen := rfl
@[simp] theorem raise_pfx (e : Err) : (s.raise e).dbr.pfx = s.dbr.pfx := rfl
@[simp] theorem raise_sfx (e : Err) : (s.raise e).dbr.sfx = s.dbr.sfx := rfl
@[simp] theorem raise_src (e : Err) : (s.raise e).mem.src = s.mem.src := rfl
@[simp] theorem raise_dst (e : Err) : (s.raise e).mem.dst = unwritten 8 (s.env.free + 4) := rfl
@[simp] theorem raise_ofs (e : Err) : (s.raise e).mem.ofs = unwritten 32 (s.env.free + 5) := rfl
@[simp] theorem raise_micro (e : Err) : (s.raise e).micro = s.micro := rfl
@[simp] theorem raise_inst (e : Err) : (s.raise e).env.inst = s.env.inst := rfl
@[simp] theorem raise_grain (e : Err) : (s.raise e).env.grain = s.env.grain := rfl
@[simp] theorem raise_host (e : Err) : (s.raise e).env.host = s.env.host := rfl
@[simp] theorem raise_rdata (e : Err) : (s.raise e).env.rdata = s.env.rdata := rfl
@[simp] theorem raise_free (e : Err) : (s.raise e).env.free = s.env.free + 5 := rfl

/-! ### finish -/

@[simp] theorem finish_status (c l : Word) : (s.finish c l).regs.status = .done := rfl
@[simp] theorem finish_srcLen (c l : Word) : (s.finish c l).regs.srcLen = s.regs.srcLen := rfl
@[simp] theorem finish_srcCur (c l : Word) : (s.finish c l).regs.srcCur = s.regs.srcCur := rfl
@[simp] theorem finish_outCount (c l : Word) : (s.finish c l).regs.outCount = c := rfl
@[simp] theorem finish_dstLen (c l : Word) : (s.finish c l).regs.dstLen = l := rfl
@[simp] theorem finish_wSel (c l : Word) : (s.finish c l).diu.wSel = s.diu.wSel := rfl
@[simp] theorem finish_sink (c l : Word) : (s.finish c l).diu.sink = s.diu.sink := rfl
@[simp] theorem finish_sinkCap (c l : Word) : (s.finish c l).diu.sinkCap = s.diu.sinkCap := rfl
@[simp] theorem finish_blockSize (c l : Word) : (s.finish c l).diu.blockSize = s.diu.blockSize := rfl
@[simp] theorem finish_mbCount (c l : Word) : (s.finish c l).diu.mbCount = s.diu.mbCount := rfl
@[simp] theorem finish_total (c l : Word) : (s.finish c l).diu.total = s.diu.total := rfl
@[simp] theorem finish_mbSize (c l : Word) : (s.finish c l).diu.mbSize = s.diu.mbSize := rfl
@[simp] theorem finish_remaining (c l : Word) : (s.finish c l).diu.remaining = s.diu.remaining := rfl
@[simp] theorem finish_emitted (c l : Word) : (s.finish c l).diu.emitted = s.diu.emitted := rfl
@[simp] theorem finish_minDelta (c l : Word) : (s.finish c l).diu.minDelta = s.diu.minDelta := rfl
@[simp] theorem finish_run (c l : Word) : (s.finish c l).diu.run = s.diu.run := rfl
@[simp] theorem finish_mbIdx (c l : Word) : (s.finish c l).diu.mbIdx = s.diu.mbIdx := rfl
@[simp] theorem finish_dstate (c l : Word) : (s.finish c l).diu.dstate = .idle := rfl
@[simp] theorem finish_widths (c l : Word) : (s.finish c l).diu.widths = s.diu.widths := rfl
@[simp] theorem finish_bstate (c l : Word) : (s.finish c l).dbr.bstate = .idle := rfl
@[simp] theorem finish_nPfx (c l : Word) : (s.finish c l).dbr.nPfx = s.dbr.nPfx := rfl
@[simp] theorem finish_nSfx (c l : Word) : (s.finish c l).dbr.nSfx = s.dbr.nSfx := rfl
@[simp] theorem finish_idx (c l : Word) : (s.finish c l).dbr.idx = s.dbr.idx := rfl
@[simp] theorem finish_prevOff (c l : Word) : (s.finish c l).dbr.prevOff = s.dbr.prevOff := rfl
@[simp] theorem finish_prevLen (c l : Word) : (s.finish c l).dbr.prevLen = s.dbr.prevLen := rfl
@[simp] theorem finish_pfx (c l : Word) : (s.finish c l).dbr.pfx = s.dbr.pfx := rfl
@[simp] theorem finish_sfx (c l : Word) : (s.finish c l).dbr.sfx = s.dbr.sfx := rfl
@[simp] theorem finish_mem (c l : Word) : (s.finish c l).mem = s.mem := rfl
@[simp] theorem finish_micro (c l : Word) : (s.finish c l).micro = s.micro := rfl
@[simp] theorem finish_env (c l : Word) : (s.finish c l).env = s.env := rfl

/-! ### startRun -/

@[simp] theorem startRun_regs (w : Width) (k : Sink) : (s.startRun w k).regs = s.regs := rfl
@[simp] theorem startRun_wSel (w : Width) (k : Sink) : (s.startRun w k).diu.wSel = w := rfl
@[simp] theorem startRun_sink (w : Width) (k : Sink) : (s.startRun w k).diu.sink = k := rfl
@[simp] theorem startRun_sinkCap (w : Width) (k : Sink) : (s.startRun w k).diu.sinkCap = BitVec.ofNat 32 (sinkCapOf s.env.inst w k) := rfl
@[simp] theorem startRun_blockSize (w : Width) (k : Sink) : (s.startRun w k).diu.blockSize = s.diu.blockSize := rfl
@[simp] theorem startRun_mbCount (w : Width) (k : Sink) : (s.startRun w k).diu.mbCount = s.diu.mbCount := rfl
@[simp] theorem startRun_total (w : Width) (k : Sink) : (s.startRun w k).diu.total = s.diu.total := rfl
@[simp] theorem startRun_mbSize (w : Width) (k : Sink) : (s.startRun w k).diu.mbSize = s.diu.mbSize := rfl
@[simp] theorem startRun_remaining (w : Width) (k : Sink) : (s.startRun w k).diu.remaining = s.diu.remaining := rfl
@[simp] theorem startRun_emitted (w : Width) (k : Sink) : (s.startRun w k).diu.emitted = 0 := rfl
@[simp] theorem startRun_minDelta (w : Width) (k : Sink) : (s.startRun w k).diu.minDelta = s.diu.minDelta := rfl
@[simp] theorem startRun_run (w : Width) (k : Sink) : (s.startRun w k).diu.run = s.diu.run := rfl
@[simp] theorem startRun_mbIdx (w : Width) (k : Sink) : (s.startRun w k).diu.mbIdx = s.diu.mbIdx := rfl
@[simp] theorem startRun_dstate (w : Width) (k : Sink) : (s.startRun w k).diu.dstate = .hdr := rfl
@[simp] theorem startRun_widths (w : Width) (k : Sink) : (s.startRun w k).diu.widths = s.diu.widths := rfl
@[simp] theorem startRun_dbr (w : Width) (k : Sink) : (s.startRun w k).dbr = s.dbr := rfl
@[simp] theorem startRun_mem (w : Width) (k : Sink) : (s.startRun w k).mem = s.mem := rfl
@[simp] theorem startRun_micro (w : Width) (k : Sink) : (s.startRun w k).micro = Micro.reset := rfl
@[simp] theorem startRun_env (w : Width) (k : Sink) : (s.startRun w k).env = s.env := rfl

end Sys2Proof.Machine.State
end

