-- ==== Sys2Proof/Laws/Ops.lean ====
section
/-! SUPPORT. Everything each shared operation of Ops.lean can do: the page, the stores, Emit. -/

namespace Sys2Proof.Machine

theorem Word.toNat_add_one {x : Word} (h : x.toNat + 1 < 2 ^ 32) : (x + 1).toNat = x.toNat + 1 := by
  rw [BitVec.toNat_add, show (1 : Word).toNat = 1 from rfl]; omega

theorem Word.toNat_add_ofNat {x : Word} {n : Nat} (h : x.toNat + n < 2 ^ 32) :
    (x + BitVec.ofNat 32 n).toNat = x.toNat + n := by
  rw [BitVec.toNat_add, BitVec.toNat_ofNat]; omega

theorem Word.add_one_add_ofNat (x : Word) (n : Nat) : x + 1 + BitVec.ofNat 32 n = x + BitVec.ofNat 32 (n + 1) := by
  apply BitVec.eq_of_toNat_eq
  simp only [BitVec.toNat_add, BitVec.toNat_ofNat, show (1 : Word).toNat = 1 from rfl]
  omega

/-- A memory operation and its continuation answer a next state only through the operation's state. -/
theorem orOutside_next {sp : Space} {r : Option State} {k : State → Result} {t : State}
    (h : orOutside sp r k = .next t) : ∃ u, r = some u ∧ k u = .next t := by
  cases r with
  | none => simp [orOutside] at h
  | some u => exact ⟨u, rfl, h⟩

@[simp] theorem orOutside_some (sp : Space) (u : State) (k : State → Result) : orOutside sp (some u) k = k u := rfl

namespace State

@[simp] theorem length_page (s : State) : s.page.length = s.regs.srcLen.toNat - s.regs.srcCur.toNat := by
  simp [page]

theorem length_page_lt (s : State) : s.page.length < 2 ^ 32 := by
  have := s.regs.srcLen.isLt
  rw [length_page]; omega

/-- Byte `i` of the page is SRC[SRC_CUR + i]. -/
theorem getElem_page (s : State) (i : Nat) (h : i < s.page.length) :
    s.page[i] = s.mem.src.read .src (s.regs.srcCur.toNat + i) := by
  simp only [page, Memory.getElem_readList]

theorem storeDst_some {a : Nat} {bs : List Byte} {s t : State} (h : s.storeDst a bs = some t) :
    a + bs.length ≤ s.env.inst.dstCap ∧ t = { s with mem.dst := s.mem.dst.writeList a bs } := by
  unfold storeDst at h
  split at h
  · next hc => exact ⟨hc, (Option.some.inj h).symm⟩
  · simp at h

theorem storeDst_of_le {a : Nat} {bs : List Byte} {s : State} (h : a + bs.length ≤ s.env.inst.dstCap) :
    s.storeDst a bs = some { s with mem.dst := s.mem.dst.writeList a bs } := by
  simp [storeDst, h]

theorem storeOfs_some {i : Nat} {v : Word} {s t : State} (h : s.storeOfs i v = some t) :
    i ≤ s.env.inst.lenCap ∧ t = { s with mem.ofs := s.mem.ofs.write i v } := by
  unfold storeOfs at h
  split at h
  · next hc => exact ⟨hc, (Option.some.inj h).symm⟩
  · simp at h

theorem storeOfs_of_le {i : Nat} {v : Word} {s : State} (h : i ≤ s.env.inst.lenCap) :
    s.storeOfs i v = some { s with mem.ofs := s.mem.ofs.write i v } := by
  simp [storeOfs, h]

/-- Emit changes EMITTED and the memory behind the sink, nothing else, and keeps those memories canonical. -/
theorem emit_some {v : DWord} {s t : State} (h : s.emit v = some t) :
    t = { s with
      mem.dst := t.mem.dst, dbr.pfx := t.dbr.pfx, dbr.sfx := t.dbr.sfx, diu.emitted := s.diu.emitted + 1 } ∧
    (s.mem.dst.wf s.env.inst.dstCap = true → t.mem.dst.wf s.env.inst.dstCap = true) ∧
    (s.dbr.pfx.wf s.env.inst.lenCap = true → t.dbr.pfx.wf s.env.inst.lenCap = true) ∧
    (s.dbr.sfx.wf s.env.inst.lenCap = true → t.dbr.sfx.wf s.env.inst.lenCap = true) := by
  unfold emit at h
  simp only at h
  split at h
  · obtain ⟨u, hu, rfl⟩ := Option.map_eq_some_iff.mp h
    obtain ⟨hle, rfl⟩ := storeDst_some hu
    exact ⟨rfl, fun hw => Memory.wf_writeList _ hw hle, id, id⟩
  · split at h
    · next hlt =>
      obtain rfl := Option.some.inj h
      exact ⟨rfl, id, fun hw => Memory.wf_write hw hlt _, id⟩
    · simp at h
  · split at h
    · next hlt =>
      obtain rfl := Option.some.inj h
      exact ⟨rfl, id, id, fun hw => Memory.wf_write hw hlt _⟩
    · simp at h

/-- The same of a list of values: EMITTED grows by its length. -/
theorem emitAll_some {vs : List DWord} {s t : State} (h : s.emitAll vs = some t) :
    t = { s with
      mem.dst := t.mem.dst, dbr.pfx := t.dbr.pfx, dbr.sfx := t.dbr.sfx
      diu.emitted := s.diu.emitted + BitVec.ofNat 32 vs.length } ∧
    (s.mem.dst.wf s.env.inst.dstCap = true → t.mem.dst.wf s.env.inst.dstCap = true) ∧
    (s.dbr.pfx.wf s.env.inst.lenCap = true → t.dbr.pfx.wf s.env.inst.lenCap = true) ∧
    (s.dbr.sfx.wf s.env.inst.lenCap = true → t.dbr.sfx.wf s.env.inst.lenCap = true) := by
  induction vs generalizing s with
  | nil =>
    obtain rfl := Option.some.inj h
    exact ⟨by simp, id, id, id⟩
  | cons v vs ih =>
    obtain ⟨u, hu, ht⟩ := Option.bind_eq_some_iff.mp h
    obtain ⟨eu, d1, p1, s1⟩ := emit_some hu
    obtain ⟨et, d2, p2, s2⟩ := ih ht
    have hi : u.env = s.env := by rw [eu]
    rw [hi] at d2 p2 s2
    refine ⟨?_, fun h => d2 (d1 h), fun h => p2 (p1 h), fun h => s2 (s1 h)⟩
    rw [et, eu]
    simp only [List.length_cons]
    rw [Word.add_one_add_ofNat]

/-- Emit into DST while the sink has room: the value little-endian at EMITTED * W/8 (R118, R42). -/
theorem emit_dst {s : State} {v : DWord} (hk : s.diu.sink = .dst)
    (h : (s.diu.emitted.toNat + 1) * s.diu.wSel.bytes ≤ s.env.inst.dstCap) :
    s.emit v = some { s with
      mem.dst := s.mem.dst.writeList (s.diu.emitted.toNat * s.diu.wSel.bytes) (leBytes s.diu.wSel.bytes v)
      diu.emitted := s.diu.emitted + 1 } := by
  have : s.diu.emitted.toNat * s.diu.wSel.bytes + (leBytes s.diu.wSel.bytes v).length ≤ s.env.inst.dstCap := by
    rw [length_leBytes, ← Nat.succ_mul]; exact h
  simp only [emit, hk, storeDst_of_le this, Option.map_some]

/-- A list of values emitted into DST while the sink has room for all of them (R118, R132 check 7). -/
theorem emitAll_dst {vs : List DWord} {s : State} (hk : s.diu.sink = .dst) (hc : s.env.inst.dstCap < 2 ^ 32)
    (h : (s.diu.emitted.toNat + vs.length) * s.diu.wSel.bytes ≤ s.env.inst.dstCap) :
    s.emitAll vs = some { s with
      mem.dst := s.mem.dst.writeList (s.diu.emitted.toNat * s.diu.wSel.bytes) (vs.flatMap (leBytes s.diu.wSel.bytes))
      diu.emitted := s.diu.emitted + BitVec.ofNat 32 vs.length } := by
  induction vs generalizing s with
  | nil => simp [emitAll, Memory.writeList]
  | cons v vs ih =>
    simp only [List.length_cons] at h
    have hb := s.diu.wSel.bytes_pos
    have h1 : (s.diu.emitted.toNat + 1) * s.diu.wSel.bytes ≤ s.env.inst.dstCap :=
      le_trans (Nat.mul_le_mul_right _ (by omega)) h
    have hle : s.diu.emitted.toNat + (vs.length + 1) ≤ (s.diu.emitted.toNat + (vs.length + 1)) * s.diu.wSel.bytes :=
      Nat.le_mul_of_pos_right _ hb
    have he : (s.diu.emitted + 1).toNat = s.diu.emitted.toNat + 1 :=
      Word.toNat_add_one (by omega)
    rw [emitAll, emit_dst hk h1, Option.bind_some, ih (by exact hk) (by exact hc)]
    · simp only [he, List.length_cons, List.flatMap_cons, Memory.writeList_append, length_leBytes, Nat.succ_mul]
      rw [Word.add_one_add_ofNat]
    · simp only [he]
      rw [show s.diu.emitted.toNat + 1 + vs.length = s.diu.emitted.toNat + (vs.length + 1) by omega]
      exact h

/-- A list of values emitted into PFX while it has room (R118). -/
theorem emitAll_pfx {vs : List DWord} {s : State} (hk : s.diu.sink = .pfx) (hc : s.env.inst.lenCap < 2 ^ 32)
    (h : s.diu.emitted.toNat + vs.length ≤ s.env.inst.lenCap) :
    s.emitAll vs = some { s with
      dbr.pfx := s.dbr.pfx.writeList s.diu.emitted.toNat (vs.map fun v => v.setWidth 32)
      diu.emitted := s.diu.emitted + BitVec.ofNat 32 vs.length } := by
  induction vs generalizing s with
  | nil => simp [emitAll, Memory.writeList]
  | cons v vs ih =>
    simp only [List.length_cons] at h
    have he : (s.diu.emitted + 1).toNat = s.diu.emitted.toNat + 1 :=
      Word.toNat_add_one (by omega)
    have h1 : s.diu.emitted.toNat < s.env.inst.lenCap := by omega
    have e1 : s.emit v = some { s with
        dbr.pfx := s.dbr.pfx.write s.diu.emitted.toNat (v.setWidth 32), diu.emitted := s.diu.emitted + 1 } := by
      simp [emit, hk, h1]
    rw [emitAll, e1, Option.bind_some, ih (by exact hk) (by exact hc) (by simp only [he]; omega)]
    simp only [he, List.length_cons, List.map_cons, Memory.writeList]
    rw [Word.add_one_add_ofNat]

/-- A list of values emitted into SFX while it has room (R118). -/
theorem emitAll_sfx {vs : List DWord} {s : State} (hk : s.diu.sink = .sfx) (hc : s.env.inst.lenCap < 2 ^ 32)
    (h : s.diu.emitted.toNat + vs.length ≤ s.env.inst.lenCap) :
    s.emitAll vs = some { s with
      dbr.sfx := s.dbr.sfx.writeList s.diu.emitted.toNat (vs.map fun v => v.setWidth 32)
      diu.emitted := s.diu.emitted + BitVec.ofNat 32 vs.length } := by
  induction vs generalizing s with
  | nil => simp [emitAll, Memory.writeList]
  | cons v vs ih =>
    simp only [List.length_cons] at h
    have he : (s.diu.emitted + 1).toNat = s.diu.emitted.toNat + 1 :=
      Word.toNat_add_one (by omega)
    have h1 : s.diu.emitted.toNat < s.env.inst.lenCap := by omega
    have e1 : s.emit v = some { s with
        dbr.sfx := s.dbr.sfx.write s.diu.emitted.toNat (v.setWidth 32), diu.emitted := s.diu.emitted + 1 } := by
      simp [emit, hk, h1]
    rw [emitAll, e1, Option.bind_some, ih (by exact hk) (by exact hc) (by simp only [he]; omega)]
    simp only [he, List.length_cons, List.map_cons, Memory.writeList]
    rw [Word.add_one_add_ofNat]

theorem emitAll_append (us vs : List DWord) (s : State) : s.emitAll (us ++ vs) = (s.emitAll us).bind (emitAll vs) := by
  induction us generalizing s with
  | nil => rfl
  | cons u us ih =>
    simp only [List.cons_append, emitAll]
    cases s.emit u with
    | none => rfl
    | some t => simp [ih]

end State
end Sys2Proof.Machine
end

