-- ==== Sys2Proof/Laws/Exec.lean ====
section
/-! SUPPORT. Everything the shared parts of the meanings can do: an element in its place, a completed varint field, the
header, a value of the DBR; and which state each position belongs to. -/

namespace Sys2Proof.Machine

/-! ### Elements in place -/

theorem inPlace_at {i : Instr} {s : State} (h : s.At i) (k : Result) : inPlace i s k = k := by
  simp [inPlace, h.position, h.wellFormed]

/-- An element answers a next state only in its place. -/
theorem inPlace_next {i : Instr} {s t : State} {k : Result} (h : inPlace i s k = .next t) : s.At i ∧ k = .next t := by
  unfold inPlace at h
  split at h
  · next hc =>
    rw [Bool.and_eq_true] at hc
    exact ⟨⟨hc.1, hc.2⟩, h⟩
  · simp at h

/-- An element out of its place is refused. -/
theorem inPlace_refused {i : Instr} {s : State} (h : ¬ s.At i) (k : Result) :
    inPlace i s k = .refused .elementOutOfPlace := by
  unfold inPlace
  split
  · next hc =>
    rw [Bool.and_eq_true] at hc
    exact absurd ⟨hc.1, hc.2⟩ h
  · rfl

/-- An element stands at the position the unit is at. -/
theorem State.At.pos {i : Instr} {s : State} (h : s.At i) : ∃ p, s.position = some p ∧ i.fits p = true := by
  have := h.position
  cases hp : s.position with
  | none => simp [hp] at this
  | some p => exact ⟨p, rfl, by simpa [hp] using this⟩

/-! ### The positions -/

/-- A position exists only while BUSY. -/
theorem position_busy {s : State} {p : Pos} (h : s.position = some p) : s.isBusy := by
  unfold State.position at h
  split at h
  · assumption
  all_goals simp at h

theorem position_varintByte {s : State} {k : Nat} (h : s.position = some (.varintByte k)) :
    s.isBusy ∧ k = s.micro.vrCount ∧ (s.diu.dstate = .hdr ∨ s.diu.dstate = .blk) := by
  refine ⟨position_busy h, ?_⟩
  unfold State.position at h
  repeat' split at h
  all_goals simp_all

theorem position_uvarint {s : State} (h : s.position = some .uvarint) :
    s.isBusy ∧ s.diu.dstate = .hdr ∧ s.micro.hdrField ≠ .first := by
  refine ⟨position_busy h, ?_⟩
  unfold State.position at h
  repeat' split at h
  all_goals simp_all

theorem position_zzvarint {s : State} (h : s.position = some .zzvarint) :
    s.isBusy ∧ s.diu.dstate = .hdr ∧ s.micro.hdrField = .first := by
  refine ⟨position_busy h, ?_⟩
  unfold State.position at h
  repeat' split at h
  all_goals simp_all

theorem position_hdr {s : State} (h : s.position = some .hdr) : s.isBusy ∧ s.diu.dstate = .hdr := by
  refine ⟨position_busy h, ?_⟩
  unfold State.position at h
  repeat' split at h
  all_goals simp_all

theorem position_blkMin {s : State} (h : s.position = some .blkMin) : s.isBusy ∧ s.diu.dstate = .blk := by
  refine ⟨position_busy h, ?_⟩
  unfold State.position at h
  repeat' split at h
  all_goals simp_all

theorem position_blkWidth {s : State} (h : s.position = some .blkWidth) : s.isBusy ∧ s.diu.dstate = .wid := by
  refine ⟨position_busy h, ?_⟩
  unfold State.position at h
  repeat' split at h
  all_goals simp_all

theorem position_mb {s : State} {n : Nat} (h : s.position = some (.mb n)) :
    s.isBusy ∧ s.diu.dstate = .pay ∧ n = payloadBytes s.diu.mbSize.toNat s.mbWidth := by
  refine ⟨position_busy h, ?_⟩
  unfold State.position at h
  repeat' split at h
  all_goals simp_all

theorem position_raw {s : State} (h : s.position = some .raw) :
    s.isBusy ∧ s.diu.dstate = .idle ∧ s.dbr.bstate = .val ∧ s.micro.rawLeft ≠ 0 := by
  refine ⟨position_busy h, ?_⟩
  unfold State.position at h
  repeat' split at h
  all_goals simp_all

theorem position_pageInt {s : State} (h : s.position = some .pageInt) :
    s.isBusy ∧ s.diu.dstate = .hdr ∧ s.dbr.bstate ≠ .pfx := by
  refine ⟨position_busy h, ?_⟩
  unfold State.position at h
  repeat' split at h
  all_goals simp_all

theorem position_pageBa {s : State} (h : s.position = some .pageBa) :
    s.isBusy ∧ s.diu.dstate = .hdr ∧ s.dbr.bstate = .pfx := by
  refine ⟨position_busy h, ?_⟩
  unfold State.position at h
  repeat' split at h
  all_goals simp_all

/-! ### The header and the fields -/

/-- Everything R132 and R133 can do after the four fields are read. -/
theorem finishHeader_cases (first : DWord) (s : State) :
    (∃ e, headerError s.env.inst s.diu.sinkCap.toNat s.diu.blockSize s.diu.mbCount s.diu.total = some e ∧
      finishHeader first s = .next (s.raise e)) ∨
    (headerError s.env.inst s.diu.sinkCap.toNat s.diu.blockSize s.diu.mbCount s.diu.total = none ∧
      s.diu.total = 0 ∧
      finishHeader first s =
        .next { s with diu.mbSize := s.diu.blockSize / s.diu.mbCount, diu.dstate := .done }) ∨
    (headerError s.env.inst s.diu.sinkCap.toNat s.diu.blockSize s.diu.mbCount s.diu.total = none ∧
      s.diu.total ≠ 0 ∧
      finishHeader first s =
        orOutside s.sinkSpace
          (({ s with diu.mbSize := s.diu.blockSize / s.diu.mbCount, diu.run := first } : State).emit first) fun u =>
            .next { u with
              diu.remaining := (s.diu.total - 1).setWidth 32
              diu.dstate := if ((s.diu.total - 1).setWidth 32 : Word) = 0 then .done else .blk }) := by
  unfold finishHeader
  cases h : headerError s.env.inst s.diu.sinkCap.toNat s.diu.blockSize s.diu.mbCount s.diu.total with
  | some e => exact .inl ⟨e, rfl, rfl⟩
  | none =>
    by_cases h0 : s.diu.total = 0
    · exact .inr (.inl ⟨rfl, h0, by simp [h0]⟩)
    · exact .inr (.inr ⟨rfl, h0, by simp only [h0, if_false]; rfl⟩)

/-- Everything a completed varint field can do, by the place it is read at. -/
theorem takeField_cases (u : DWord) (s : State) :
    (s.diu.dstate = .hdr ∧ s.micro.hdrField = .blockSize ∧
      takeField u s = .next { s with diu.blockSize := u, micro.hdrField := .mbCount }) ∨
    (s.diu.dstate = .hdr ∧ s.micro.hdrField = .mbCount ∧
      takeField u s = .next { s with diu.mbCount := u, micro.hdrField := .total }) ∨
    (s.diu.dstate = .hdr ∧ s.micro.hdrField = .total ∧
      takeField u s = .next { s with diu.total := u, micro.hdrField := .first }) ∨
    (s.diu.dstate = .hdr ∧ s.micro.hdrField = .first ∧ takeField u s = finishHeader (zzValue s.diu.wSel u) s) ∨
    (s.diu.dstate = .blk ∧
      takeField u s =
        .next { s with diu.minDelta := zzValue s.diu.wSel u, diu.dstate := .wid, micro.widthIdx := 0 }) ∨
    (s.diu.dstate ≠ .hdr ∧ s.diu.dstate ≠ .blk ∧ takeField u s = .refused .elementOutOfPlace) := by
  unfold takeField
  cases hd : s.diu.dstate <;> simp
  cases hf : s.micro.hdrField <;> simp

/-! ### The values of the DBR -/

/-- R165 up to the suffix: the stores it makes are inside OFS and DST, and this is the state it leaves. -/
theorem beginValue_of_le {s : State} (hi : s.dbr.idx.toNat ≤ s.env.inst.lenCap)
    (hd : s.regs.dstLen.toNat + s.prefixLen.toNat ≤ s.env.inst.dstCap) :
    s.beginValue = some { s with
      mem.ofs := s.mem.ofs.write s.dbr.idx.toNat s.regs.dstLen
      mem.dst := s.mem.dst.writeList s.regs.dstLen.toNat
        (s.mem.dst.readList .dst s.dbr.prevOff.toNat s.prefixLen.toNat)
      regs.dstLen := s.regs.dstLen + s.prefixLen
      dbr.prevOff := s.regs.dstLen
      dbr.prevLen := s.prefixLen + s.suffixLen
      dbr.idx := s.dbr.idx + 1
      micro.rawLeft := s.suffixLen } := by
  unfold State.beginValue
  dsimp only
  rw [State.storeOfs_of_le hi, Option.bind_some, State.storeDst_of_le (by simpa using hd), Option.map_some]

/-- R165, the suffix in one go: the store is inside DST. -/
theorem copySuffix_of_le {s : State} (hd : s.regs.dstLen.toNat + s.micro.rawLeft.toNat ≤ s.env.inst.dstCap) :
    s.copySuffix = some { s with
      mem.dst := s.mem.dst.writeList s.regs.dstLen.toNat
        (s.mem.src.readList .src s.regs.srcCur.toNat s.micro.rawLeft.toNat)
      regs.srcCur := s.regs.srcCur + BitVec.ofNat 32 s.micro.rawLeft.toNat
      regs.dstLen := s.regs.dstLen + s.micro.rawLeft
      micro.rawLeft := 0 } := by
  unfold State.copySuffix
  simp only
  rw [State.storeDst_of_le (by simpa using hd), Option.map_some]
  rfl

end Sys2Proof.Machine
end

