-- ==== Sys2Proof/Laws/Pages.lean ====
section
/-! SUPPORT. What the whole-operation functions of R139 and R167 give when they answer values: how many, how long, and
that they take bytes off the head of the page. -/

namespace Sys2Proof.Machine

/-- A varint takes at least one byte. -/
theorem readUvarint_ok {page rest : List Byte} {u : DWord} (h : readUvarint page = .ok (u, rest)) :
    rest.length < page.length := by
  unfold readUvarint at h
  split at h
  · next v r hp =>
    simp only [Except.ok.injEq, Prod.mk.injEq] at h
    obtain ⟨_, rfl⟩ := h
    have := (parseVarint_zero hp).1
    simp only [Varint.size] at this
    omega
  · simp at h

/-- The width bytes come off the head of the page. -/
theorem readWidths_ok {n : Nat} {page ws rest : List Byte} (h : readWidths n page = .ok (ws, rest)) :
    ws.length = n ∧ page = ws ++ rest := by
  induction n generalizing page ws with
  | zero =>
    simp only [readWidths, Except.ok.injEq, Prod.mk.injEq] at h
    obtain ⟨rfl, rfl⟩ := h
    simp
  | succ n ih =>
    cases page with
    | nil => simp [readWidths] at h
    | cons b page =>
      simp only [readWidths] at h
      cases hr : readWidths n page with
      | error e => simp [hr, Except.map] at h
      | ok r =>
        simp only [hr, Except.map, Except.ok.injEq, Prod.mk.injEq] at h
        obtain ⟨rfl, rfl⟩ := h
        obtain ⟨h1, h2⟩ := ih hr
        exact ⟨by simp [h1], by rw [h2]; rfl⟩

/-- A block's miniblocks give the values they no longer miss. -/
theorem decodeMiniblocks_ok {w : Width} {mbSize : Nat} {m : DWord} {ws : List Byte} {missing : Nat} {run : DWord}
    {page : List Byte} {d : Decoded} (h : decodeMiniblocks w mbSize m ws missing run page = .ok d) :
    d.values.length + d.missing = missing ∧ d.rest.length ≤ page.length := by
  induction ws generalizing missing run page d with
  | nil =>
    simp only [decodeMiniblocks, Except.ok.injEq] at h
    subst h; simp
  | cons b ws ih =>
    unfold decodeMiniblocks at h
    split at h
    · next hz => simp only [Except.ok.injEq] at h; subst h; simp [hz]
    · split at h
      · simp at h
      · dsimp only at h
        split at h
        · simp at h
        · next hl =>
          cases hr : decodeMiniblocks w mbSize m ws (missing - min mbSize missing)
              (lastRun run (accumulateAll w m run
                (fields (page.take (payloadBytes mbSize b.toNat)) b.toNat (min mbSize missing))))
              (page.drop (payloadBytes mbSize b.toNat)) with
          | error e => simp [hr, Except.map] at h
          | ok r =>
            simp only [hr, Except.map, Except.ok.injEq] at h
            subst h
            obtain ⟨h1, h2⟩ := ih hr
            simp only [List.length_append, length_accumulateAll, length_fields, List.length_drop] at *
            omega

/-- The blocks give every value that was missing. -/
theorem decodeBlocks_ok {w : Width} {mbCount mbSize fuel missing : Nat} {run : DWord} {page : List Byte} {d : Decoded}
    (h : decodeBlocks w mbCount mbSize fuel missing run page = .ok d) :
    d.values.length = missing ∧ d.missing = 0 ∧ d.rest.length ≤ page.length := by
  induction fuel generalizing missing run page d with
  | zero =>
    unfold decodeBlocks at h
    split at h
    · next hz => simp only [Except.ok.injEq] at h; subst h; simp [hz]
    · simp at h
  | succ fuel ih =>
    unfold decodeBlocks at h
    split at h
    · next hz => simp only [Except.ok.injEq] at h; subst h; simp [hz]
    · simp only [bind, Except.bind, pure, Except.pure] at h
      split at h
      · simp at h
      next r1 e1 =>
      obtain ⟨u, p1⟩ := r1
      simp only at h
      split at h
      · simp at h
      next r2 e2 =>
      obtain ⟨ws, p2⟩ := r2
      simp only at h
      split at h
      · simp at h
      next d1 e3 =>
      split at h
      · simp at h
      next d2 e4 =>
      simp only [Except.ok.injEq] at h
      subst h
      have h1 := readUvarint_ok e1
      obtain ⟨_, h2⟩ := readWidths_ok e2
      obtain ⟨h3, h3'⟩ := decodeMiniblocks_ok e3
      obtain ⟨h4, h5, h6⟩ := ih e4
      subst h2
      simp only [List.length_append] at *
      exact ⟨by omega, h5, by omega⟩

/-- DecodeInt gives at most SINK_CAP values and takes bytes off the head. -/
theorem decodeIntPage_ok {p : Config.Instance} {w : Width} {cap : Nat} {page rest : List Byte} {vs : List DWord}
    (h : decodeIntPage p w cap page = .ok (vs, rest)) :
    vs.length ≤ cap ∧ vs.length ≤ Config.maxTotal ∧ rest.length < page.length := by
  simp only [decodeIntPage, bind, Except.bind, pure, Except.pure] at h
  split at h
  · simp at h
  next r1 e1 =>
  obtain ⟨b, p1⟩ := r1
  simp only at h
  split at h
  · simp at h
  next r2 e2 =>
  obtain ⟨m, p2⟩ := r2
  simp only at h
  split at h
  · simp at h
  next r3 e3 =>
  obtain ⟨t, p3⟩ := r3
  simp only at h
  split at h
  · simp at h
  next r4 e4 =>
  obtain ⟨f, p4⟩ := r4
  simp only at h
  have h1 := readUvarint_ok e1
  have h2 := readUvarint_ok e2
  have h3 := readUvarint_ok e3
  have h4 := readUvarint_ok e4
  split at h
  · simp at h
  next hn =>
  obtain ⟨_, _, _, _, _, ht, _, hc⟩ := headerError_none hn
  split at h
  · simp only [Except.ok.injEq, Prod.mk.injEq] at h
    obtain ⟨rfl, rfl⟩ := h
    simp; omega
  next h0 =>
  split at h
  · simp at h
  next d e5 =>
  simp only [Except.ok.injEq, Prod.mk.injEq] at h
  obtain ⟨rfl, rfl⟩ := h
  obtain ⟨h5, _, h6⟩ := decodeBlocks_ok e5
  have : 0 < t.toNat := by
    rcases Nat.eq_zero_or_pos t.toNat with h1 | h1
    · exact absurd (BitVec.eq_of_toNat_eq (by simpa using h1)) h0
    · exact h1
  simp only [List.length_cons, Config.maxTotal]
  omega

/-- The value loop gives one value for each pair of lengths, inside DST. -/
theorem decodeValues_ok {cap : Nat} {lens : List (Word × Word)} {prev page rest : List Byte} {len : Nat}
    {vs : List (List Byte)} (hcap : len ≤ cap) (h : decodeValues cap lens prev len page = .ok (vs, rest)) :
    vs.length = lens.length ∧ len + vs.flatten.length ≤ cap ∧ rest.length ≤ page.length := by
  induction lens generalizing prev len page vs with
  | nil =>
    simp only [decodeValues, Except.ok.injEq, Prod.mk.injEq] at h
    obtain ⟨rfl, rfl⟩ := h
    simpa using hcap
  | cons pq lens ih =>
    obtain ⟨p, q⟩ := pq
    simp only [decodeValues] at h
    split at h
    · simp at h
    next hn =>
    obtain ⟨_, _, hp, hq, hc⟩ := valueError_none hn
    cases hr : decodeValues cap lens (prev.take p.toNat ++ page.take q.toNat)
        (len + (prev.take p.toNat ++ page.take q.toNat).length) (page.drop q.toNat) with
    | error e => rw [hr] at h; simp [Except.map] at h
    | ok r =>
      simp only [hr, Except.map, Except.ok.injEq, Prod.mk.injEq] at h
      obtain ⟨rfl, rfl⟩ := h
      obtain ⟨h1, h2, h3⟩ := ih (by simp; omega) hr
      simp only [List.length_cons, List.flatten_cons, List.length_append, List.length_drop, List.length_take] at *
      omega

/-- DecodeByteArray gives at most LEN_CAP values, inside DST. -/
theorem decodeBaPage_ok {p : Config.Instance} {page : List Byte} {d : DecodedBa} (h : decodeBaPage p page = .ok d) :
    d.values.length ≤ p.lenCap ∧ d.values.length = d.prefixes.length ∧ d.values.length = d.suffixes.length ∧
      d.values.flatten.length ≤ p.dstCap ∧ d.rest.length < page.length := by
  simp only [decodeBaPage, bind, Except.bind, pure, Except.pure] at h
  split at h
  · simp at h
  next r1 e1 =>
  obtain ⟨ps, p1⟩ := r1
  simp only at h
  split at h
  · simp at h
  next r2 e2 =>
  obtain ⟨qs, p2⟩ := r2
  simp only at h
  split at h
  · simp at h
  next hne =>
  split at h
  · simp at h
  next r3 e3 =>
  obtain ⟨vs, p3⟩ := r3
  simp only [Except.ok.injEq] at h
  subst h
  obtain ⟨h1, _, h2⟩ := decodeIntPage_ok e1
  obtain ⟨h3, _, h4⟩ := decodeIntPage_ok e2
  obtain ⟨h5, h6, h7⟩ := decodeValues_ok (Nat.zero_le _) e3
  simp only [List.length_zip, List.length_map] at *
  omega

@[simp] theorem length_offsetsFrom (n : Nat) (vs : List (List Byte)) : (offsetsFrom n vs).length = vs.length := by
  induction vs generalizing n with
  | nil => rfl
  | cons v vs ih => simp [offsetsFrom, ih]
end Sys2Proof.Machine
end

