-- ==== Sys2Proof/Laws/Step.lean ====
section
/-! SUPPORT. What one step of the machine is, by who moves. -/

namespace Sys2Proof.Machine

/-- With no host action pending, or a `tick`, the unit moves. -/
theorem step_of_unitMoves {s : State} (h : s.unitMoves = true) : step s = unitStep s.popHost := by
  obtain ⟨regs, diu, dbr, mem, micro, ⟨inst, grain, host, rdata, free⟩⟩ := s
  cases host with
  | nil => rfl
  | cons op rest => cases op <;> first | rfl | simp [State.unitMoves] at h

/-- A pending host action other than `tick` is what the step does. -/
theorem step_of_host {s : State} {op : HostOp} {rest : List HostOp} (h : s.env.host = op :: rest) :
    step s = hostStep op s.popHost := by
  simp only [step, machineStep, h, State.popHost, List.tail_cons]

/-- The unit does nothing unless BUSY (R97, R233). -/
theorem unitStep_ready {s : State} (h : s.Ready) : unitStep s = .next s := by
  have h' : ¬ s.regs.status = .busy := h
  simp [unitStep, h']

/-- While BUSY at a position whose bytes are an element, the unit executes it. -/
theorem unitStep_exec {s : State} {p : Pos} {i : Instr} (hp : s.position = some p) (hf : s.fetch p = .ok i) :
    unitStep s = exec i s := by
  have hb : s.regs.status = .busy := position_busy hp
  simp [unitStep, hb, hp, hf]

/-- While BUSY at a position whose bytes are no element, the unit raises (R110, R111). -/
theorem unitStep_raise {s : State} {p : Pos} {e : DecodeErr} (hp : s.position = some p) (hf : s.fetch p = .error e) :
    unitStep s = .next (s.raise (fetchError e)) := by
  have hb : s.regs.status = .busy := position_busy hp
  simp [unitStep, hb, hp, hf]

/-- While BUSY at no position, the unit takes the rule that reads no element. -/
theorem unitStep_sequence {s : State} (hb : s.isBusy) (hp : s.position = none) : unitStep s = sequence s := by
  have hb' : s.regs.status = .busy := hb
  simp [unitStep, hb', hp]

/-- The element that the unit fetches stands in its place, and its bytes are in the page. -/
theorem fetch_ok {s : State} {p : Pos} {i : Instr} (hp : s.position = some p) (hf : s.fetch p = .ok i) :
    s.At i ∧ i.taken ≤ s.page.length := by
  unfold State.fetch at hf
  cases hd : decodeElement p s.page with
  | error e => simp [hd, Except.map] at hf
  | ok r =>
    obtain ⟨j, rest⟩ := r
    simp only [hd, Except.map, Except.ok.injEq] at hf
    subst hf
    obtain ⟨h1, h2, h3⟩ := decodeElement_ok s.length_page_lt hd
    exact ⟨⟨by simp [hp, h1], h2⟩, by omega⟩

end Sys2Proof.Machine
end

