-- ==== Sys2Proof/Laws/Inv.lean ====
section
/-! SUPPORT. The invariant of Safety.lean through each rule: from a state of the invariant, the rule answers a next state
of the invariant. -/

namespace Sys2Proof.Machine
open State

/-- An error entry (R202) leaves the invariant, whatever the rules before it did. -/
theorem raise_inv {s : State} (hl : s.env.inst.Legal) (hm : s.MemoriesOk) (e : Err) : (s.raise e).Inv := by
  refine ⟨hl, ⟨hm.src, rfl, rfl, hm.pfx, hm.sfx, hm.widths⟩, fun _ => ⟨rfl, rfl⟩, fun h => ?_⟩
  simp [isBusy] at h

/-- A sink with room takes a list of values (R118, R132 check 7). -/
theorem emitAll_room {s : State} {vs : List DWord} (hl : s.env.inst.Legal) (hs : s.SinkOk)
    (h : s.diu.emitted.toNat + vs.length ≤ s.diu.sinkCap.toNat) : ∃ t, s.emitAll vs = some t := by
  obtain ⟨hcap, hk⟩ := hs
  obtain ⟨_, ⟨_, _, hd⟩, ⟨_, hlen⟩, _⟩ := hl
  cases hsink : s.diu.sink with
  | dst =>
    refine ⟨_, emitAll_dst hsink (by omega) ?_⟩
    rw [hcap, hsink] at h
    exact (Nat.le_div_iff_mul_le s.diu.wSel.bytes_pos).mp h
  | pfx =>
    refine ⟨_, emitAll_pfx hsink (by omega) ?_⟩
    rw [hcap, hsink] at h; exact h
  | sfx =>
    refine ⟨_, emitAll_sfx hsink (by omega) ?_⟩
    rw [hcap, hsink] at h; exact h

theorem ne_zero_pos {x : Word} (h : x ≠ 0) : 0 < x.toNat := by
  rcases Nat.eq_zero_or_pos x.toNat with h0 | h0
  · exact absurd (BitVec.eq_of_toNat_eq (by simpa using h0)) h
  · exact h0

theorem sinkCapOf_lt {p : Config.Instance} (hl : p.Legal) (w : Width) (k : Sink) : sinkCapOf p w k < 2 ^ 32 := by
  obtain ⟨_, ⟨_, _, hd⟩, ⟨_, hlen⟩, _⟩ := hl
  cases k with
  | dst =>
    have := Nat.div_le_self p.dstCap w.bytes
    simp only [sinkCapOf]; omega
  | pfx => simp only [sinkCapOf]; omega
  | sfx => simp only [sinkCapOf]; omega

theorem total_sub {t : DWord} (h0 : t ≠ 0) (h : t.toNat ≤ 2 ^ 31 - 1) :
    ((t - 1).setWidth 32 : Word).toNat = t.toNat - 1 := by
  have : 0 < t.toNat := by
    rcases Nat.eq_zero_or_pos t.toNat with h1 | h1
    · exact absurd (BitVec.eq_of_toNat_eq (by simpa using h1)) h0
    · exact h1
  rw [BitVec.toNat_setWidth, BitVec.toNat_sub, show (1 : DWord).toNat = 1 from rfl]
  omega

/-- R132 and R133 after the four fields of R131. -/
theorem finishHeader_inv {s : State} (f : DWord) (hl : s.env.inst.Legal) (hm : s.MemoriesOk) (hb : s.isBusy)
    (h1 : s.regs.srcLen.toNat ≤ s.env.inst.srcCap) (h2 : s.micro.vrCount ≤ 9)
    (hs : s.SinkOk) (he : s.diu.emitted = 0) (hd : s.regs.dstLen = 0) (hr : s.micro.rawLeft = 0) (hc : s.CursorOk) :
    ∃ t, finishHeader f s = .next t ∧ t.Inv := by
  rcases finishHeader_cases f s with ⟨e, _, h⟩ | ⟨hn, h0, h⟩ | ⟨hn, h0, h⟩
  · exact ⟨_, h, raise_inv hl hm e⟩
  · refine ⟨_, h, hl, ⟨hm.src, hm.dst, hm.ofs, hm.pfx, hm.sfx, hm.widths⟩, fun hq => absurd hb hq,
      fun _ => ⟨h1, h2, ?_⟩⟩
    exact ⟨hs, by simp [he], hc, hd, hr⟩
  · obtain ⟨_, _, _, _, _, ht, _, hcap⟩ := headerError_none hn
    have hrem := total_sub h0 ht
    have hpos : 0 < s.diu.total.toNat := by
      rcases Nat.eq_zero_or_pos s.diu.total.toNat with h1 | h1
      · exact absurd (BitVec.eq_of_toNat_eq (by simpa using h1)) h0
      · exact h1
    let s1 : State := { s with diu.mbSize := s.diu.blockSize / s.diu.mbCount, diu.run := f }
    obtain ⟨u, hu⟩ := emitAll_room (s := s1) (vs := [f]) hl hs (by simp [s1, he]; omega)
    have hu' : s1.emit f = some u := by
      simp only [emitAll] at hu
      cases hh : s1.emit f with
      | none => simp [hh] at hu
      | some v => simpa [hh] using hu
    obtain ⟨eu, w1, w2, w3⟩ := emit_some hu'
    rw [hu', orOutside_some] at h
    have hem : s1.diu.emitted + 1 = (1 : Word) := by simp [s1, he]
    refine ⟨_, h, ?_⟩
    have E : u.env = s.env := by rw [eu]
    have R : u.regs = s.regs := by rw [eu]
    have M : u.micro = s.micro := by rw [eu]
    refine ⟨by rw [E]; exact hl, ?_, ?_, ?_⟩
    · refine ⟨?_, ?_, ?_, ?_, ?_, ?_⟩
      · show u.mem.src.wf u.env.inst.srcCap = true; rw [eu]; exact hm.src
      · show u.mem.dst.wf u.env.inst.dstCap = true; rw [E]; exact w1 hm.dst
      · show u.mem.ofs.wf (u.env.inst.lenCap + 1) = true; rw [eu]; exact hm.ofs
      · show u.dbr.pfx.wf u.env.inst.lenCap = true; rw [E]; exact w2 hm.pfx
      · show u.dbr.sfx.wf u.env.inst.lenCap = true; rw [E]; exact w3 hm.sfx
      · show u.diu.widths.wf (u.env.inst.maxBlockSize / 8) = true; rw [eu]; exact hm.widths
    · intro hq; exact absurd (show u.regs.status = .busy by rw [R]; exact hb) hq
    · intro _
      refine ⟨by show u.regs.srcLen.toNat ≤ u.env.inst.srcCap; rw [R, E]; exact h1,
        by show u.micro.vrCount ≤ 9; rw [M]; exact h2, ?_⟩
      by_cases hz : ((s.diu.total - 1).setWidth 32 : Word) = 0
      · simp only [hz, if_true]
        refine ⟨?_, ?_, ?_, ?_, ?_⟩
        · rw [eu]; exact hs
        · rw [eu]; simp only [hem]; show 1 ≤ s.diu.sinkCap.toNat; omega
        · show u.regs.srcCur.toNat ≤ u.regs.srcLen.toNat; rw [R]; exact hc
        · show u.regs.dstLen = 0; rw [R]; exact hd
        · show u.micro.rawLeft = 0; rw [M]; exact hr
      · simp only [hz, if_false]
        refine ⟨?_, ⟨?_, ?_, ?_, ?_⟩, ?_, ?_, ?_⟩
        · rw [eu]; exact hs
        · rw [eu]; exact hn
        · rw [eu]
        · exact hz
        · rw [eu]; simp only [hem, hrem]; show 1 + (s.diu.total.toNat - 1) = s.diu.total.toNat; omega
        · show u.regs.srcCur.toNat ≤ u.regs.srcLen.toNat; rw [R]; exact hc
        · show u.regs.dstLen = 0; rw [R]; exact hd
        · show u.micro.rawLeft = 0; rw [M]; exact hr

/-- A completed varint field, in D_HDR or D_BLK. -/
theorem takeField_inv {s : State} (u : DWord) (hl : s.env.inst.Legal) (hm : s.MemoriesOk) (hb : s.isBusy)
    (hok : s.BusyOk) (hc : s.CursorOk) (hd : s.diu.dstate = .hdr ∨ s.diu.dstate = .blk) :
    ∃ t, takeField u s = .next t ∧ t.Inv := by
  obtain ⟨h1, h2, h3⟩ := hok
  have mem : ∀ {t : State}, t.mem = s.mem → t.env = s.env → t.dbr = s.dbr → t.diu.widths = s.diu.widths → t.MemoriesOk := by
    intro t e1 e2 e3 e4
    exact ⟨by rw [e1, e2]; exact hm.src, by rw [e1, e2]; exact hm.dst, by rw [e1, e2]; exact hm.ofs,
      by rw [e3, e2]; exact hm.pfx,
      by rw [e3, e2]; exact hm.sfx, by rw [e4, e2]; exact hm.widths⟩
  rcases takeField_cases u s with ⟨d, _, h⟩ | ⟨d, _, h⟩ | ⟨d, _, h⟩ | ⟨d, _, h⟩ | ⟨d, h⟩ | ⟨d1, d2, _⟩
  · rw [d] at h3; obtain ⟨a, b, c, e, f⟩ := h3
    exact ⟨_, h, hl, mem rfl rfl rfl rfl, fun hq => absurd hb hq, fun _ => ⟨h1, h2, by
      simp only [d]; exact ⟨a, b, c, e, f⟩⟩⟩
  · rw [d] at h3; obtain ⟨a, b, c, e, f⟩ := h3
    exact ⟨_, h, hl, mem rfl rfl rfl rfl, fun hq => absurd hb hq, fun _ => ⟨h1, h2, by
      simp only [d]; exact ⟨a, b, c, e, f⟩⟩⟩
  · rw [d] at h3; obtain ⟨a, b, c, e, f⟩ := h3
    exact ⟨_, h, hl, mem rfl rfl rfl rfl, fun hq => absurd hb hq, fun _ => ⟨h1, h2, by
      simp only [d]; exact ⟨a, b, c, e, f⟩⟩⟩
  · rw [d] at h3; obtain ⟨a, b, c, e, f⟩ := h3
    rw [h]
    exact finishHeader_inv _ hl hm hb h1 h2 a b c e hc
  · rw [d] at h3; obtain ⟨a, b, c, e, f⟩ := h3
    refine ⟨_, h, hl, mem rfl rfl rfl rfl, fun hq => absurd hb hq, fun _ => ⟨h1, h2, a,
      ⟨b.legal, b.size, b.some_left, b.counted⟩, c, e, f, ?_⟩⟩
    show 0 < _
    exact (headerError_mbCount b.legal).1
  · rcases hd with hd | hd
    · exact absurd hd d1
    · exact absurd hd d2

/-- Moving the cursor inside the page keeps what a varint place needs. -/
theorem advance_ok {s : State} {n : Nat} (hok : s.BusyOk) (hd : s.diu.dstate = .hdr ∨ s.diu.dstate = .blk)
    (hn : n ≤ s.page.length) (hpos : 0 < n) :
    (s.advance n).BusyOk ∧ (s.advance n).CursorOk := by
  have hcur : (s.advance n).regs.srcCur.toNat = s.regs.srcCur.toNat + n := by
    rw [length_page] at hn
    have := s.regs.srcLen.isLt
    simp only [advance_srcCur]
    exact Word.toNat_add_ofNat (by omega)
  have hco : (s.advance n).CursorOk := by
    show (s.advance n).regs.srcCur.toNat ≤ _
    rw [hcur, advance_srcLen]
    rw [length_page] at hn; omega
  refine ⟨?_, hco⟩
  obtain ⟨h1, h2, h3⟩ := hok
  refine ⟨h1, h2, ?_⟩
  rcases hd with hd | hd
  · simp only [advance_diu, hd] at h3 ⊢
    exact ⟨h3.1, h3.2.1, h3.2.2.1, h3.2.2.2.1, fun _ => hco⟩
  · simp only [advance_diu, hd] at h3 ⊢
    exact ⟨h3.1, ⟨h3.2.1.legal, h3.2.1.size, h3.2.1.some_left, h3.2.1.counted⟩, hco, h3.2.2.2⟩

theorem varint_size_pos (v : Varint) : 0 < v.size := Nat.succ_pos _

/-- Ending a varint keeps what its place needs. -/
theorem clear_ok {s : State} (hok : s.BusyOk) (hd : s.diu.dstate = .hdr ∨ s.diu.dstate = .blk) : s.clearVarint.BusyOk := by
  obtain ⟨h1, h2, h3⟩ := hok
  refine ⟨h1, by simp, ?_⟩
  rcases hd with hd | hd
  · simp only [clearVarint_diu, hd] at h3 ⊢
    exact h3
  · simp only [clearVarint_diu, hd] at h3 ⊢
    exact ⟨h3.1, ⟨h3.2.1.legal, h3.2.1.size, h3.2.1.some_left, h3.2.1.counted⟩, h3.2.2⟩

theorem mem_of {s t : State} (hm : s.MemoriesOk) (e1 : t.mem = s.mem) (e2 : t.env = s.env) (e3 : t.dbr = s.dbr)
    (e4 : t.diu.widths = s.diu.widths) : t.MemoriesOk := 
    ⟨by rw [e1, e2]; exact hm.src, by rw [e1, e2]; exact hm.dst, by rw [e1, e2]; exact hm.ofs,
      by rw [e3, e2]; exact hm.pfx,
      by rw [e3, e2]; exact hm.sfx, by rw [e4, e2]; exact hm.widths⟩

/-- The elements that are one varint or one byte of one. -/
theorem exec_fields_inv {s : State} {i : Instr} (hI : s.Inv) (ha : s.At i) (hp : i.taken ≤ s.page.length) 
   (hi : (∃ g, i = .varintCont g) ∨ (∃ g, i = .varintLast g) ∨ (∃ g, i = .varintLast10 g) ∨ (∃ v, i = .uvarint v) ∨ (∃ v, i = .zzvarint v) ∨ (∃ v, i = .blkMin v)) :
    ∃ t, exec i s = .next t ∧ t.Inv := by
  obtain ⟨p, hpos, hfit⟩ := ha.pos
  have hb := position_busy hpos
  have hok := hI.running hb
  rcases hi with ⟨g, rfl⟩ | ⟨g, rfl⟩ | ⟨g, rfl⟩ | ⟨g, rfl⟩ | ⟨g, rfl⟩ | ⟨g, rfl⟩
  · cases p <;> simp [Instr.fits] at hfit
    obtain ⟨_, rfl, hd⟩ := position_varintByte hpos
    obtain ⟨h1, h2⟩ := advance_ok hok hd hp Nat.one_pos
    simp only [exec, execVarintCont, inPlace_at ha]
    refine ⟨_, rfl, hI.legal, mem_of hI.memories rfl rfl rfl rfl, fun hq => absurd hb hq, fun _ => ⟨h1.1,
      by show _ + 1 ≤ 9; omega, ?_⟩⟩
    have h3 := h1.2.2
    rcases hd with hd | hd
    · simp only [advance_diu, hd] at h3 ⊢
      exact h3
    · simp only [advance_diu, hd] at h3 ⊢
      exact ⟨h3.1, ⟨h3.2.1.legal, h3.2.1.size, h3.2.1.some_left, h3.2.1.counted⟩, h3.2.2⟩
  · cases p <;> simp [Instr.fits] at hfit
    obtain ⟨_, rfl, hd⟩ := position_varintByte hpos
    obtain ⟨h1, h2⟩ := advance_ok hok hd hp Nat.one_pos
    simp only [exec, execVarintLast, inPlace_at ha]
    exact takeField_inv _ hI.legal (mem_of hI.memories rfl rfl rfl rfl) hb (clear_ok h1 hd) h2 hd
  · cases p <;> simp [Instr.fits] at hfit
    obtain ⟨_, rfl, hd⟩ := position_varintByte hpos
    obtain ⟨h1, h2⟩ := advance_ok hok hd hp Nat.one_pos
    simp only [exec, execVarintLast10, inPlace_at ha]
    exact takeField_inv _ hI.legal (mem_of hI.memories rfl rfl rfl rfl) hb (clear_ok h1 hd) h2 hd
  · cases p <;> simp [Instr.fits] at hfit
    obtain ⟨_, hd, _⟩ := position_uvarint hpos
    obtain ⟨h1, h2⟩ := advance_ok hok (.inl hd) hp (varint_size_pos _)
    simp only [exec, execUvarint, inPlace_at ha]
    exact takeField_inv _ hI.legal (mem_of hI.memories rfl rfl rfl rfl) hb h1 h2 (.inl hd)
  · cases p <;> simp [Instr.fits] at hfit
    obtain ⟨_, hd, _⟩ := position_zzvarint hpos
    obtain ⟨h1, h2⟩ := advance_ok hok (.inl hd) hp (varint_size_pos _)
    simp only [exec, execZzvarint, inPlace_at ha]
    exact takeField_inv _ hI.legal (mem_of hI.memories rfl rfl rfl rfl) hb h1 h2 (.inl hd)
  · cases p <;> simp [Instr.fits] at hfit
    obtain ⟨_, hd⟩ := position_blkMin hpos
    obtain ⟨h1, h2⟩ := advance_ok hok (.inr hd) hp (varint_size_pos _)
    simp only [exec, execBlkMin, inPlace_at ha]
    exact takeField_inv _ hI.legal (mem_of hI.memories rfl rfl rfl rfl) hb h1 h2 (.inr hd)

/-- The header in one piece. -/
theorem exec_hdr_inv {s : State} {b m t f : Varint} (hI : s.Inv) (ha : s.At (.hdr b m t f)) (hp :
    (Instr.hdr b m t f).taken ≤ s.page.length) :
    ∃ u, exec (.hdr b m t f) s = .next u ∧ u.Inv := by
  obtain ⟨p, hpos, hfit⟩ := ha.pos
  cases p <;> simp [Instr.fits] at hfit
  obtain ⟨hb, hd⟩ := position_hdr hpos
  have hok := hI.running hb
  obtain ⟨h1, h2⟩ := advance_ok hok (.inl hd) hp (by simp [Instr.taken, Varint.size])
  simp only [exec, execHdr, inPlace_at ha]
  have h3 := h1.2.2
  simp only [advance_diu, hd] at h3
  exact finishHeader_inv _ hI.legal (mem_of hI.memories rfl rfl rfl rfl) hb h1.1 h1.2.1 h3.1 rfl h3.2.2.1 h3.2.2.2.1 h2

/-- A width byte (R114). -/
theorem exec_width_inv {s : State} {w : Byte} (hI : s.Inv) (ha : s.At (.blkWidth w)) (hp : 1 ≤ s.page.length) :
    ∃ u, exec (.blkWidth w) s = .next u ∧ u.Inv := by
  obtain ⟨p, hpos, hfit⟩ := ha.pos
  cases p <;> simp [Instr.fits] at hfit
  obtain ⟨hb, hd⟩ := position_blkWidth hpos
  obtain ⟨h1, h2, h3⟩ := hI.running hb
  simp only [hd] at h3
  obtain ⟨a, bo, c, d, e, f⟩ := h3
  obtain ⟨m0, m1⟩ := headerError_mbCount bo.legal
  have hlt : s.micro.widthIdx < s.env.inst.maxBlockSize / 8 := by omega
  have hcur : (s.regs.srcCur + BitVec.ofNat 32 1).toNat = s.regs.srcCur.toNat + 1 := by
    rw [length_page] at hp
    have := s.regs.srcLen.isLt
    exact Word.toNat_add_ofNat (by omega)
  have hco : (s.regs.srcCur + BitVec.ofNat 32 1).toNat ≤ s.regs.srcLen.toNat := by
    rw [hcur]; rw [length_page] at hp; omega
  simp only [exec, execBlkWidth, inPlace_at ha, hlt, if_true]
  have hmem : ∀ u : State, u.mem = s.mem → u.env = s.env → u.dbr = s.dbr → u.diu.widths = s.diu.widths.write s.micro.widthIdx w → u.MemoriesOk := by
    intro u e1 e2 e3 e4
    exact ⟨by rw [e1, e2]; exact hI.memories.src, by rw [e1, e2]; exact hI.memories.dst,
      by rw [e1, e2]; exact hI.memories.ofs, by rw [e3, e2]; exact hI.memories.pfx,
      by rw [e3, e2]; exact hI.memories.sfx, by rw [e4, e2]; exact Memory.wf_write hI.memories.widths hlt _⟩
  split
  · next hlast =>
    refine ⟨_, rfl, hI.legal, hmem _ rfl rfl rfl rfl, fun hq => absurd hb hq, fun _ => ⟨h1, h2, a,
      ⟨bo.legal, bo.size, bo.some_left, bo.counted⟩, hco, d, e, ?_⟩⟩
    exact ⟨m0, Nat.zero_le _⟩
  · next hlast =>
    refine ⟨_, rfl, hI.legal, hmem _ rfl rfl rfl rfl, fun hq => absurd hb hq, fun _ => ⟨h1, h2, ?_⟩⟩
    simp only [advance_diu, hd]
    refine ⟨a, ⟨bo.legal, bo.size, bo.some_left, bo.counted⟩, hco, d, e, ?_⟩
    show s.micro.widthIdx + 1 < s.diu.mbCount.toNat
    omega

/-- A miniblock (R136, R137) whose payload is whole when the page holds it. -/
theorem exec_mb_inv {s : State} {bs : List Byte} (hI : s.Inv) (ha : s.At (.mb bs)) 
    (hfull : s.regs.srcCur.toNat + payloadBytes s.diu.mbSize.toNat s.mbWidth ≤ s.regs.srcLen.toNat → bs.length = payloadBytes s.diu.mbSize.toNat s.mbWidth) :
    ∃ u, exec (.mb bs) s = .next u ∧ u.Inv := by
  obtain ⟨p, hpos, hfit⟩ := ha.pos
  cases p <;> simp [Instr.fits] at hfit
  obtain ⟨hb, hd, hn⟩ := position_mb hpos
  obtain ⟨h1, h2, h3⟩ := hI.running hb
  simp only [hd] at h3
  obtain ⟨a, bo, c, d, e, f⟩ := h3
  simp only [exec, execMb, inPlace_at ha]
  split
  · exact ⟨_, rfl, raise_inv hI.legal hI.memories _⟩
  · split
    · exact ⟨_, rfl, raise_inv hI.legal hI.memories _⟩
    · next hw hlen =>
      have hle : s.regs.srcCur.toNat + payloadBytes s.diu.mbSize.toNat s.mbWidth ≤ s.regs.srcLen.toNat := by omega
      simp only [hfull hle, ne_eq, not_true_eq_false, if_false]
      obtain ⟨_, _, _, _, h8, ht, hbs, hcap⟩ := headerError_none bo.legal
      obtain ⟨m0, m1⟩ := headerError_mbCount bo.legal
      rw [← bo.size] at h8
      have hc := bo.counted
      generalize hvs : accumulateAll s.diu.wSel s.diu.minDelta s.diu.run (fields bs s.mbWidth (min s.diu.mbSize.toNat s.diu.remaining.toNat)) = vs
      have hvl : vs.length = min s.diu.mbSize.toNat s.diu.remaining.toNat := by rw [← hvs]; simp
      obtain ⟨t, ht'⟩ := emitAll_room (vs := vs) hI.legal a (by omega)
      obtain ⟨et, w1, w2, w3⟩ := emitAll_some ht'
      rw [ht', orOutside_some]
      refine ⟨_, rfl, ?_⟩
      have E : t.env = s.env := by rw [et]
      have R : t.regs = s.regs := by rw [et]
      have M : t.micro = s.micro := by rw [et]
      have D : t.diu = { s.diu with emitted := s.diu.emitted + BitVec.ofNat 32 vs.length } := by rw [et]
      have B : t.dbr.bstate = s.dbr.bstate := by rw [et]
      have Np : t.dbr.nPfx = s.dbr.nPfx := by rw [et]
      have hcur : (s.regs.srcCur + BitVec.ofNat 32 (payloadBytes s.diu.mbSize.toNat s.mbWidth)).toNat = s.regs.srcCur.toNat + payloadBytes s.diu.mbSize.toNat s.mbWidth := by
        have := s.regs.srcLen.isLt
        exact Word.toNat_add_ofNat (by omega)
      have hcap' := s.diu.sinkCap.isLt
      have hem : t.diu.emitted.toNat = s.diu.emitted.toNat + vs.length := by
        rw [et]; exact Word.toNat_add_ofNat (by omega)
      have hrem : (s.diu.remaining - BitVec.ofNat 32 (min s.diu.mbSize.toNat s.diu.remaining.toNat)).toNat = s.diu.remaining.toNat - vs.length := by
        have := s.diu.remaining.isLt
        rw [BitVec.toNat_sub, BitVec.toNat_ofNat, hvl]; omega
      refine ⟨by show t.env.inst.Legal; rw [E]; exact hI.legal, ?_, ?_, ?_⟩
      · refine ⟨?_, ?_, ?_, ?_, ?_, ?_⟩
        · show t.mem.src.wf t.env.inst.srcCap = true; rw [et]; exact hI.memories.src
        · show t.mem.dst.wf t.env.inst.dstCap = true; rw [E]; exact w1 hI.memories.dst
        · show t.mem.ofs.wf (t.env.inst.lenCap + 1) = true; rw [et]; exact hI.memories.ofs
        · show t.dbr.pfx.wf t.env.inst.lenCap = true; rw [E]; exact w2 hI.memories.pfx
        · show t.dbr.sfx.wf t.env.inst.lenCap = true; rw [E]; exact w3 hI.memories.sfx
        · show t.diu.widths.wf (t.env.inst.maxBlockSize / 8) = true; rw [et]; exact hI.memories.widths
      · intro hq; exact absurd (show t.regs.status = .busy by rw [R]; exact hb) hq
      · intro _
        refine ⟨by show t.regs.srcLen.toNat ≤ t.env.inst.srcCap; rw [R, E]; exact h1,
          by show t.micro.vrCount ≤ 9; rw [M]; exact h2, ?_⟩
        have hsink : ∀ u : State, u.env = s.env → u.dbr = t.dbr → u.diu.sink = s.diu.sink → u.diu.wSel = s.diu.wSel → u.diu.sinkCap = s.diu.sinkCap → u.SinkOk := by
          intro u e1 e2 e3 e4 e5
          refine ⟨by rw [e1, e3, e4, e5]; exact a.1, ?_⟩
          have := a.2
          rw [e1, e2, e3, e4, B, Np]; exact this
        have hco : ∀ u : State, u.regs.srcCur = s.regs.srcCur + BitVec.ofNat 32 (payloadBytes s.diu.mbSize.toNat s.mbWidth) → u.regs.srcLen = s.regs.srcLen → u.CursorOk := by
          intro u e1 e2
          show u.regs.srcCur.toNat ≤ u.regs.srcLen.toNat
          rw [e1, e2, hcur]; exact hle
        dsimp only
        unfold afterMiniblock
        by_cases hz : (s.diu.remaining - BitVec.ofNat 32 (min s.diu.mbSize.toNat s.diu.remaining.toNat)) = 0
        · simp only [hz, if_true]
          refine ⟨hsink _ E rfl (by simp [D]) (by simp [D]) (by simp [D]), ?_, hco _ (by simp [R]) (by simp [R]), ?_, ?_⟩
          · show t.diu.emitted.toNat ≤ t.diu.sinkCap.toNat
            rw [hem, show t.diu.sinkCap = s.diu.sinkCap by rw [D]]; omega
          · show t.regs.dstLen = 0; rw [R]; exact d
          · show t.micro.rawLeft = 0; rw [M]; exact e
        · have hblk : ∀ u : State, u.env = s.env → u.diu.sinkCap = s.diu.sinkCap → u.diu.blockSize = s.diu.blockSize → u.diu.mbCount = s.diu.mbCount → u.diu.total = s.diu.total → u.diu.mbSize = s.diu.mbSize → u.diu.emitted = t.diu.emitted →
              u.diu.remaining = (s.diu.remaining - BitVec.ofNat 32 (min s.diu.mbSize.toNat s.diu.remaining.toNat)) → u.BlocksOk := by
            intro u e1 e2 e3 e4 e5 e6 e7 e8
            exact ⟨by rw [e1, e2, e3, e4, e5]; exact bo.legal, by rw [e6, e3, e4]; exact bo.size,
              by rw [e8]; exact hz, by rw [e7, e8, e5, hem, hrem]; omega⟩
          have hleft : 0 < s.diu.remaining.toNat := Nat.pos_of_ne_zero fun h => bo.some_left (BitVec.eq_of_toNat_eq h)
          have hidx : (s.diu.mbIdx + 1).toNat = s.diu.mbIdx.toNat + 1 := Word.toNat_add_one (by omega)
          simp only [hz, if_false]
          by_cases hmb : (s.diu.mbIdx + 1).toNat = s.diu.mbCount.toNat
          · simp only [hmb, if_true]
            refine ⟨hsink _ E rfl (by simp [D]) (by simp [D]) (by simp [D]), hblk _ E (by simp [D]) (by simp [D]) (by simp [D]) (by simp [D]) (by simp [D]) rfl rfl, hco _ (by simp [R]) (by simp [R]), ?_, ?_⟩
            · show t.regs.dstLen = 0; rw [R]; exact d
            · show t.micro.rawLeft = 0; rw [M]; exact e
          · simp only [hmb, if_false]
            refine ⟨hsink _ E rfl (by simp [D]) (by simp [D]) (by simp [D]), hblk _ E (by simp [D]) (by simp [D]) (by simp [D]) (by simp [D]) (by simp [D]) rfl rfl, hco _ (by simp [R]) (by simp [R]), ?_, ?_, ?_⟩
            · show t.regs.dstLen = 0; rw [R]; exact d
            · show t.micro.rawLeft = 0; rw [M]; exact e
            · show (s.diu.mbIdx + 1).toNat < t.diu.mbCount.toNat ∧ (s.diu.mbIdx + 1).toNat ≤ t.diu.emitted.toNat
              rw [show t.diu.mbCount = s.diu.mbCount by rw [D], hem]; omega

/-- A suffix byte (R165). -/
theorem exec_raw_inv {s : State} {b : Byte} (hI : s.Inv) (ha : s.At (.raw b)) :
    ∃ u, exec (.raw b) s = .next u ∧ u.Inv := by
  obtain ⟨p, hpos, hfit⟩ := ha.pos
  cases p <;> simp [Instr.fits] at hfit
  obtain ⟨hb, hd, hv, hr⟩ := position_raw hpos
  obtain ⟨h1, h2, h3⟩ := hI.running hb
  simp only [hd, hv] at h3
  have hr' := ne_zero_pos hr
  have hfits := h3.fits
  have hsuf := h3.suffix
  have := s.regs.srcLen.isLt
  have hdcap := hI.legal.2.1
  simp only [exec, execRaw, inPlace_at ha]
  rw [storeDst_of_le (by simp only [List.length_cons, List.length_nil]; omega), orOutside_some]
  refine ⟨_, rfl, ?_⟩
  have hcur : (s.regs.srcCur + BitVec.ofNat 32 1).toNat = s.regs.srcCur.toNat + 1 := Word.toNat_add_ofNat (by omega)
  have hdl : (s.regs.dstLen + 1).toNat = s.regs.dstLen.toNat + 1 := Word.toNat_add_one (by omega)
  have hrl : (s.micro.rawLeft - 1).toNat = s.micro.rawLeft.toNat - 1 := by
    have := s.micro.rawLeft.isLt
    rw [BitVec.toNat_sub, show (1 : Word).toNat = 1 from rfl]; omega
  have hmem : ∀ u : State, u.mem = { s.mem with dst := s.mem.dst.writeList s.regs.dstLen.toNat [b] } → u.env = s.env → u.dbr.pfx = s.dbr.pfx → u.dbr.sfx = s.dbr.sfx → u.diu = s.diu → u.MemoriesOk := by
    intro u e1 e2 e3 e5 e4
    exact ⟨by rw [e1, e2]; exact hI.memories.src, by rw [e1, e2]; exact Memory.wf_writeList _ hI.memories.dst (by simp only [List.length_cons, List.length_nil]; omega), by rw [e1, e2]; exact hI.memories.ofs, by rw [e3, e2]; exact hI.memories.pfx,
      by rw [e5, e2]; exact hI.memories.sfx, by rw [e4, e2]; exact hI.memories.widths⟩
  unfold nextValue
  split
  · next hz =>
    have hz' : s.micro.rawLeft.toNat - 1 = 0 := by
      have := congrArg BitVec.toNat hz
      rw [← hrl]; exact this
    refine ⟨hI.legal, hmem _ rfl rfl rfl rfl rfl, fun hq => absurd hb hq, fun _ => ⟨h1, h2, ?_⟩⟩
    simp only [advance_diu, hd]
    by_cases hi : s.dbr.idx = s.dbr.nPfx
    · simp only [advance_dbr, hi, if_true]
      refine ⟨h3.count, ?_, ?_⟩
      · show (s.regs.srcCur + BitVec.ofNat 32 1).toNat ≤ s.regs.srcLen.toNat; omega
      · show (s.regs.dstLen + 1).toNat ≤ s.env.inst.dstCap; omega
    · simp only [advance_dbr, hi, if_false]
      have hii := h3.index
      have : s.dbr.idx.toNat ≠ s.dbr.nPfx.toNat := fun h => hi (BitVec.eq_of_toNat_eq h)
      refine ⟨h3.count, h3.index, fun _ => by show s.dbr.idx.toNat < s.dbr.nPfx.toNat; omega, ?_, ?_, ?_⟩
      · show s.dbr.prevOff.toNat + s.dbr.prevLen.toNat = (s.regs.dstLen + 1).toNat + (s.micro.rawLeft - 1).toNat
        rw [hdl, hrl, h3.arena]; omega
      · show (s.regs.dstLen + 1).toNat + (s.micro.rawLeft - 1).toNat ≤ _
        rw [hdl, hrl]; show _ ≤ s.env.inst.dstCap; omega
      · show (s.regs.srcCur + BitVec.ofNat 32 1).toNat + (s.micro.rawLeft - 1).toNat ≤ s.regs.srcLen.toNat
        rw [hcur, hrl]; omega
  · next hz =>
    refine ⟨hI.legal, hmem _ rfl rfl rfl rfl rfl, fun hq => absurd hb hq, fun _ => ⟨h1, h2, ?_⟩⟩
    simp only [advance_diu, hd, advance_dbr, hv]
    refine ⟨h3.count, h3.index, fun h => absurd h hz, ?_, ?_, ?_⟩
    · show s.dbr.prevOff.toNat + s.dbr.prevLen.toNat = (s.regs.dstLen + 1).toNat + (s.micro.rawLeft - 1).toNat
      rw [hdl, hrl, h3.arena]; omega
    · show (s.regs.dstLen + 1).toNat + (s.micro.rawLeft - 1).toNat ≤ _
      rw [hdl, hrl]; show _ ≤ s.env.inst.dstCap; omega
    · show (s.regs.srcCur + BitVec.ofNat 32 1).toNat + (s.micro.rawLeft - 1).toNat ≤ s.regs.srcLen.toNat
      rw [hcur, hrl]; omega

/-- A value of the DBR (R164, R165). -/
theorem valueStep_inv {s : State} (hI : s.Inv) (hb : s.isBusy) (hd : s.diu.dstate = .idle)
    (hv : s.dbr.bstate = .val) (hr : s.micro.rawLeft = 0) :
    ∃ u, valueStep s = .next u ∧ u.Inv := by
  obtain ⟨h1, h2, h3⟩ := hI.running hb
  simp only [hd, hv] at h3
  unfold valueStep
  cases hc : s.checkValue with
  | some e => exact ⟨_, rfl, raise_inv hI.legal hI.memories _⟩
  | none =>
    obtain ⟨n1, n2, hp, hq, hcap⟩ := valueError_none hc
    have hidx := h3.some_left hr
    have hcnt := h3.count
    have har := h3.arena
    have hsf := h3.suffix
    have hl := hI.legal
    obtain ⟨_, hdc, hlc, _⟩ := hl
    have hbg := beginValue_of_le (s := s) (by omega) (by omega)
    have e0 : s.micro.rawLeft.toNat = 0 := by rw [hr]; rfl
    have hlen := s.regs.srcLen.isLt
    have hdl : (s.regs.dstLen + s.prefixLen).toNat = s.regs.dstLen.toNat + s.prefixLen.toNat := by
      rw [BitVec.toNat_add]; omega
    have hpl : (s.prefixLen + s.suffixLen).toNat = s.prefixLen.toNat + s.suffixLen.toNat := by
      rw [BitVec.toNat_add]; omega
    have hix : (s.dbr.idx + 1).toNat = s.dbr.idx.toNat + 1 := Word.toNat_add_one (by omega)
    -- the state after beginValue
    generalize hbv : s.beginValue = r at hbg
    subst hbg
    have hm1 : (s.mem.dst.writeList s.regs.dstLen.toNat (s.mem.dst.readList .dst s.dbr.prevOff.toNat s.prefixLen.toNat)).wf s.env.inst.dstCap = true :=
      Memory.wf_writeList _ hI.memories.dst (by simp; omega)
    have hm2 : (s.mem.ofs.write s.dbr.idx.toNat s.regs.dstLen).wf (s.env.inst.lenCap + 1) = true :=
      Memory.wf_write hI.memories.ofs (by omega) _
    have key : ∃ u, s.emitValue = some u ∧ u.Inv := by
      have part : ∀ (g : s.beginValue.map nextValue = s.emitValue), ∃ u, s.emitValue = some u ∧ u.Inv := by
        intro g
        rw [← g, hbv, Option.map_some]
        refine ⟨_, rfl, ?_⟩
        unfold nextValue
        dsimp only
        split
        · next hz =>
          have hq0 : s.suffixLen.toNat = 0 := by rw [hz]; rfl
          refine ⟨hI.legal, ⟨hI.memories.src, hm1, hm2, hI.memories.pfx, hI.memories.sfx, hI.memories.widths⟩,
            fun hq => absurd hb hq, fun _ => ⟨h1, h2, ?_⟩⟩
          simp only [hd]
          by_cases hi : s.dbr.idx + 1 = s.dbr.nPfx
          · simp only [hi, if_true]
            refine ⟨hcnt, ?_, ?_⟩
            · show s.regs.srcCur.toNat ≤ s.regs.srcLen.toNat; omega
            · show (s.regs.dstLen + s.prefixLen).toNat ≤ s.env.inst.dstCap; omega
          · simp only [hi, if_false]
            have : (s.dbr.idx + 1).toNat ≠ s.dbr.nPfx.toNat := fun h => hi (BitVec.eq_of_toNat_eq h)
            refine ⟨hcnt, ?_, fun _ => ?_, ?_, ?_, ?_⟩
            · show (s.dbr.idx + 1).toNat ≤ s.dbr.nPfx.toNat; omega
            · show (s.dbr.idx + 1).toNat < s.dbr.nPfx.toNat; omega
            · show s.regs.dstLen.toNat + (s.prefixLen + s.suffixLen).toNat = (s.regs.dstLen + s.prefixLen).toNat + s.suffixLen.toNat; omega
            · show (s.regs.dstLen + s.prefixLen).toNat + s.suffixLen.toNat ≤ s.env.inst.dstCap; omega
            · show s.regs.srcCur.toNat + s.suffixLen.toNat ≤ s.regs.srcLen.toNat; omega
        · next hz =>
          have hq0 : 0 < s.suffixLen.toNat := ne_zero_pos hz
          refine ⟨hI.legal, ⟨hI.memories.src, hm1, hm2, hI.memories.pfx, hI.memories.sfx, hI.memories.widths⟩,
            fun hq => absurd hb hq, fun _ => ⟨h1, h2, ?_⟩⟩
          simp only [hd, hv]
          refine ⟨hcnt, ?_, fun h => absurd h hz, ?_, ?_, ?_⟩
          · show (s.dbr.idx + 1).toNat ≤ s.dbr.nPfx.toNat; omega
          · show s.regs.dstLen.toNat + (s.prefixLen + s.suffixLen).toNat = (s.regs.dstLen + s.prefixLen).toNat + s.suffixLen.toNat; omega
          · show (s.regs.dstLen + s.prefixLen).toNat + s.suffixLen.toNat ≤ s.env.inst.dstCap; omega
          · show s.regs.srcCur.toNat + s.suffixLen.toNat ≤ s.regs.srcLen.toNat; omega
      have whole : ∀ (g : (s.beginValue.bind copySuffix).map nextValue = s.emitValue), ∃ u, s.emitValue = some u ∧ u.Inv := by
        intro g
        rw [← g, hbv, Option.bind_some, copySuffix_of_le (by show (s.regs.dstLen + s.prefixLen).toNat + s.suffixLen.toNat ≤ s.env.inst.dstCap; omega), Option.map_some]
        refine ⟨_, rfl, ?_⟩
        have hdl2 : (s.regs.dstLen + s.prefixLen + s.suffixLen).toNat = s.regs.dstLen.toNat + s.prefixLen.toNat + s.suffixLen.toNat := by
          rw [BitVec.toNat_add, hdl]; omega
        have hcu : (s.regs.srcCur + BitVec.ofNat 32 s.suffixLen.toNat).toNat = s.regs.srcCur.toNat + s.suffixLen.toNat := Word.toNat_add_ofNat (by omega)
        unfold nextValue
        dsimp only
        simp only [if_true]
        refine ⟨hI.legal, ⟨hI.memories.src, Memory.wf_writeList _ hm1 (by simp; show (s.regs.dstLen + s.prefixLen).toNat + _ ≤ _; omega), hm2, hI.memories.pfx, hI.memories.sfx, hI.memories.widths⟩, fun hq => absurd hb hq, fun _ => ⟨h1, h2, ?_⟩⟩
        simp only [hd]
        by_cases hi : s.dbr.idx + 1 = s.dbr.nPfx
        · simp only [hi, if_true]
          refine ⟨hcnt, ?_, ?_⟩
          · show (s.regs.srcCur + BitVec.ofNat 32 s.suffixLen.toNat).toNat ≤ s.regs.srcLen.toNat; omega
          · show (s.regs.dstLen + s.prefixLen + s.suffixLen).toNat ≤ s.env.inst.dstCap; omega
        · simp only [hi, if_false]
          have : (s.dbr.idx + 1).toNat ≠ s.dbr.nPfx.toNat := fun h => hi (BitVec.eq_of_toNat_eq h)
          refine ⟨hcnt, ?_, fun _ => ?_, ?_, ?_, ?_⟩
          · show (s.dbr.idx + 1).toNat ≤ s.dbr.nPfx.toNat; omega
          · show (s.dbr.idx + 1).toNat < s.dbr.nPfx.toNat; omega
          · show s.regs.dstLen.toNat + (s.prefixLen + s.suffixLen).toNat = (s.regs.dstLen + s.prefixLen + s.suffixLen).toNat + 0; omega
          · show (s.regs.dstLen + s.prefixLen + s.suffixLen).toNat + 0 ≤ s.env.inst.dstCap; omega
          · show (s.regs.srcCur + BitVec.ofNat 32 s.suffixLen.toNat).toNat + 0 ≤ s.regs.srcLen.toNat; omega
      cases hg : s.env.grain with
      | byte => exact part (by simp [emitValue, hg])
      | field => exact part (by simp [emitValue, hg])
      | rule => exact whole (by simp [emitValue, hg])
      | whole => exact whole (by simp [emitValue, hg])
    obtain ⟨u, hu, hui⟩ := key
    exact ⟨u, by rw [hu, orOutside_some], hui⟩

/-- The rules that read no stream element. -/
theorem sequence_inv {s : State} (hI : s.Inv) (hb : s.isBusy) (hp : s.position = none)
    : ∃ u, sequence s = .next u ∧ u.Inv := by
  obtain ⟨h1, h2, h3⟩ := hI.running hb
  have hb' : s.regs.status = .busy := hb
  cases hd : s.diu.dstate <;> simp only [hd] at h3
  case hdr => cases hg : s.env.grain <;> simp [position, hb', hd, hg] at hp <;> split at hp <;> simp at hp
  case blk => simp only [position, hb', hd] at hp; split at hp <;> simp at hp
  case wid => simp [position, hb', hd] at hp
  case pay => simp [position, hb', hd] at hp
  case done =>
    obtain ⟨a, b, c, d, e⟩ := h3
    obtain ⟨a1, a2⟩ := a
    cases hbs : s.dbr.bstate <;> simp only [hbs] at a2
    case idle =>
      refine ⟨_, show sequence s = .next s.endIntCommand by simp [sequence, hd, hbs], hI.legal, mem_of hI.memories rfl rfl ?_ rfl, fun _ => ⟨rfl, rfl⟩, fun h => ?_⟩
      · simp [endIntCommand, finish]; rw [← hbs]
      · simp [isBusy, endIntCommand] at h
    case pfx =>
      refine ⟨_, show sequence s = .next s.endPrefixRun by simp [sequence, hd, hbs], hI.legal,
        ⟨hI.memories.src, hI.memories.dst, hI.memories.ofs, hI.memories.pfx, hI.memories.sfx,
        hI.memories.widths⟩, fun hq => absurd hb hq, fun h => ⟨h1, by simp [endPrefixRun, Micro.reset], ?_⟩⟩
      simp only [endPrefixRun, startRun_dstate]
      refine ⟨⟨?_, rfl, rfl, ?_⟩, rfl, d, rfl, fun _ => c⟩
      · have := sinkCapOf_lt hI.legal .w32 .sfx
        show (BitVec.ofNat 32 (sinkCapOf s.env.inst .w32 .sfx)).toNat = _
        rw [BitVec.toNat_ofNat]; exact Nat.mod_eq_of_lt this
      · show s.diu.emitted.toNat ≤ s.env.inst.lenCap
        rw [a1, a2.1] at b; exact b
    case sfx =>
      refine ⟨_, show sequence s = .next s.endSuffixRun by simp [sequence, hd, hbs], hI.legal,
        ⟨hI.memories.src, hI.memories.dst, hI.memories.ofs, hI.memories.pfx, hI.memories.sfx,
        hI.memories.widths⟩, fun hq => absurd hb hq, fun h => ⟨h1, h2, ?_⟩⟩
      simp only [endSuffixRun]
      exact ⟨a2.2.2, c, d, e⟩
  case idle =>
    cases hbs : s.dbr.bstate <;> simp only [hbs] at h3
    case cmp =>
      obtain ⟨a, c, d, e⟩ := h3
      refine ⟨_, show sequence s = .next s.compareCounts by simp [sequence, hd, hbs], ?_⟩
      unfold compareCounts
      split
      · exact raise_inv hI.legal hI.memories _
      · refine ⟨hI.legal, ⟨hI.memories.src, hI.memories.dst, hI.memories.ofs, hI.memories.pfx,
          hI.memories.sfx, hI.memories.widths⟩, fun hq => absurd hb hq, fun h => ⟨h1, h2, ?_⟩⟩
        simp only [hd]
        by_cases hz : s.dbr.nPfx = 0
        · simp only [hz, if_true]
          refine ⟨by simp, c, ?_⟩
          show s.regs.dstLen.toNat ≤ _; rw [d]; simp
        · simp only [hz, if_false]
          refine ⟨a, by simp, fun _ => by simpa using ne_zero_pos hz, ?_, ?_, ?_⟩
          · simp [d, e]
          · simp [d, e]
          · simpa [e] using c
    case val =>
      have hr : s.micro.rawLeft = 0 := by
        by_contra hr
        simp [position, hb', hd, hbs] at hp
        exact hr hp
      rw [show sequence s = valueStep s by simp [sequence, hd, hbs]]
      exact valueStep_inv hI hb hd hbs hr
    case done =>
      obtain ⟨a, c, d⟩ := h3
      rw [show sequence s = closeOffsets s by simp [sequence, hd, hbs]]
      unfold closeOffsets
      rw [storeOfs_of_le a, orOutside_some]
      refine ⟨_, rfl, hI.legal, ⟨hI.memories.src, hI.memories.dst, Memory.wf_write hI.memories.ofs (by omega) _, hI.memories.pfx, hI.memories.sfx, hI.memories.widths⟩, fun _ => ⟨rfl, rfl⟩, fun h => ?_⟩
      simp [isBusy] at h

/-- DecodeInt as one operation. -/
theorem exec_pageInt_inv {s : State} {page : List Byte} (hI : s.Inv) (ha : s.At (.pageInt page))
    (hp : page.length ≤ s.page.length) : ∃ u, exec (.pageInt page) s = .next u ∧ u.Inv := by
  obtain ⟨p, hpos, hfit⟩ := ha.pos
  cases p <;> simp [Instr.fits] at hfit
  obtain ⟨hb, hd, _⟩ := position_pageInt hpos
  obtain ⟨h1, h2, h3⟩ := hI.running hb
  simp only [hd] at h3
  obtain ⟨a, b, c, d, e⟩ := h3
  simp only [exec, execPageInt, inPlace_at ha]
  cases hr : decodeIntPage s.env.inst s.diu.wSel s.diu.sinkCap.toNat page with
  | error e => exact ⟨_, rfl, raise_inv hI.legal hI.memories _⟩
  | ok r =>
    obtain ⟨vs, rest⟩ := r
    obtain ⟨hl, hmax, hrest⟩ := decodeIntPage_ok hr
    dsimp only
    let s1 : State := { s with diu.emitted := 0 }
    obtain ⟨t, ht⟩ := emitAll_room (s := s1) (vs := vs) hI.legal a (by simpa [s1] using hl)
    obtain ⟨et, w1, w2, w3⟩ := emitAll_some ht
    rw [show s.sinkSpace = s1.sinkSpace from rfl, show ({ s with diu.emitted := 0 } : State) = s1 from rfl, ht,
      orOutside_some]
    have E : t.env = s.env := by rw [et]
    have R : t.regs = s.regs := by rw [et]
    have M : t.micro = s.micro := by rw [et]
    have D : t.diu = { s.diu with emitted := BitVec.ofNat 32 vs.length } := by rw [et]; simp [s1]
    have B : t.dbr = { s.dbr with pfx := t.dbr.pfx, sfx := t.dbr.sfx } := by rw [et]
    have S : t.mem = { s.mem with dst := t.mem.dst } := by rw [et]
    have hcl := s.diu.sinkCap.isLt
    have hem : t.diu.emitted.toNat = vs.length := by
      rw [D]; simp only [BitVec.toNat_ofNat]; omega
    have hcur : (t.regs.srcCur + BitVec.ofNat 32 (page.length - rest.length)).toNat ≤ s.regs.srcLen.toNat := by
      have := s.regs.srcLen.isLt
      rw [length_page] at hp
      rw [R, Word.toNat_add_ofNat (by omega)]; omega
    refine ⟨_, rfl, by show t.env.inst.Legal; rw [E]; exact hI.legal, ?_, ?_, ?_⟩
    · refine ⟨?_, ?_, ?_, ?_, ?_, ?_⟩
      · show t.mem.src.wf t.env.inst.srcCap = true; rw [S, E]; exact hI.memories.src
      · show t.mem.dst.wf t.env.inst.dstCap = true; rw [E]; exact w1 hI.memories.dst
      · show t.mem.ofs.wf (t.env.inst.lenCap + 1) = true; rw [S, E]; exact hI.memories.ofs
      · show t.dbr.pfx.wf t.env.inst.lenCap = true; rw [E]; exact w2 hI.memories.pfx
      · show t.dbr.sfx.wf t.env.inst.lenCap = true; rw [E]; exact w3 hI.memories.sfx
      · show t.diu.widths.wf (t.env.inst.maxBlockSize / 8) = true; rw [D, E]; exact hI.memories.widths
    · intro hq; exact absurd (show t.regs.status = .busy by rw [R]; exact hb) hq
    · intro _
      refine ⟨by show t.regs.srcLen.toNat ≤ t.env.inst.srcCap; rw [R, E]; exact h1,
        by show t.micro.vrCount ≤ 9; rw [M]; exact h2, ?_, ?_, ?_, ?_, ?_⟩
      · obtain ⟨a1, a2⟩ := a
        refine ⟨?_, ?_⟩
        · show t.diu.sinkCap.toNat = sinkCapOf t.env.inst t.diu.wSel t.diu.sink
          rw [D, E]; exact a1
        · have k1 : t.dbr.bstate = s.dbr.bstate := by rw [B]
          have k2 : t.diu.sink = s.diu.sink := by rw [D]
          have k3 : t.diu.wSel = s.diu.wSel := by rw [D]
          have k4 : t.dbr.nPfx = s.dbr.nPfx := by rw [B]
          simp only [advance_dbr, advance_diu, advance_env, k1, k2, k3, k4, E]
          exact a2
      · show t.diu.emitted.toNat ≤ t.diu.sinkCap.toNat
        rw [hem, D]; exact hl
      · show (t.regs.srcCur + BitVec.ofNat 32 (page.length - rest.length)).toNat ≤ t.regs.srcLen.toNat
        rw [show t.regs.srcLen = s.regs.srcLen by rw [R]]; exact hcur
      · show t.regs.dstLen = 0; rw [R]; exact c
      · show t.micro.rawLeft = 0; rw [M]; exact d

/-- DecodeByteArray as one operation. -/
theorem exec_pageBa_inv {s : State} {page : List Byte} (hI : s.Inv) (ha : s.At (.pageBa page))
    (hp : page.length ≤ s.page.length) : ∃ u, exec (.pageBa page) s = .next u ∧ u.Inv := by
  obtain ⟨p, hpos, hfit⟩ := ha.pos
  cases p <;> simp [Instr.fits] at hfit
  obtain ⟨hb, hd, _⟩ := position_pageBa hpos
  obtain ⟨h1, h2, h3⟩ := hI.running hb
  simp only [exec, execPageBa, inPlace_at ha]
  cases hr : decodeBaPage s.env.inst page with
  | error e => exact ⟨_, rfl, raise_inv hI.legal hI.memories _⟩
  | ok r =>
    obtain ⟨hn, hpn, hqn, hdst, hrest⟩ := decodeBaPage_ok hr
    dsimp only
    have hlc := hI.legal.2.2.1
    have hdc := hI.legal.2.1
    rw [if_neg (by omega), storeDst_of_le (by omega), orOutside_some]
    have hcur : (s.regs.srcCur + BitVec.ofNat 32 (page.length - r.rest.length)).toNat ≤ s.regs.srcLen.toNat := by
      have := s.regs.srcLen.isLt
      rw [length_page] at hp
      rw [Word.toNat_add_ofNat (by omega)]; omega
    refine ⟨_, rfl, hI.legal, ⟨hI.memories.src, ?_, ?_, ?_, ?_, hI.memories.widths⟩, fun hq => absurd hb hq,
      fun _ => ⟨h1, h2, ?_, hcur, ?_⟩⟩
    · exact Memory.wf_writeList _ hI.memories.dst (by show 0 + _ ≤ s.env.inst.dstCap; omega)
    · exact Memory.wf_writeList _ hI.memories.ofs (by show 0 + _ ≤ s.env.inst.lenCap + 1; simp; omega)
    · exact Memory.wf_writeList _ hI.memories.pfx (by show 0 + _ ≤ s.env.inst.lenCap; omega)
    · exact Memory.wf_writeList _ hI.memories.sfx (by show 0 + _ ≤ s.env.inst.lenCap; omega)
    · show (BitVec.ofNat 32 r.values.length).toNat ≤ s.env.inst.lenCap
      rw [BitVec.toNat_ofNat]; omega
    · show (BitVec.ofNat 32 r.values.flatten.length).toNat ≤ s.env.inst.dstCap
      rw [BitVec.toNat_ofNat]; omega

/-- Issue of a decode command (R90) whose body starts from a state it is good for. -/
theorem issue_inv {s : State} {body : State → State} (hI : s.Inv)
    (h : ∀ t : State, t.env.inst.Legal → t.MemoriesOk → t.isBusy → t.regs.srcLen.toNat ≤ t.env.inst.srcCap → t.regs.dstLen = 0 → (body t).Inv) :
    ∃ u, issue body s = .next u ∧ u.Inv := by
  unfold issue
  split
  · exact ⟨_, rfl, hI⟩
  · dsimp only
    split
    · refine ⟨_, rfl, raise_inv ?_ ?_ _⟩
      · exact hI.legal
      · exact ⟨hI.memories.src, hI.memories.dst, hI.memories.ofs, hI.memories.pfx, hI.memories.sfx, hI.memories.widths⟩
    · next hc =>
      exact ⟨_, rfl, h _ hI.legal ⟨hI.memories.src, hI.memories.dst, hI.memories.ofs, hI.memories.pfx,
        hI.memories.sfx, hI.memories.widths⟩ rfl (by show s.regs.srcLen.toNat ≤ s.env.inst.srcCap; omega) rfl⟩

/-- The body of a decode command: a DIU run is started (R92, R93, R161). -/
theorem startRun_inv {t : State} {w : Width} {k : Sink} {b : BState} (hl : t.env.inst.Legal) (hm : t.MemoriesOk)
    (hb : t.isBusy) (h1 : t.regs.srcLen.toNat ≤ t.env.inst.srcCap) (h2 : t.regs.dstLen = 0)
    (hk : b = .idle ∧ k = .dst ∨ b = .pfx ∧ k = .pfx ∧ w = .w32) : (({ t with dbr.bstate := b } : State).startRun w k).Inv := by
  refine ⟨hl, ⟨hm.src, hm.dst, hm.ofs, hm.pfx, hm.sfx, hm.widths⟩, fun hq => absurd hb hq, fun _ => ⟨h1,
    by simp [Micro.reset], ?_⟩⟩
  simp only [startRun_dstate]
  refine ⟨⟨?_, ?_⟩, rfl, h2, rfl, ?_⟩
  · have := sinkCapOf_lt hl w k
    show (BitVec.ofNat 32 (sinkCapOf t.env.inst w k)).toNat = _
    rw [BitVec.toNat_ofNat]; exact Nat.mod_eq_of_lt this
  · simp only [startRun_dbr]
    rcases hk with ⟨rfl, rfl⟩ | ⟨rfl, rfl, rfl⟩
    · rfl
    · exact ⟨rfl, rfl⟩
  · rcases hk with ⟨rfl, rfl⟩ | ⟨rfl, rfl, rfl⟩ <;> simp

/-- An update made while not BUSY that leaves the DIU, the DBR and the parameters alone. -/
theorem quiet_inv {s t : State} (hI : s.Inv) (hr : s.Ready) (hr' : t.Ready) (e1 : t.env.inst = s.env.inst)
    (e2 : t.diu = s.diu) (e3 : t.dbr = s.dbr) (hm : t.MemoriesOk) : t.Inv :=
  ⟨by rw [e1]; exact hI.legal, hm, fun _ => by rw [e2, e3]; exact hI.quiet hr, fun h => absurd h hr'⟩

/-- What a running command promises does not depend on the memories or on the host's side. -/
theorem busyOk_congr {s t : State} (e1 : t.regs = s.regs) (e2 : t.diu = s.diu) (e3 : t.dbr = s.dbr)
    (e4 : t.micro = s.micro) (e5 : t.env.inst = s.env.inst) (h : s.BusyOk) : t.BusyOk := by
  obtain ⟨r, d, b, m, mi, ⟨i, g, ho, rd, f⟩⟩ := s
  obtain ⟨r', d', b', m', mi', ⟨i', g', ho', rd', f'⟩⟩ := t
  simp only at e1 e2 e3 e4 e5
  subst e1 e2 e3 e4 e5
  obtain ⟨h1, h2, h3⟩ := h
  refine ⟨h1, h2, ?_⟩
  revert h3
  dsimp only
  cases d'.dstate <;> dsimp only
  case hdr => exact id
  case blk => exact fun h => ⟨h.1, ⟨h.2.1.legal, h.2.1.size, h.2.1.some_left, h.2.1.counted⟩, h.2.2⟩
  case wid => exact fun h => ⟨h.1, ⟨h.2.1.legal, h.2.1.size, h.2.1.some_left, h.2.1.counted⟩, h.2.2⟩
  case pay => exact fun h => ⟨h.1, ⟨h.2.1.legal, h.2.1.size, h.2.1.some_left, h.2.1.counted⟩, h.2.2⟩
  case done => exact id
  case idle =>
    cases b'.bstate <;> dsimp only
    case cmp => exact id
    case val => exact fun h => ⟨h.count, h.index, h.some_left, h.arena, h.fits, h.suffix⟩
    case done => exact id
    all_goals exact id

/-- Taking the oldest host action leaves the invariant. -/
theorem pop_inv {s : State} (h : s.Inv) : s.popHost.Inv :=
  ⟨h.legal, ⟨h.memories.src, h.memories.dst, h.memories.ofs, h.memories.pfx, h.memories.sfx, h.memories.widths⟩, h.quiet,
    fun hb => busyOk_congr (s := s) rfl rfl rfl rfl rfl (h.running hb)⟩

end Sys2Proof.Machine
end

