-- ==== Sys2Proof/Laws/PerInstr.lean ====
section
/-! SUPPORT. The family Size of LAWS.json: how many bytes of SRC each instruction is encoded in (30_encoding.md R61,
R65 to R71), constructor by constructor. -/

namespace Sys2Proof.Laws.Size

theorem varint (v : Varint) : v.bytes.length = v.size := by
  simp [Varint.bytes, Varint.size]

/-- A command is one word and takes no byte of SRC (R61); an element is encoded in the bytes it takes. -/
def Statement (i : Instr) : Prop :=
  match encode i with
  | .word _ => i.taken = 0
  | .bytes bs => bs.length = i.taken

theorem clr : Statement .clr := rfl
theorem decI32 : Statement .decI32 := rfl
theorem decI64 : Statement .decI64 := rfl
theorem decBa : Statement .decBa := rfl
theorem illegal (word : Word) : Statement (.illegal word) := rfl
theorem varintCont (v : Group) : Statement (.varintCont v) := rfl
theorem varintLast (v : Group) : Statement (.varintLast v) := rfl
theorem varintLast10 (v : BitVec 1) : Statement (.varintLast10 v) := rfl
theorem uvarint (v : Varint) : Statement (.uvarint v) := varint v
theorem zzvarint (v : Varint) : Statement (.zzvarint v) := varint v
theorem hdr (b m t f : Varint) : Statement (.hdr b m t f) := by
  simp [Statement, encode, Instr.taken, varint]; omega
theorem blkMin (v : Varint) : Statement (.blkMin v) := varint v
theorem blkWidth (w : Byte) : Statement (.blkWidth w) := rfl
theorem mb (payload : List Byte) : Statement (.mb payload) := rfl
theorem raw (b : Byte) : Statement (.raw b) := rfl
theorem pageInt (page : List Byte) : Statement (.pageInt page) := rfl
theorem pageBa (page : List Byte) : Statement (.pageBa page) := rfl

end Sys2Proof.Laws.Size
end

