-- ==== Sys2Proof/Laws/Sink.lean ====
section
/-! SUPPORT. Emit (R118) in the terms of Safety.lean: what a list of values leaves in the sink. -/

namespace Sys2Proof.Machine

theorem wrote_write {w : Nat} (sp : Space) (m : Memory w) (a : Nat) (v : BitVec w) : Wrote sp a [v] m (m.write a v) := by
  refine ⟨by simp [Memory.readList], fun b hb => Memory.read_write_ne sp m ?_ v⟩
  simp only [List.length_cons, List.length_nil] at hb
  omega

theorem wrote_writeList {w : Nat} (sp : Space) (m : Memory w) (a : Nat) (vs : List (BitVec w)) :
    Wrote sp a vs m (m.writeList a vs) :=
  ⟨Memory.readList_writeList_self sp vs m a, fun b hb => Memory.read_writeList_outside sp vs m a b hb⟩

namespace State

/-- A sink with room takes a list of values: they stand in it one after another, and nothing else changes. -/
theorem emitAll_sinkGets {vs : List DWord} {s : State} (hl : s.env.inst.Legal)
    (h : s.diu.emitted.toNat + vs.length ≤ sinkCapOf s.env.inst s.diu.wSel s.diu.sink) :
    ∃ t, s.emitAll vs = some t ∧ SinkGets s t vs ∧
      t = { s with
        mem.dst := t.mem.dst, dbr.pfx := t.dbr.pfx, dbr.sfx := t.dbr.sfx
        diu.emitted := s.diu.emitted + BitVec.ofNat 32 vs.length } := by
  have hlt := sinkCapOf_lt hl s.diu.wSel s.diu.sink
  obtain ⟨_, ⟨_, _, hd⟩, ⟨_, hlen⟩, _⟩ := hl
  have he : (s.diu.emitted + BitVec.ofNat 32 vs.length).toNat = s.diu.emitted.toNat + vs.length :=
    Word.toNat_add_ofNat (by omega)
  cases hk : s.diu.sink with
  | dst =>
    rw [hk] at h
    refine ⟨_, emitAll_dst hk (by omega) ((Nat.le_div_iff_mul_le s.diu.wSel.bytes_pos).mp h), ⟨he, ?_, rfl, rfl⟩, rfl⟩
    rw [hk]
    exact ⟨wrote_writeList .dst _ _ _, rfl, rfl⟩
  | pfx =>
    rw [hk] at h
    refine ⟨_, emitAll_pfx hk (by omega) h, ⟨he, ?_, rfl, rfl⟩, rfl⟩
    rw [hk]
    exact ⟨wrote_writeList .pfx _ _ _, rfl, rfl⟩
  | sfx =>
    rw [hk] at h
    refine ⟨_, emitAll_sfx hk (by omega) h, ⟨he, ?_, rfl, rfl⟩, rfl⟩
    rw [hk]
    exact ⟨wrote_writeList .sfx _ _ _, rfl, rfl⟩

end State
end Sys2Proof.Machine
end

