-- ==== Sys2Proof/Tests/Slice0.lean ====
section
/-! SUPPORT. Tests of the model against words, bytes and results written out in the spec (each test names the rule), and
for each statement with hypotheses a concrete case that meets them. -/

namespace Sys2Proof.Machine.Tests

/-! ### Helpers -/

/-- Bytes as cells from an address on. -/
def cellsFrom {w : Nat} : Nat → List (BitVec w) → List (Nat × BitVec w)
  | _, [] => []
  | a, v :: vs => (a, v) :: cellsFrom (a + 1) vs

def filled {w : Nat} (vs : List (BitVec w)) : Memory w := { gen := 0, cells := cellsFrom 0 vs }

/-- After reset, with a page in SRC and SRC_LEN set. -/
def loaded (g : Grain) (page : List Byte) : State :=
  { State.reset with
    regs.srcLen := BitVec.ofNat 32 page.length
    mem.src := filled page
    env.grain := g }

/-- Whether an answer is a next state of which `p` holds. -/
def goesOn (r : Result) (p : State → Bool) : Bool :=
  match r with
  | .next t => p t
  | .fault _ => false
  | .refused _ => false

/-- The error a read ends in. -/
def goesWrong {α : Type} (r : Except Err α) : Option Err :=
  match r with
  | .error e => some e
  | .ok _ => none

/-- The running example of 42_int_delta.md: values 1, 3, 2, 8. -/
def intPage : List Byte := [0x08, 0x01, 0x04, 0x02, 0x01, 0x03, 0xC3, 0x01, 0x00]

/-- The running example of 43_byte_array.md: "car", "cart", "care". -/
def baPage : List Byte :=
  [0x08, 0x01, 0x03, 0x00, 0x01, 0x03, 0x04, 0x00, 0x00, 0x08, 0x01, 0x03, 0x06, 0x03, 0x02, 0x0C, 0x00,
    0x63, 0x61, 0x72, 0x74, 0x72, 0x65]

/-- A unit BUSY on a page, at a cursor, with its DIU registers. -/
def running (g : Grain) (page : List Byte) (cur : Word) (diu : Diu) (dst : List Byte) : State :=
  { loaded g page with
    regs.status := .busy
    regs.srcLen := BitVec.ofNat 32 page.length
    regs.srcCur := cur
    diu := diu
    mem.src := filled page
    mem.dst := filled dst }

/-- The DIU registers of DEC_I32 at its start (R92). -/
def diu0 : Diu := { Diu.reset 0 with sinkCap := 16384, dstate := .hdr }

/-- The DIU registers after the header of the running example (R133). -/
def diu1 : Diu :=
  { diu0 with
    blockSize := 8, mbCount := 1, total := 4, mbSize := 8, remaining := 3, emitted := 1, run := 1, dstate := .blk }

/-- D_HDR on a page. -/
def hdrState (g : Grain) (page : List Byte) : State := running g page 0 diu0 []

/-- D_HDR with the first three fields read and the first value next. -/
def firstState (g : Grain) (b m t : DWord) (cur : Word) (k : Nat) : State :=
  { running g intPage cur { diu0 with blockSize := b, mbCount := m, total := t } [] with
    micro := { Micro.reset with hdrField := .first, vrCount := k } }

/-- D_HDR at a header field, `k` bytes of its varint read. -/
def fieldState (g : Grain) (f : HdrField) (k : Nat) : State :=
  { hdrState g intPage with micro := { Micro.reset with hdrField := f, vrCount := k } }

/-- D_BLK of the running example, `k` bytes of the min delta read. -/
def blkState (g : Grain) (k : Nat) : State :=
  { running g intPage 4 diu1 [0x01, 0x00, 0x00, 0x00] with micro := { Micro.reset with vrCount := k } }

/-- D_WID with `mbCount` miniblocks. -/
def widState (mbCount : DWord) : State :=
  running .rule intPage 5
    { diu1 with blockSize := 8 * mbCount, mbCount := mbCount, minDelta := 0xFFFFFFFF, dstate := .wid }
    [0x01, 0x00, 0x00, 0x00]

/-- D_PAY of the running example, with the width byte `w` and `page` as the page. -/
def payState (w : Byte) (page : List Byte) : State :=
  running .rule page 6 { diu1 with minDelta := 0xFFFFFFFF, dstate := .pay, widths := filled [w] }
    [0x01, 0x00, 0x00, 0x00]

/-- D_DONE of the running example. -/
def doneState : State :=
  running .rule intPage 9 { diu1 with remaining := 0, emitted := 4, run := 8, mbIdx := 1, dstate := .done }
    [0x01, 0x00, 0x00, 0x00, 0x03, 0x00, 0x00, 0x00, 0x02, 0x00, 0x00, 0x00, 0x08, 0x00, 0x00, 0x00]

/-- D_HDR of a DEC_BA on the running example of 43_byte_array.md. -/
def prefixState (g : Grain) (page : List Byte) : State :=
  { running g page 0 { diu0 with sink := .pfx, sinkCap := 4096 } [] with dbr := { Dbr.reset 0 with bstate := .pfx } }

/-- D_DONE of a run into PFX or SFX. -/
def lengthsState (b : BState) (k : Sink) : State :=
  { running .rule baPage 9 { diu1 with sink := k, sinkCap := 4096, total := 3, emitted := 3, dstate := .done } [] with
    dbr := { Dbr.reset 0 with bstate := b, nPfx := 3, pfx := filled [0, 3, 2] } }

/-- The DBR with counts, in B_CMP. -/
def cmpState (nPfx nSfx : Word) : State :=
  { running .rule baPage 17 { diu0 with dstate := .idle } [] with
    dbr := { Dbr.reset 0 with bstate := .cmp, nPfx := nPfx, nSfx := nSfx } }

/-- The DBR in B_VAL at value 1, "cart", with a prefix and a suffix length. -/
def valState (g : Grain) (p q : Word) : State :=
  { running g baPage 20 { diu0 with dstate := .idle } [0x63, 0x61, 0x72] with
    regs :=
      { status := .busy, srcLen := 23, srcCur := 20, outCount := 0, dstLen := 3 }
    dbr := { Dbr.reset 0 with
      bstate := .val, nPfx := 3, nSfx := 3, idx := 1, prevOff := 0, prevLen := 3, pfx := filled [0, p, 2]
      sfx := filled [3, q, 2] } }

/-- The same value with its prefix copied and `n` suffix bytes to copy. -/
def rawState (n : Word) : State :=
  { running .byte baPage 20 { diu0 with dstate := .idle } [0x63, 0x61, 0x72, 0x63, 0x61, 0x72] with
    regs := { status := .busy, srcLen := 23, srcCur := 20, outCount := 0, dstLen := 6 }
    dbr := { Dbr.reset 0 with
      bstate := .val, nPfx := 3, nSfx := 3, idx := 2, prevOff := 3, prevLen := 3 + n, pfx := filled [0, 3, 2]
      sfx := filled [3, 1, 2] }
    micro := { Micro.reset with rawLeft := n } }

/-- The DBR in B_DONE of the running example. -/
def closeState : State :=
  { running .rule baPage 23 { diu0 with dstate := .idle } [] with
    regs := { status := .busy, srcLen := 23, srcCur := 23, outCount := 0, dstLen := 11 }
    dbr := { Dbr.reset 0 with bstate := .done, nPfx := 3, nSfx := 3, idx := 3 } }

/-! ### WellFormed: an ill-formed term for each check -/

def over64 : Varint := { conts := List.replicate 9 0x7F, last := 2 }
def eleven : Varint := { conts := List.replicate 10 0x00, last := 0 }
def ok0 : Varint := { conts := [], last := 0 }

theorem test_wf_varint_overflow : over64.wellFormed = false := by decide
theorem test_wf_varint_too_long : eleven.wellFormed = false := by decide
theorem test_wf_varint_longest : Varint.wellFormed { conts := List.replicate 9 0x7F, last := 1 } = true := by decide
theorem test_wf_illegal : (Instr.illegal 0).wellFormed = false ∧ (Instr.illegal 3).wellFormed = false ∧
    (Instr.illegal 4).wellFormed = true := by decide
theorem test_wf_fields : (Instr.uvarint over64).wellFormed = false ∧ (Instr.zzvarint eleven).wellFormed = false ∧
    (Instr.blkMin over64).wellFormed = false := by decide
theorem test_wf_hdr : (Instr.hdr over64 ok0 ok0 ok0).wellFormed = false ∧
    (Instr.hdr ok0 over64 ok0 ok0).wellFormed = false ∧ (Instr.hdr ok0 ok0 over64 ok0).wellFormed = false ∧
    (Instr.hdr ok0 ok0 ok0 over64).wellFormed = false := by decide
theorem test_wf_bytes (bs : List Byte) (h : bs.length = 2 ^ 32) : (Instr.mb bs).wellFormed = false ∧
    (Instr.pageInt bs).wellFormed = false ∧ (Instr.pageBa bs).wellFormed = false := by
  simp [Instr.wellFormed, bytesOfSrc, h]

/-! ### Decoding: words and bytes written out from the encodings of 30_encoding.md -/

theorem test_decode_commands : decodeCommand 0x00000000 = .clr ∧ decodeCommand 0x00000001 = .decI32 ∧
    decodeCommand 0x00000002 = .decI64 ∧ decodeCommand 0x00000003 = .decBa ∧
    decodeCommand 0x00000004 = .illegal 4 := by decide
theorem test_decode_varint_cont : decodeElement (.varintByte 8) [0b11111111] = .ok (.varintCont 0b1111111, []) := by
  decide
theorem test_decode_varint_last : decodeElement (.varintByte 1) [0b00000010] = .ok (.varintLast 0b0000010, []) := by
  decide
theorem test_decode_varint_last10 : decodeElement (.varintByte 9) [0b00000001] = .ok (.varintLast10 1, []) ∧
    decodeElement (.varintByte 9) [0b00000010] = .error .varintTooLong := by decide
/-- R111: `AC 02` is 300. -/
theorem test_decode_uvarint : decodeElement .uvarint [0xAC, 0x02] =
    .ok (.uvarint { conts := [0b0101100], last := 0b0000010 }, []) ∧
    Varint.value { conts := [0b0101100], last := 0b0000010 } = 300 := by decide
/-- R113: `81 80 80 80 10` is 2147483647 for W = 32 and -2147483649 for W = 64. -/
theorem test_decode_zzvarint : decodeElement .zzvarint [0x81, 0x80, 0x80, 0x80, 0x10] =
    .ok (.zzvarint { conts := [1, 0, 0, 0], last := 0b0010000 }, []) ∧
    zzValue .w32 (Varint.value { conts := [1, 0, 0, 0], last := 0b0010000 }) = 2147483647 ∧
    (zzValue .w64 (Varint.value { conts := [1, 0, 0, 0], last := 0b0010000 })).toInt = -2147483649 := by decide
theorem test_decode_hdr : decodeElement .hdr [0x08, 0x01, 0x80, 0x01, 0x02, 0x99] =
    .ok (.hdr { conts := [], last := 8 } { conts := [], last := 1 } { conts := [0], last := 1 }
      { conts := [], last := 2 }, [0x99]) := by decide
theorem test_decode_blkMin : decodeElement .blkMin [0b00000001] = .ok (.blkMin { conts := [], last := 1 }, []) := by
  decide
theorem test_decode_blkWidth : decodeElement .blkWidth [0b11111111] = .ok (.blkWidth 255, []) := by decide
theorem test_decode_mb : decodeElement (.mb 3) [0xC3, 0x01, 0x00, 0xEE] = .ok (.mb [0xC3, 0x01, 0x00], [0xEE]) := by
  decide
theorem test_decode_raw : decodeElement .raw [0x63] = .ok (.raw 0x63, []) := by decide
theorem test_decode_pages : decodeElement .pageInt intPage = .ok (.pageInt intPage, []) ∧
    decodeElement .pageBa baPage = .ok (.pageBa baPage, []) := by decide
theorem test_decode_end : decodeElement .uvarint [0x80] = .error .endOfPage ∧ decodeElement .raw [] = .error .endOfPage ∧
    decodeElement .blkWidth [] = .error .endOfPage ∧ decodeElement (.varintByte 0) [] = .error .endOfPage := by decide
theorem test_table_words : decodeTableWord 32 3 = some .decBa ∧ decodeTableWord 8 0x80 = some (.varintCont 0) ∧
    decodeTableWord 8 0x7F = some (.varintLast 0x7F) ∧ decodeTableWord 8 0x01 = some (.varintLast10 1) ∧
    decodeTableWord 16 0 = none := by decide

/-! ### One step of each instruction -/

/-- R91, example: STATUS = 0x00000303, CLR, then 0x00000000. -/
theorem test_clr : goesOn (exec .clr { State.reset with regs.status := .error .unexpectedEOF })
    (fun t => t.regs.status.word == 0) = true ∧
    Status.word (.error .unexpectedEOF) = 0x00000303 := by decide
/-- R95, example: CMD <- 0x00000101 gives STATUS = 0x00000903. -/
theorem test_illegal : goesOn (exec (decodeCommand 0x101) (loaded .rule intPage))
    (fun t => t.regs.status.word == 0x00000903 && t.regs.srcLen == 9) = true := by decide
/-- R92: SINK_CAP = DST_CAP div 4. -/
theorem test_decI32 : goesOn (exec .decI32 (loaded .rule intPage))
    (fun t => t.regs.status == .busy && t.diu.sinkCap == 16384 && t.diu.dstate == .hdr && t.diu.wSel == .w32) = true := by
  decide
/-- R93: SINK_CAP = DST_CAP div 8. -/
theorem test_decI64 : goesOn (exec .decI64 (loaded .rule intPage))
    (fun t => t.diu.sinkCap == 8192 && t.diu.dstate == .hdr && t.diu.wSel == .w64) = true := by decide
/-- R94, R161: the first run goes into PFX. -/
theorem test_decBa : goesOn (exec .decBa (loaded .rule baPage))
    (fun t => t.dbr.bstate == .pfx && t.diu.sink == .pfx && t.diu.sinkCap == 4096) = true := by decide
/-- R90: SRC_LEN > SRC_CAP. -/
theorem test_dec_capacity : goesOn (exec .decI32 { loaded .rule [] with regs.srcLen := 65537 })
    (fun t => t.regs.status == .error .capacityExceeded) = true := by decide
/-- R111: `80 01` is 128: its first byte. -/
theorem test_varintCont : goesOn (exec (.varintCont 0x00) (fieldState .byte .mbCount 0))
    (fun t => t.micro.vrCount == 1 && t.regs.srcCur == 1 && t.diu.mbCount == 0) = true := by decide
/-- R111: its second. -/
theorem test_varintLast : goesOn (exec (.varintLast 0x01) (fieldState .byte .mbCount 1))
    (fun t => t.diu.mbCount == 128 && t.micro.hdrField == .total && t.micro.vrCount == 0) = true := by decide
/-- R111: the 10th byte carries bit 63: `80 80 80 80 80 80 80 80 80 01` is 2^63. -/
theorem test_varintLast10 : goesOn (exec (.varintLast10 1) (fieldState .byte .blockSize 9))
    (fun t => t.diu.blockSize == 0x8000000000000000 && t.micro.hdrField == .mbCount) = true := by decide
/-- R131: TOTAL. -/
theorem test_uvarint : goesOn (exec (.uvarint { conts := [0b0101100], last := 0b0000010 })
    (fieldState .field .total 0)) (fun t => t.diu.total == 300 && t.regs.srcCur == 2) = true := by decide
/-- R133, example: RUN = 1, DST[0 .. 3] = 01 00 00 00, REMAINING = 3, D_BLK. -/
theorem test_zzvarint : goesOn (exec (.zzvarint { conts := [], last := 2 }) (firstState .field 8 1 4 3 0))
    (fun t => t.diu.run == 1 && t.mem.dst == filled [0x01, 0x00, 0x00, 0x00] && t.diu.remaining == 3 &&
      t.diu.dstate == .blk) = true := by decide
/-- R131, example: SRC_CUR = 4; R132: MB_SIZE = 8. -/
theorem test_hdr : goesOn (unitStep (hdrState .rule intPage))
    (fun t => t.regs.srcCur == 4 && t.diu.mbSize == 8 && t.diu.emitted == 1 && t.diu.dstate == .blk) = true := by decide
/-- R132, examples: `.hdr 10, 3, 1, 0` fails check 3, `.hdr 384, 4, 0, 0` check 4. -/
theorem test_hdr_checks : headerError Config.reference 16384 10 3 1 = some .malformedHeader ∧
    headerError Config.reference 16384 384 4 0 = some .malformedHeader ∧
    headerError Config.reference 16384 131072 1 0 = some .capacityExceeded ∧
    headerError Config.reference 16384 128 4 16385 = some .capacityExceeded ∧
    headerError Config.reference 16384 128 4 2147483648 = some .malformedHeader := by decide
/-- R134, example: byte 01 gives MIN_DELTA = 0xFFFFFFFF, SRC_CUR = 5. -/
theorem test_blkMin : goesOn (unitStep (blkState .rule 0))
    (fun t => t.diu.minDelta == 0xFFFFFFFF && t.regs.srcCur == 5 && t.diu.dstate == .wid) = true := by decide
/-- R135, example: byte 03 gives WIDTHS[0] = 3, SRC_CUR = 6. -/
theorem test_blkWidth : goesOn (unitStep (widState 1))
    (fun t => t.diu.widths == filled [0x03] && t.regs.srcCur == 6 && t.diu.dstate == .pay) = true := by decide
/-- R136, example: values 3, 2, 8, SRC_CUR = 9, REMAINING = 0. -/
theorem test_mb : goesOn (unitStep (payState 3 intPage))
    (fun t => t.mem.dst == doneState.mem.dst && t.regs.srcCur == 9 && t.diu.remaining == 0 && t.diu.run == 8 &&
      t.diu.dstate == .done) = true := by decide +kernel
/-- R193: "a miniblock bit width of 33 for 32-bit integers yields InvalidBitWidth"; R140: SRC_LEN = 8 is UnexpectedEOF. -/
theorem test_mb_errors :
    goesOn (unitStep (payState 33 intPage)) (fun t => t.regs.status == .error .invalidBitWidth) = true ∧
    goesOn (unitStep (payState 3 (intPage.take 8))) (fun t => t.regs.status == .error .unexpectedEOF) = true := by
  decide +kernel
/-- R116: w = 3, payload `88 C6 FA`; w = 5, payload `FF 03 00 00 F8`. -/
theorem test_unpack : fields [0x88, 0xC6, 0xFA] 3 8 = [0, 1, 2, 3, 4, 5, 6, 7] ∧
    fields [0xFF, 0x03, 0x00, 0x00, 0xF8] 5 8 = [31, 31, 0, 0, 0, 0, 0, 31] := by decide +kernel
/-- R112: 2^64 - 2 gives 2^63 - 1; 0xFFFFFFFF gives -2147483648. -/
theorem test_zigzag : (zigZag64 0xFFFFFFFFFFFFFFFE).toInt = 2 ^ 63 - 1 ∧ (zigZag64 0xFFFFFFFF).toInt = -2147483648 := by
  decide
/-- R165, example, IDX = 1: DST[6] = 74. -/
theorem test_raw : goesOn (unitStep (rawState 1))
    (fun t => t.mem.dst == filled [0x63, 0x61, 0x72, 0x63, 0x61, 0x72, 0x74] && t.regs.dstLen == 7 &&
      t.regs.srcCur == 21 && t.micro.rawLeft == 0 && t.dbr.bstate == .val) = true := by decide
/-- R92, example, as one operation. -/
theorem test_pageInt : goesOn (unitStep (hdrState .whole intPage))
    (fun t => t.mem.dst == doneState.mem.dst && t.regs.srcCur == 9 && t.diu.emitted == 4) = true := by decide +kernel
/-- R94, example, as one operation: "car", "cart", "care", OFS 0, 3, 7. -/
theorem test_pageBa : goesOn (unitStep (prefixState .whole baPage))
    (fun t => t.mem.dst == filled [0x63, 0x61, 0x72, 0x63, 0x61, 0x72, 0x74, 0x63, 0x61, 0x72, 0x65] &&
      t.mem.ofs == filled [0, 3, 7] && t.regs.dstLen == 11 && t.regs.srcCur == 23) = true := by decide +kernel
/-- R165, example, IDX = 1, in one step: OFS[1] = 3, PREV_OFF = 3, PREV_LEN = 4. -/
theorem test_value : goesOn (unitStep (valState .rule 3 1))
    (fun t => t.regs.dstLen == 7 && t.regs.srcCur == 21 && t.mem.ofs.cells == [(1, 3)] && t.dbr.prevOff == 3 &&
      t.dbr.prevLen == 4 && t.dbr.idx == 2) = true := by decide
/-- R166, example: OFS[3] = 11. -/
theorem test_close : goesOn (unitStep closeState)
    (fun t => t.mem.ofs.cells == [(3, 11)] && t.regs.status == .done && t.regs.outCount == 3) = true := by decide
/-- The host's question about a table word: the first step after reset runs it. -/
theorem test_placed : goesOn (step (State.reset.withFetchWord 32 1)) (fun t => t.diu.dstate == .hdr) = true ∧
    goesOn (step (State.reset.withFetchWord 8 0x85)) (fun t => t.micro.vrValue == 5 && t.micro.vrCount == 1) = true ∧
    goesOn (step (State.reset.withFetchWord 8 0x05)) (fun t => t.diu.blockSize == 5) = true ∧
    goesOn (step (State.reset.withFetchWord 8 0x01)) (fun t => t.diu.blockSize == 0x8000000000000000) = true := by
  decide

/-! ### The invariant in the states above -/

theorem hdr_inv (g : Grain) (page : List Byte) (hp : page = intPage ∨ page = []) : (hdrState g page).Inv := by
  rcases hp with rfl | rfl <;> cases g <;>
    exact ⟨by decide, ⟨by decide, by decide, by decide, by decide, by decide, by decide⟩,
      fun h => absurd rfl h, fun _ => ⟨by decide, by decide, ⟨by decide, rfl⟩, rfl, rfl, rfl, fun h => nomatch h⟩⟩

theorem prefix_inv : (prefixState .whole baPage).Inv :=
  ⟨by decide, ⟨by decide, by decide, by decide, by decide, by decide, by decide⟩,
    fun h => absurd rfl h, fun _ => ⟨by decide, by decide, ⟨by decide, rfl, rfl⟩, rfl, rfl, rfl, fun h => nomatch h⟩⟩

theorem first_inv (g : Grain) (b m t : DWord) (k : Nat) (hk : k ≤ 9) : (firstState g b m t 3 k).Inv :=
  ⟨show Config.reference.Legal by decide, ⟨rfl, rfl, rfl, rfl, rfl, rfl⟩,
    fun h => absurd rfl h, fun _ => ⟨show 9 ≤ 65536 by decide, hk,
      ⟨show (16384 : Word).toNat = State.sinkCapOf Config.reference .w32 .dst by decide, rfl⟩, rfl, rfl, rfl,
      fun h => nomatch h⟩⟩

theorem blk_inv (g : Grain) (k : Nat) (hk : k ≤ 9) : (blkState g k).Inv :=
  ⟨show Config.reference.Legal by decide, ⟨rfl, rfl, rfl, rfl, rfl, rfl⟩,
    fun h => absurd rfl h, fun _ => ⟨show 9 ≤ 65536 by decide, hk,
      ⟨show (16384 : Word).toNat = State.sinkCapOf Config.reference .w32 .dst by decide, rfl⟩,
      ⟨show headerError Config.reference 16384 8 1 4 = none by decide, show (8 : DWord) = 8 / 1 by decide, show (3 : Word) ≠ 0 by decide, rfl⟩,
      show 4 ≤ 9 by decide, rfl, rfl⟩⟩

theorem wid_inv (m : DWord) (hm : m = 1 ∨ m = 2) : (widState m).Inv := by
  rcases hm with rfl | rfl <;>
    exact ⟨by decide, ⟨by decide, by decide, by decide, by decide, by decide, by decide⟩,
      fun h => absurd rfl h, fun _ => ⟨by decide, by decide, ⟨by decide, rfl⟩,
        ⟨by decide, by decide, by decide, by decide⟩, by decide, rfl, rfl, by decide⟩⟩

theorem pay_inv (w : Byte) : (payState w intPage).Inv :=
  ⟨show Config.reference.Legal by decide, ⟨rfl, rfl, rfl, rfl, rfl,
      by simp [Memory.wf, Memory.rising, payState, running, loaded, filled, cellsFrom, State.reset, Config.reference]⟩,
    fun h => absurd rfl h, fun _ => ⟨show 9 ≤ 65536 by decide, show 0 ≤ 9 by decide,
      ⟨show (16384 : Word).toNat = State.sinkCapOf Config.reference .w32 .dst by decide, rfl⟩,
      ⟨show headerError Config.reference 16384 8 1 4 = none by decide, show (8 : DWord) = 8 / 1 by decide,
        show (3 : Word) ≠ 0 by decide, rfl⟩, show 6 ≤ 9 by decide, rfl, rfl, show 0 < 1 by decide, show 0 ≤ 1 by decide⟩⟩

theorem cmp_inv (n k : Word) (hn : n.toNat ≤ 4096) : (cmpState n k).Inv :=
  ⟨show Config.reference.Legal by decide, ⟨rfl, rfl, rfl, rfl, rfl, rfl⟩,
    fun h => absurd rfl h, fun _ => ⟨show 23 ≤ 65536 by decide, show 0 ≤ 9 by decide, hn, show 17 ≤ 23 by decide, rfl,
      rfl⟩⟩

theorem val_inv (g : Grain) (p q : Word) : (valState g p q).Inv :=
  ⟨show Config.reference.Legal by decide, ⟨rfl, rfl, rfl, rfl, rfl, rfl⟩,
    fun h => absurd rfl h, fun _ => ⟨show 23 ≤ 65536 by decide, show 0 ≤ 9 by decide,
      ⟨show 3 ≤ 4096 by decide, show 1 ≤ 3 by decide, fun _ => show 1 < 3 by decide, rfl,
        show 3 + 0 ≤ 65536 by decide, show 20 + 0 ≤ 23 by decide⟩⟩⟩

theorem raw_inv (n : Word) (hn : n = 1 ∨ n = 2) : (rawState n).Inv := by
  rcases hn with rfl | rfl <;>
    exact ⟨by decide, ⟨by decide, by decide, by decide, by decide, by decide, by decide⟩,
      fun h => absurd rfl h, fun _ => ⟨by decide, by decide,
        ⟨by decide, by decide, fun h => absurd h (by decide), by decide, by decide, by decide⟩⟩⟩

theorem close_inv : closeState.Inv :=
  ⟨by decide, ⟨by decide, by decide, by decide, by decide, by decide, by decide⟩,
    fun h => absurd rfl h, fun _ => ⟨by decide, by decide, by decide, by decide, by decide⟩⟩

/-- A unit that is not BUSY, a page loaded. -/
theorem loaded_mayIssue (g : Grain) (page : List Byte) (hp : page = intPage ∨ page = baPage) :
    (loaded g page).MayIssue := by
  rcases hp with rfl | rfl <;> cases g <;>
    exact ⟨⟨by decide, ⟨by decide, by decide, by decide, by decide, by decide, by decide⟩,
      fun _ => ⟨rfl, rfl⟩, fun h => absurd h (by decide)⟩, by decide, by decide⟩

/-! ### Cases that meet the hypotheses of the statements -/

theorem witness_DecodeEncode :
    ((Instr.illegal 4).wellFormed = true ∧ encode (.illegal 4) = .word 4) ∧
    ((Instr.varintLast10 1).wellFormed = true ∧ (Instr.varintLast10 1).fits (.varintByte 9) = true ∧
      endsBefore (.varintLast10 1) (.varintByte 9) [0xEE] = true ∧ encode (.varintLast10 1) = .bytes [0x01]) ∧
    ((Instr.mb [0xC3]).wellFormed = true ∧ (Instr.mb [0xC3]).fits (.mb 3) = true ∧
      endsBefore (.mb [0xC3]) (.mb 3) [] = true ∧ encode (.mb [0xC3]) = .bytes [0xC3]) ∧
    ((Instr.pageInt intPage).wellFormed = true ∧ (Instr.pageInt intPage).fits .pageInt = true ∧
      endsBefore (.pageInt intPage) .pageInt [] = true ∧ encode (.pageInt intPage) = .bytes intPage) := by decide
theorem witness_EncodeDecode : [0x80, 0x01, 0x99].length < 2 ^ 32 ∧
    decodeElement .uvarint [0x80, 0x01, 0x99] = .ok (.uvarint { conts := [0], last := 1 }, [0x99]) := by decide
theorem witness_VarintFormat : parseVarint 0 (List.replicate 9 0x80 ++ [0x01, 0x77]) =
    .ok ({ conts := List.replicate 9 0, last := 1 }, [0x77]) := by decide
theorem witness_ReadVarint : ((readUvarint [0xAC, 0x02, 0x99]).toOption = some (300, [0x99])) ∧
    goesWrong (readUvarint (List.replicate 9 0xFF)) = some .unexpectedEOF ∧
    goesWrong (readUvarint (List.replicate 9 0xFF ++ [0x02])) = some .malformedHeader := by decide
theorem witness_RegisterReads : State.reset.Ready ∧ (0x18 : Word).toNat = 0x18 := by decide
theorem witness_HostAccessRule :
    ((0x04 : Word) ≠ 0x00 ∧ (0x04 : Word) ≠ 0x08 ∧ (0x04 : Word) ≠ 0x0C) ∧ (hdrState .rule intPage).isBusy ∧
    State.reset.Ready := by decide
theorem witness_HostMemoryAccess : (hdrState .rule intPage).isBusy ∧ State.reset.Ready ∧
    (65535 : Word).toNat < State.reset.env.inst.srcCap ∧ (65535 : Word).toNat < State.reset.env.inst.dstCap ∧
    (4096 : Word).toNat ≤ State.reset.env.inst.lenCap ∧ State.reset.env.inst.srcCap ≤ (65536 : Word).toNat ∧
    State.reset.env.inst.dstCap ≤ (65536 : Word).toNat ∧ State.reset.env.inst.lenCap < (4097 : Word).toNat := by decide
theorem witness_ClrResult : State.reset.Ready ∧ (hdrState .rule intPage).isBusy := by decide
theorem witness_IllegalCommandResult : State.reset.Ready ∧ (4 : Word) ≠ 0 ∧ (4 : Word) ≠ 1 ∧ (4 : Word) ≠ 2 ∧
    (4 : Word) ≠ 3 := by decide
theorem witness_DecodeCommandsIssue :
    State.Ready { loaded .rule [] with regs.srcLen := 65536 } ∧
    ({ loaded .rule [] with regs.srcLen := 65536 } : State).regs.srcLen.toNat ≤ State.reset.env.inst.srcCap ∧
    State.Ready { loaded .rule [] with regs.srcLen := 65537 } ∧
    State.reset.env.inst.srcCap < ({ loaded .rule [] with regs.srcLen := 65537 } : State).regs.srcLen.toNat := by decide
theorem witness_ZigZagMap : (0xFFFFFFFFFFFFFFFE : DWord).toNat = 2 * (2 ^ 63 - 1) ∧
    (0xFFFFFFFFFFFFFFFF : DWord).toNat = 2 * (2 ^ 63 - 1) + 1 := by decide
theorem witness_UnpackField : 3 ≤ 64 ∧ (7 + 1) * 3 ≤ 8 * [0xC3, 0x01, 0x00].length ∧ 64 ≤ 64 ∧
    (0 + 1) * 64 ≤ 8 * (List.replicate 8 (0xFF : Byte)).length ∧ 2 < 3 := by decide
theorem witness_AccumulatedValues : 2 < [(3 : DWord), 0, 7].length := by decide
theorem witness_EmitOne : (hdrState .rule intPage).env.inst.Legal ∧
    (16383 : Word).toNat < State.sinkCapOf (hdrState .rule intPage).env.inst .w32 .dst ∧
    (4095 : Word).toNat < State.sinkCapOf (hdrState .rule intPage).env.inst .w32 .sfx := by decide

/-- The header of the running example, one above the sink's capacity, and one whose block size is no multiple of the
miniblock count (R132). -/
def hdrOk : Instr := .hdr { conts := [], last := 8 } { conts := [], last := 1 } { conts := [], last := 4 }
  { conts := [], last := 2 }
def hdrBig : Instr := .hdr { conts := [], last := 8 } { conts := [], last := 1 } { conts := [1, 0], last := 1 }
  { conts := [], last := 2 }
def hdrBad : Instr := .hdr { conts := [], last := 10 } { conts := [], last := 3 } { conts := [], last := 1 }
  { conts := [], last := 0 }

theorem format_ok (t : DWord) (ht : t.toNat ≤ 2 ^ 31 - 1) : headerFormat 8 1 t :=
  ⟨by decide, ⟨3, by decide, by decide⟩, ht⟩
theorem format_bad (t : DWord) : ¬ headerFormat 10 3 t := by
  rintro ⟨_, ⟨k, _, hk⟩, _⟩
  have h : 10 = 3 * 2 ^ k := hk
  omega

theorem witness_HeaderValidated : (hdrState .rule intPage).Inv ∧
    (hdrState .rule intPage).At hdrOk ∧ headerFormat 8 1 4 ∧ headerFits Config.reference 16384 8 4 ∧
    (hdrState .rule intPage).At hdrBig ∧ headerFormat 8 1 16385 ∧ ¬ headerFits Config.reference 16384 8 16385 ∧
    (hdrState .rule intPage).At hdrBad ∧ ¬ headerFormat 10 3 1 :=
  ⟨hdr_inv _ _ (.inl rfl), ⟨by decide, by decide⟩, format_ok 4 (by decide), ⟨by decide, by decide⟩,
    ⟨by decide, by decide⟩, format_ok 16385 (by decide), fun h => absurd h.2 (by decide), ⟨by decide, by decide⟩,
    format_bad 1⟩
theorem witness_HeaderAccepted : (hdrState .rule intPage).Inv ∧ (hdrState .rule intPage).At hdrOk ∧
    headerFormat (Varint.value { conts := [], last := 8 }) (Varint.value { conts := [], last := 1 })
      (Varint.value { conts := [], last := 4 }) ∧
    headerFits Config.reference 16384 (Varint.value { conts := [], last := 8 }) (Varint.value { conts := [], last := 4 }) :=
  ⟨hdr_inv _ _ (.inl rfl), ⟨by decide, by decide⟩, format_ok 4 (by decide), ⟨by decide, by decide⟩⟩
theorem witness_VarintContResult : (fieldState .byte .total 8).At (.varintCont 0x7F) := ⟨by decide, by decide⟩
theorem witness_HeaderFields :
    (fieldState .field .blockSize 0).At (.uvarint { conts := [0], last := 1 }) ∧
    (fieldState .byte .mbCount 8).At (.varintLast 0x7F) ∧ (fieldState .byte .total 9).At (.varintLast10 1) ∧
    (fieldState .field .blockSize 0).diu.dstate = .hdr ∧ (fieldState .byte .total 9).micro.hdrField ≠ .first :=
  ⟨⟨by decide, by decide⟩, ⟨by decide, by decide⟩, ⟨by decide, by decide⟩, rfl, by decide⟩
theorem witness_FirstValue :
    (firstState .field 8 1 4 3 0).Inv ∧ (firstState .field 8 1 4 3 0).At (.zzvarint { conts := [], last := 2 }) ∧
    (firstState .byte 8 1 16385 3 0).Inv ∧ (firstState .byte 8 1 16385 3 0).At (.varintLast 0x02) ∧
    (firstState .byte 10 3 1 3 9).Inv ∧ (firstState .byte 10 3 1 3 9).At (.varintLast10 1) ∧
    headerFormat 8 1 4 ∧ headerFits Config.reference 16384 8 4 ∧ headerFormat 8 1 16385 ∧
    ¬ headerFits Config.reference 16384 8 16385 ∧ ¬ headerFormat 10 3 1 :=
  ⟨first_inv _ _ _ _ _ (by decide), ⟨by decide, by decide⟩, first_inv _ _ _ _ _ (by decide), ⟨by decide, by decide⟩,
    first_inv _ _ _ _ _ (by decide), ⟨by decide, by decide⟩, format_ok 4 (by decide), ⟨by decide, by decide⟩,
    format_ok 16385 (by decide), fun h => absurd h.2 (by decide), format_bad 1⟩
theorem witness_BlockMinDelta : (blkState .rule 0).At (.blkMin { conts := [], last := 1 }) ∧
    (blkState .byte 0).At (.varintLast 1) ∧ (blkState .byte 9).At (.varintLast10 0) ∧ (blkState .rule 0).diu.dstate = .blk :=
  ⟨⟨by decide, by decide⟩, ⟨by decide, by decide⟩, ⟨by decide, by decide⟩, rfl⟩
theorem witness_WidthByte :
    (widState 1).Inv ∧ (widState 1).At (.blkWidth 255) ∧
      (widState 1).micro.widthIdx + 1 = (widState 1).diu.mbCount.toNat ∧
    (widState 2).Inv ∧ (widState 2).At (.blkWidth 0) ∧
      (widState 2).micro.widthIdx + 1 ≠ (widState 2).diu.mbCount.toNat :=
  ⟨wid_inv 1 (.inl rfl), ⟨by decide, by decide⟩, by decide, wid_inv 2 (.inr rfl), ⟨by decide, by decide⟩, by decide⟩
theorem witness_MiniblockErrors :
    (payState 33 intPage).At (.mb []) ∧ (payState 33 intPage).diu.wSel.bits < (payState 33 intPage).mbWidth ∧
    (payState 4 intPage).At (.mb []) ∧ (payState 4 intPage).mbWidth ≤ (payState 4 intPage).diu.wSel.bits ∧
    (payState 4 intPage).regs.srcLen.toNat < (payState 4 intPage).regs.srcCur.toNat +
      (payState 4 intPage).diu.mbSize.toNat * (payState 4 intPage).mbWidth / 8 :=
  ⟨⟨by decide, by decide⟩, by decide, ⟨by decide, by decide⟩, by decide, by decide⟩
theorem witness_MiniblockResult : (payState 3 intPage).Inv ∧ (payState 3 intPage).At (.mb [0xC3, 0x01, 0x00]) ∧
    (payState 3 intPage).mbWidth ≤ (payState 3 intPage).diu.wSel.bits ∧
    [0xC3, 0x01, 0x00].length = (payState 3 intPage).diu.mbSize.toNat * (payState 3 intPage).mbWidth / 8 ∧
    (payState 3 intPage).regs.srcCur.toNat + [0xC3, 0x01, 0x00].length ≤ (payState 3 intPage).regs.srcLen.toNat :=
  ⟨pay_inv _, ⟨by decide, by decide⟩, by decide, by decide, by decide⟩
theorem witness_WidthZeroRun : (payState 0 intPage).Inv ∧ (payState 0 intPage).At (.mb []) ∧
    (payState 0 intPage).mbWidth = 0 := ⟨pay_inv _, ⟨by decide, by decide⟩, by decide⟩
theorem witness_RawByte : (rawState 1).Inv ∧ (rawState 1).At (.raw 0x74) ∧ (rawState 2).Inv ∧ (rawState 2).At (.raw 0x74) :=
  ⟨raw_inv 1 (.inl rfl), ⟨by decide, by decide⟩, raw_inv 2 (.inr rfl), ⟨by decide, by decide⟩⟩
theorem witness_IntPageResult : (hdrState .whole intPage).Inv ∧ (hdrState .whole intPage).At (.pageInt intPage) ∧
    intPage.length ≤ (hdrState .whole intPage).regs.srcLen.toNat - (hdrState .whole intPage).regs.srcCur.toNat ∧
    (hdrState .whole intPage).At (.pageInt []) :=
  ⟨hdr_inv _ _ (.inl rfl), ⟨by decide, by decide⟩, by decide, ⟨by decide, by decide⟩⟩
theorem witness_ByteArrayPageResult : (prefixState .whole baPage).Inv ∧
    (prefixState .whole baPage).At (.pageBa baPage) ∧
    baPage.length ≤ (prefixState .whole baPage).regs.srcLen.toNat - (prefixState .whole baPage).regs.srcCur.toNat ∧
    (prefixState .whole baPage).At (.pageBa []) :=
  ⟨prefix_inv, ⟨by decide, by decide⟩, by decide, ⟨by decide, by decide⟩⟩
theorem witness_ElementOutOfPlace : encode (.raw 0x63) = .bytes [0x63] ∧ ¬ (hdrState .rule intPage).At (.raw 0x63) ∧
    ¬ (fieldState .byte .blockSize 9).At (.varintLast 0) :=
  ⟨rfl, fun h => absurd h.position (by decide), fun h => absurd h.position (by decide)⟩
theorem witness_StepRunsDecoded :
    ({ loaded .rule intPage with env.host := [.readReg 4, .rst] } : State).env.host = .readReg 4 :: [.rst] ∧
    ({ loaded .rule intPage with env.host := [.writeReg offCmd 1] } : State).env.host = .writeReg offCmd 1 :: [] ∧
    (hdrState .rule intPage).unitMoves = true ∧ (hdrState .rule intPage).position = some .hdr ∧
    decodeElement .hdr (hdrState .rule intPage).page = .ok (hdrOk, intPage.drop 4) ∧
    (hdrState .rule []).position = some .hdr ∧ decodeElement .hdr (hdrState .rule []).page = .error .endOfPage ∧
    State.reset.unitMoves = true ∧ State.reset.Ready := by decide
theorem witness_PlacedWordRuns : decodeTableWord 8 0xFF = some (.varintCont 0x7F) ∧
    decodeTableWord 8 0x01 = some (.varintLast10 1) := by decide
theorem witness_CursorCountsBytes : encode (.raw 0x74) = .bytes [0x74] ∧
    goesOn (exec (.raw 0x74) (rawState 1)) (fun t => t.regs.status == .busy) = true := by decide
theorem witness_ErrorStateUnspecified : Err.unexpectedEOF ≠ .illegalCommand ∧ (hdrState .rule intPage).regs.srcLen = (blkState .rule 0).regs.srcLen ∧
    (hdrState .rule intPage).mem.src = (blkState .rule 0).mem.src ∧
    (hdrState .rule intPage).env.free = (blkState .rule 0).env.free := by decide
theorem witness_DiuErrors : (hdrState .rule []).isBusy ∧ (hdrState .rule []).diu.dstate ≠ .idle ∧
    (hdrState .rule []).position = some .hdr ∧
    goesOn (unitStep (hdrState .rule [])) (fun t => t.regs.status == .error .unexpectedEOF) = true := by decide
theorem witness_DbrErrors : (cmpState 3 2).Inv ∧ (cmpState 3 2).isBusy ∧ (cmpState 3 2).diu.dstate = .idle ∧
    goesOn (unitStep (cmpState 3 2)) (fun t => t.regs.status == .error .lengthMismatch) = true :=
  ⟨cmp_inv 3 2 (by decide), by decide, by decide, by decide⟩
theorem witness_RunEnds : doneState.isBusy ∧ doneState.diu.dstate = .done ∧ doneState.dbr.bstate = .idle ∧
    (lengthsState .pfx .pfx).isBusy ∧ (lengthsState .pfx .pfx).diu.dstate = .done ∧
    (lengthsState .pfx .pfx).dbr.bstate = .pfx ∧ (lengthsState .sfx .sfx).isBusy ∧
    (lengthsState .sfx .sfx).diu.dstate = .done ∧ (lengthsState .sfx .sfx).dbr.bstate = .sfx := by decide
theorem witness_CompareCounts : (cmpState 3 2).isBusy ∧ (cmpState 3 2).diu.dstate = .idle ∧
    (cmpState 3 2).dbr.bstate = .cmp ∧ (cmpState 3 2).dbr.nPfx ≠ (cmpState 3 2).dbr.nSfx ∧
    (cmpState 0 0).dbr.nPfx = (cmpState 0 0).dbr.nSfx := by decide

/-- The state of a value to be checked or emitted. -/
theorem val_at (g : Grain) (p q : Word) : (valState g p q).Inv ∧ (valState g p q).isBusy ∧
    (valState g p q).diu.dstate = .idle ∧ (valState g p q).dbr.bstate = .val ∧ (valState g p q).micro.rawLeft = 0 :=
  ⟨val_inv g p q, rfl, rfl, rfl, rfl⟩

/-- R164, one case for each check at its boundary: a negative suffix, prefix 4 of 3, suffix 4 of 3 bytes left; and, in a
unit with DST_CAP = 8, 3 + 3 + 3 bytes. -/
def smallVal : State := { valState .rule 3 3 with env.inst := { Config.reference with dstCap := 8 } }
theorem small_inv : smallVal.Inv :=
  ⟨by decide, ⟨by decide, by decide, by decide, by decide, by decide, by decide⟩,
    fun h => absurd rfl h, fun _ => ⟨by decide, by decide,
      ⟨by decide, by decide, fun _ => by decide, by decide, by decide, by decide⟩⟩⟩
theorem witness_ValueChecks :
    ((valState .rule 3 0x80000000).dbr.sfx.read .sfx 1).toInt < 0 ∧
    (0 ≤ ((valState .rule 4 1).dbr.pfx.read .pfx 1).toInt ∧ 0 ≤ ((valState .rule 4 1).dbr.sfx.read .sfx 1).toInt ∧
      (valState .rule 4 1).dbr.prevLen.toNat < ((valState .rule 4 1).dbr.pfx.read .pfx 1).toInt) ∧
    (((valState .rule 3 4).dbr.pfx.read .pfx 1).toInt ≤ (valState .rule 3 4).dbr.prevLen.toNat ∧
      ((valState .rule 3 4).regs.srcLen.toNat : Int) - (valState .rule 3 4).regs.srcCur.toNat <
        ((valState .rule 3 4).dbr.sfx.read .sfx 1).toInt) ∧
    (smallVal.isBusy ∧ (smallVal.dbr.pfx.read .pfx 1).toInt ≤ smallVal.dbr.prevLen.toNat ∧
      (smallVal.dbr.sfx.read .sfx 1).toInt ≤ (smallVal.regs.srcLen.toNat : Int) - smallVal.regs.srcCur.toNat ∧
      smallVal.env.inst.dstCap < smallVal.regs.dstLen.toNat + (smallVal.dbr.pfx.read .pfx 1).toInt +
        (smallVal.dbr.sfx.read .sfx 1).toInt) := by decide
theorem witness_ValueEmitted :
    ((valState .rule 3 1).dbr.pfx.read .pfx 1).toInt = (3 : Nat) ∧ ((valState .rule 3 1).dbr.sfx.read .sfx 1).toInt = (1 : Nat) ∧
    3 ≤ (valState .rule 3 1).dbr.prevLen.toNat ∧
    (valState .rule 3 1).regs.srcCur.toNat + 1 ≤ (valState .rule 3 1).regs.srcLen.toNat ∧
    (valState .rule 3 1).regs.dstLen.toNat + 3 + 1 ≤ (valState .rule 3 1).env.inst.dstCap ∧
    (valState .rule 3 1).env.grain = .rule ∧ (valState .byte 3 1).env.grain = .byte := by decide
theorem witness_PrefixCopyDisjoint : (valState .rule 3 1).checkValue = none := by decide
theorem witness_OffsetsClosed : closeState.Inv ∧ closeState.isBusy ∧ closeState.diu.dstate = .idle ∧
    closeState.dbr.bstate = .done := ⟨close_inv, by decide, by decide, by decide⟩
theorem witness_StepKeepsInv : (hdrState .rule intPage).Inv ∧
    goesOn (step (hdrState .rule intPage)) (fun t => t.diu.dstate == .blk) = true :=
  ⟨hdr_inv _ _ (.inl rfl), by decide⟩
theorem witness_UnitNeverStops : (rawState 2).Inv ∧ (payState 33 intPage).Inv ∧ (hdrState .byte []).Inv :=
  ⟨raw_inv 2 (.inr rfl), pay_inv 33, hdr_inv _ _ (.inr rfl)⟩
theorem witness_SourceNeverWritten : goesOn (exec .decBa (loaded .rule baPage)) (fun t => t.diu.dstate == .hdr) = true ∧
    goesOn (unitStep (rawState 1)) (fun t => t.regs.status == .busy) = true := by decide
theorem witness_CursorOnlyAdvances : closeState.Inv ∧ closeState.isBusy ∧
    goesOn (unitStep closeState) (fun t => t.regs.status == .done) = true := ⟨close_inv, by decide, by decide⟩
theorem witness_DstAppendOnly : (rawState 1).Inv ∧ (rawState 1).isBusy ∧
    goesOn (unitStep (rawState 1)) (fun t => t.regs.status == .busy) = true ∧ 5 < (rawState 1).regs.dstLen.toNat ∧
    (payState 3 intPage).Inv ∧ (payState 3 intPage).diu.dstate ≠ .idle ∧ (payState 3 intPage).diu.sink = .dst ∧
    3 < (payState 3 intPage).diu.emitted.toNat * (payState 3 intPage).diu.wSel.bytes :=
  ⟨raw_inv 1 (.inl rfl), by decide, by decide, by decide, pay_inv 3, by decide, by decide, by decide⟩
theorem witness_EveryCommandEnds : (hdrState .byte intPage).Inv ∧ (hdrState .byte intPage).isBusy ∧
    (hdrState .byte intPage).env.host = [] := ⟨hdr_inv _ _ (.inl rfl), rfl, rfl⟩
theorem witness_WholeGrainCommands : (loaded .whole baPage).MayIssue ∧ (loaded .whole baPage).env.grain = .whole :=
  ⟨loaded_mayIssue _ _ (.inr rfl), rfl⟩
theorem witness_RuleGrainInts : (loaded .rule intPage).MayIssue ∧ (loaded .rule intPage).env.grain = .rule :=
  ⟨loaded_mayIssue _ _ (.inl rfl), rfl⟩
theorem witness_CutGrainInts : (loaded .byte intPage).MayIssue ∧ (loaded .byte intPage).env.grain = .byte ∧
    (loaded .field intPage).MayIssue ∧ (loaded .field intPage).env.grain = .field :=
  ⟨loaded_mayIssue _ _ (.inl rfl), rfl, loaded_mayIssue _ _ (.inl rfl), rfl⟩
theorem witness_RuleGrainStrings : (loaded .rule baPage).MayIssue ∧ (loaded .rule baPage).env.grain = .rule :=
  ⟨loaded_mayIssue _ _ (.inr rfl), rfl⟩
theorem witness_CutGrainStrings : (loaded .byte baPage).MayIssue ∧ (loaded .byte baPage).env.grain = .byte ∧
    (loaded .field baPage).MayIssue ∧ (loaded .field baPage).env.grain = .field :=
  ⟨loaded_mayIssue _ _ (.inr rfl), rfl, loaded_mayIssue _ _ (.inr rfl), rfl⟩
theorem witness_ResultDependsOnPage : (loaded .whole intPage).MayIssue ∧ (loaded .rule intPage).MayIssue ∧
    (loaded .whole intPage).env.inst = (loaded .rule intPage).env.inst ∧
    (loaded .whole intPage).page = (loaded .rule intPage).page ∧
    (∃ t, Ends 1 (loaded .whole intPage) t) ∧ (∃ t, Ends 1 (loaded .rule intPage) t) :=
  ⟨loaded_mayIssue _ _ (.inl rfl), loaded_mayIssue _ _ (.inl rfl), rfl, rfl, ⟨_, 2, rfl, by decide⟩,
    ⟨_, 5, rfl, by decide⟩⟩
theorem witness_IntRoundTrip : Config.reference.Legal ∧ geometryLegal Config.reference 1 8 ∧
    (∀ v ∈ [(1 : DWord), 0xFFFFFFFF], isWValue .w32 v) ∧ [(1 : DWord), 0xFFFFFFFF].length ≤ min Config.maxTotal 2 :=
  ⟨by decide, ⟨by decide, ⟨3, by decide, by decide⟩, by decide, by decide⟩,
    fun v hv => by simp only [List.mem_cons, List.not_mem_nil, or_false] at hv; rcases hv with rfl | rfl <;>
      (show _ < 2 ^ 32; decide), by decide⟩
theorem witness_StringRoundTrip : Config.reference.Legal ∧ geometryLegal Config.reference 1 8 ∧
    [[0x63, 0x61], [(0x63 : Byte)]].length ≤ Config.reference.lenCap ∧
    ([[0x63, 0x61], [(0x63 : Byte)]] : List (List Byte)).flatten.length ≤ Config.reference.dstCap ∧
    (∀ v ∈ [[0x63, 0x61], [(0x63 : Byte)]], v.length < 2 ^ 31) ∧
    [0, 0].length = [[0x63, 0x61], [(0x63 : Byte)]].length ∧
    (∀ i, i < 2 → [0, 0].getD i 0 ≤ (prefixLensFrom [] [[0x63, 0x61], [(0x63 : Byte)]]).getD i 0) :=
  ⟨by decide, ⟨by decide, ⟨3, by decide, by decide⟩, by decide, by decide⟩, by decide, by decide, by decide, by decide, by decide⟩

end Sys2Proof.Machine.Tests
end

/-! ### A step is what its next action decodes to (O33) -/

namespace Sys2Proof.Machine

/-- The element at the cursor, read from the page, is what the unit executes. -/
theorem unitStep_decodes {s : State} {pos : Pos} {i : Instr} {rest : List Byte} (hp : s.position = some pos)
    (hd : decodeElement pos s.page = .ok (i, rest)) : unitStep s = exec i s :=
  unitStep_exec hp (by simp [State.fetch, hd, Except.map])

/-- Bytes of the page that are no element raise (R110, R111). -/
theorem unitStep_undecodable {s : State} {pos : Pos} {e : DecodeErr} (hp : s.position = some pos)
    (hd : decodeElement pos s.page = .error e) : unitStep s = .next (s.raise (fetchError e)) :=
  unitStep_raise hp (by simp [State.fetch, hd, Except.map])

/-- Settles O33, from the lemmas about one step: who moves, and what the unit fetches. -/
theorem stepRunsDecoded : Obligations.StepRunsDecoded := by
  unfold Obligations.StepRunsDecoded
  have popHost_of : ∀ {s : State} {op rest}, s.env.host = op :: rest → s.popHost = { s with env.host := rest } := by
    intro s op rest h
    simp [State.popHost, h]
  refine ⟨fun s op rest h => ?_, fun s h => step_of_unitMoves h, fun s w rest h => ?_,
    fun s pos i rest hm hp hd => ?_, fun s pos e hm hp hd => ?_, fun s hm hr => ?_⟩
  · rw [step_of_host h, popHost_of h]
  · rw [step_of_host h, popHost_of h]
    simp [hostStep]
  · rw [step_of_unitMoves hm]
    exact unitStep_decodes (s := s.popHost) hp hd
  · rw [step_of_unitMoves hm]
    have := unitStep_undecodable (s := s.popHost) hp hd
    cases e with
    | endOfPage => exact this
    | varintTooLong => exact this
  · rw [step_of_unitMoves hm]
    exact unitStep_ready (s := s.popHost) hr

/-! ### What no instruction and no step of the unit changes -/

/-- `t` has the page's bytes, SRC_LEN, the parameters, the grain and the host's list of `s` (R41, R13, R25). -/
structure SameInput (s t : State) : Prop where
  src : t.mem.src = s.mem.src
  srcLen : t.regs.srcLen = s.regs.srcLen
  inst : t.env.inst = s.env.inst
  grain : t.env.grain = s.env.grain
  host : t.env.host = s.env.host

namespace SameInput

theorem refl (s : State) : SameInput s s := ⟨rfl, rfl, rfl, rfl, rfl⟩

theorem trans {s t u : State} (h : SameInput s t) (k : SameInput t u) : SameInput s u :=
  ⟨k.src.trans h.src, k.srcLen.trans h.srcLen, k.inst.trans h.inst, k.grain.trans h.grain, k.host.trans h.host⟩

theorem raise (s : State) (e : Err) : SameInput s (s.raise e) := ⟨rfl, rfl, rfl, rfl, rfl⟩

theorem advance (s : State) (n : Nat) : SameInput s (s.advance n) := ⟨rfl, rfl, rfl, rfl, rfl⟩

theorem emitAll {vs : List DWord} {s t : State} (h : s.emitAll vs = some t) : SameInput s t := by
  rw [(State.emitAll_some h).1]
  exact ⟨rfl, rfl, rfl, rfl, rfl⟩

theorem storeDst {a : Nat} {bs : List Byte} {s t : State} (h : s.storeDst a bs = some t) : SameInput s t := by
  rw [(State.storeDst_some h).2]
  exact ⟨rfl, rfl, rfl, rfl, rfl⟩

theorem storeOfs {i : Nat} {v : Word} {s t : State} (h : s.storeOfs i v = some t) : SameInput s t := by
  rw [(State.storeOfs_some h).2]
  exact ⟨rfl, rfl, rfl, rfl, rfl⟩

theorem finishHeader {f : DWord} {s t : State} (h : finishHeader f s = .next t) : SameInput s t := by
  rcases finishHeader_cases f s with ⟨e, _, h'⟩ | ⟨_, _, h'⟩ | ⟨_, _, h'⟩ <;> rw [h'] at h
  · cases h
    exact raise s e
  · cases h
    exact ⟨rfl, rfl, rfl, rfl, rfl⟩
  · obtain ⟨u, hu, hk⟩ := orOutside_next h
    cases hk
    have := (State.emit_some hu).1
    exact ⟨by rw [this], by rw [this], by rw [this], by rw [this], by rw [this]⟩

theorem takeField {v : DWord} {s t : State} (h : takeField v s = .next t) : SameInput s t := by
  rcases takeField_cases v s with ⟨_, _, h'⟩ | ⟨_, _, h'⟩ | ⟨_, _, h'⟩ | ⟨_, _, h'⟩ | ⟨_, h'⟩ | ⟨_, _, h'⟩ <;>
    rw [h'] at h
  · cases h; exact ⟨rfl, rfl, rfl, rfl, rfl⟩
  · cases h; exact ⟨rfl, rfl, rfl, rfl, rfl⟩
  · cases h; exact ⟨rfl, rfl, rfl, rfl, rfl⟩
  · exact finishHeader h
  · cases h; exact ⟨rfl, rfl, rfl, rfl, rfl⟩
  · cases h

theorem issue {body : State → State} {s t : State} (h : issue body s = .next t) (hb : ∀ u, SameInput u (body u)) :
    SameInput s t := by
  unfold Machine.issue at h
  split at h
  · cases h; exact refl s
  · dsimp only at h
    split at h
    · cases h; exact ⟨rfl, rfl, rfl, rfl, rfl⟩
    · cases h
      have := hb { s with
        regs.status := .busy, regs.outCount := 0, regs.dstLen := 0, diu.emitted := 0, dbr.prevLen := 0 }
      exact ⟨this.src, this.srcLen, this.inst, this.grain, this.host⟩

theorem nextValue (s : State) : SameInput s s.nextValue := by
  unfold State.nextValue
  split
  · exact ⟨rfl, rfl, rfl, rfl, rfl⟩
  · exact refl s

theorem beginValue {s t : State} (h : s.beginValue = some t) : SameInput s t := by
  unfold State.beginValue at h
  obtain ⟨u, hu, rfl⟩ := Option.map_eq_some_iff.mp h
  obtain ⟨v, hv, hu⟩ := Option.bind_eq_some_iff.mp hu
  have := (storeOfs hv).trans (storeDst hu)
  exact ⟨this.src, this.srcLen, this.inst, this.grain, this.host⟩

theorem copySuffix {s t : State} (h : s.copySuffix = some t) : SameInput s t := by
  unfold State.copySuffix at h
  obtain ⟨u, hu, rfl⟩ := Option.map_eq_some_iff.mp h
  have := storeDst hu
  exact ⟨this.src, this.srcLen, this.inst, this.grain, this.host⟩

theorem emitValue {s t : State} (h : s.emitValue = some t) : SameInput s t := by
  have cut : s.beginValue.map State.nextValue = some t → SameInput s t := by
    intro h
    obtain ⟨u, hu, rfl⟩ := Option.map_eq_some_iff.mp h
    exact (beginValue hu).trans (nextValue u)
  have whole : (s.beginValue.bind State.copySuffix).map State.nextValue = some t → SameInput s t := by
    intro h
    obtain ⟨u, hu, rfl⟩ := Option.map_eq_some_iff.mp h
    obtain ⟨v, hv, hu⟩ := Option.bind_eq_some_iff.mp hu
    exact ((beginValue hv).trans (copySuffix hu)).trans (nextValue u)
  unfold State.emitValue at h
  cases hg : s.env.grain <;> rw [hg] at h
  · exact cut h
  · exact cut h
  · exact whole h
  · exact whole h

/-- R41, R13, R25 of every instruction. -/
theorem exec {i : Instr} {s t : State} (h : exec i s = .next t) : SameInput s t := by
  cases i with
  | clr =>
    simp only [Machine.exec, execClr] at h
    split at h <;> cases h <;> exact ⟨rfl, rfl, rfl, rfl, rfl⟩
  | decI32 =>
    simp only [Machine.exec, execDecI32] at h
    exact issue h fun _ => ⟨rfl, rfl, rfl, rfl, rfl⟩
  | decI64 =>
    simp only [Machine.exec, execDecI64] at h
    exact issue h fun _ => ⟨rfl, rfl, rfl, rfl, rfl⟩
  | decBa =>
    simp only [Machine.exec, execDecBa] at h
    exact issue h fun _ => ⟨rfl, rfl, rfl, rfl, rfl⟩
  | illegal w =>
    simp only [Machine.exec, execIllegal] at h
    split at h <;> cases h <;> exact ⟨rfl, rfl, rfl, rfl, rfl⟩
  | varintCont g =>
    obtain ⟨_, h⟩ := inPlace_next h
    cases h; exact ⟨rfl, rfl, rfl, rfl, rfl⟩
  | varintLast g =>
    have := takeField (inPlace_next h).2
    exact ⟨this.src, this.srcLen, this.inst, this.grain, this.host⟩
  | varintLast10 g =>
    have := takeField (inPlace_next h).2
    exact ⟨this.src, this.srcLen, this.inst, this.grain, this.host⟩
  | uvarint v => exact (advance s _).trans (takeField (inPlace_next h).2)
  | zzvarint v => exact (advance s _).trans (takeField (inPlace_next h).2)
  | hdr b m t f =>
    have := finishHeader (inPlace_next h).2
    exact ⟨this.src, this.srcLen, this.inst, this.grain, this.host⟩
  | blkMin v => exact (advance s _).trans (takeField (inPlace_next h).2)
  | blkWidth w =>
    have h := (inPlace_next h).2
    dsimp only at h
    repeat' split at h
    all_goals cases h
    all_goals exact ⟨rfl, rfl, rfl, rfl, rfl⟩
  | mb payload =>
    have h := (inPlace_next h).2
    dsimp only at h
    repeat' split at h
    · cases h; exact raise s _
    · cases h; exact raise s _
    · cases h
    · obtain ⟨u, hu, hk⟩ := orOutside_next h
      cases hk
      have := emitAll hu
      exact ⟨this.src, this.srcLen, this.inst, this.grain, this.host⟩
  | raw b =>
    obtain ⟨u, hu, hk⟩ := orOutside_next (inPlace_next h).2
    cases hk
    have := storeDst hu
    have next := nextValue { u.advance 1 with
      regs.dstLen := s.regs.dstLen + 1, micro.rawLeft := s.micro.rawLeft - 1 }
    exact this.trans ⟨next.src, next.srcLen, next.inst, next.grain, next.host⟩
  | pageInt page =>
    have h := (inPlace_next h).2
    split at h
    · cases h; exact raise s _
    · obtain ⟨u, hu, hk⟩ := orOutside_next h
      cases hk
      have := emitAll hu
      exact ⟨this.src, this.srcLen, this.inst, this.grain, this.host⟩
  | pageBa page =>
    have h := (inPlace_next h).2
    split at h
    · cases h; exact raise s _
    · dsimp only at h
      split at h
      · cases h
      · obtain ⟨u, hu, hk⟩ := orOutside_next h
        cases hk
        have := storeDst hu
        exact ⟨this.src, this.srcLen, this.inst, this.grain, this.host⟩

theorem sequence {s t : State} (h : sequence s = .next t) : SameInput s t := by
  unfold Machine.sequence at h
  split at h
  · cases h; exact ⟨rfl, rfl, rfl, rfl, rfl⟩
  · cases h; exact ⟨rfl, rfl, rfl, rfl, rfl⟩
  · cases h; exact ⟨rfl, rfl, rfl, rfl, rfl⟩
  · cases h
    unfold State.compareCounts
    split
    · exact raise s _
    · exact ⟨rfl, rfl, rfl, rfl, rfl⟩
  · unfold valueStep at h
    split at h
    · cases h; exact raise s _
    · obtain ⟨u, hu, hk⟩ := orOutside_next h
      cases hk
      exact emitValue hu
  · obtain ⟨u, hu, hk⟩ := orOutside_next h
    cases hk
    have := storeOfs hu
    exact ⟨this.src, this.srcLen, this.inst, this.grain, this.host⟩
  · cases h

/-- R41, R13, R25 of every step of the unit. -/
theorem unitStep {s t : State} (h : unitStep s = .next t) : SameInput s t := by
  unfold Machine.unitStep at h
  split at h
  · split at h
    · split at h
      · exact exec h
      · cases h; exact raise s _
    · exact sequence h
  · cases h; exact refl s

end SameInput

/-! ### The unit always answers a next state of the invariant -/

/-- From a state of the invariant the unit's step answers a next state of the invariant. -/
theorem unitStep_inv {s : State} (hI : s.Inv) : ∃ t, unitStep s = .next t ∧ t.Inv := by
  by_cases hb : s.isBusy
  case neg => exact ⟨s, unitStep_ready hb, hI⟩
  cases hp : s.position with
  | none => rw [unitStep_sequence hb hp]; exact sequence_inv hI hb hp
  | some p =>
    cases hd : decodeElement p s.page with
    | error e => exact ⟨_, unitStep_undecodable hp hd, raise_inv hI.legal hI.memories _⟩
    | ok r =>
      obtain ⟨i, rest⟩ := r
      rw [unitStep_decodes hp hd]
      obtain ⟨ha, ht⟩ := fetch_ok (i := i) hp (by simp [State.fetch, hd, Except.map])
      obtain ⟨q, hq, hfit⟩ := ha.pos
      cases i with
      | clr => simp [Instr.fits] at hfit
      | decI32 => simp [Instr.fits] at hfit
      | decI64 => simp [Instr.fits] at hfit
      | decBa => simp [Instr.fits] at hfit
      | illegal w => simp [Instr.fits] at hfit
      | varintCont g => exact exec_fields_inv hI ha ht (by simp)
      | varintLast g => exact exec_fields_inv hI ha ht (by simp)
      | varintLast10 g => exact exec_fields_inv hI ha ht (by simp)
      | uvarint v => exact exec_fields_inv hI ha ht (by simp)
      | zzvarint v => exact exec_fields_inv hI ha ht (by simp)
      | blkMin v => exact exec_fields_inv hI ha ht (by simp)
      | hdr b m t f => exact exec_hdr_inv hI ha ht
      | blkWidth w => exact exec_width_inv hI ha ht
      | mb bs =>
        refine exec_mb_inv hI ha fun hle => ?_
        cases p <;> simp only [hp, Option.some.injEq] at hq <;> subst hq <;> simp [Instr.fits] at hfit
        obtain ⟨_, _, hn⟩ := position_mb hp
        simp only [decodeElement, Except.ok.injEq, Prod.mk.injEq, Instr.mb.injEq] at hd
        rw [← hd.1, List.length_take, State.length_page, hn]
        omega
      | raw b => exact exec_raw_inv hI ha
      | pageInt pg => exact exec_pageInt_inv hI ha ht
      | pageBa pg => exact exec_pageBa_inv hI ha ht

/-- What the unit steps to from a state of the invariant is of the invariant. -/
theorem inv_of_unitStep {s t : State} (hI : s.Inv) (h : unitStep s = .next t) : t.Inv := by
  obtain ⟨u, hu, hui⟩ := unitStep_inv hI
  rw [hu] at h
  cases h
  exact hui

end Sys2Proof.Machine

/-! ### The pure functions, as the unit meets them -/

namespace Sys2Proof.Machine

/-- `parseVarint` takes the varint's own bytes off the head. -/
theorem parseVarint_rest {k : Nat} {bs rest : List Byte} {v : Varint} (h : parseVarint k bs = .ok (v, rest)) :
    rest = bs.drop v.size := by
  induction bs generalizing k v with
  | nil => simp [parseVarint] at h
  | cons b bs ih =>
    unfold parseVarint at h
    split at h
    · cases h
    · split at h
      · cases hr : parseVarint (k + 1) bs with
        | error e => simp [hr, Except.map] at h
        | ok r =>
          simp only [hr, Except.map, Except.ok.injEq, Prod.mk.injEq] at h
          obtain ⟨rfl, rfl⟩ := h
          simpa [Varint.size] using ih hr
      · simp only [Except.ok.injEq, Prod.mk.injEq] at h
        obtain ⟨rfl, rfl⟩ := h
        simp [Varint.size]

/-- The varint at the head of the page, of which `k` bytes with the value `v` have been read (R111): its value and the
bytes after it. -/
def readVarintFrom (k : Nat) (v : DWord) (page : List Byte) : Except Err (DWord × List Byte) :=
  match parseVarint k page with
  | .ok (x, rest) => .ok (addGroups v k (x.conts ++ [x.last]), rest)
  | .error e => .error (fetchError e)

theorem readVarintFrom_zero (page : List Byte) : readVarintFrom 0 0 page = readUvarint page := rfl

@[simp] theorem readVarintFrom_nil (k : Nat) (v : DWord) : readVarintFrom k v [] = .error .unexpectedEOF := rfl

/-- A non-final byte adds its group, a final one ends the varint (R111). -/
theorem readVarintFrom_cons {k : Nat} (hk : k < 9) (v : DWord) (b : Byte) (page : List Byte) :
    readVarintFrom k v (b :: page) =
      if continues b then readVarintFrom (k + 1) (addGroup v k (groupOf b)) page
      else .ok (addGroup v k (groupOf b), page) := by
  unfold readVarintFrom
  rw [parseVarint, if_neg (by omega)]
  by_cases hc : continues b
  · rw [if_pos hc, if_pos hc]
    cases parseVarint (k + 1) page with
    | error e => rfl
    | ok r => rfl
  · rw [if_neg hc, if_neg hc]
    rfl

/-- A byte of at most 1 has no continuation flag. -/
theorem continues_of_le_one {b : Byte} (h : b.toNat ≤ 1) : continues b = false := by
  have : b.toNat = 0 ∨ b.toNat = 1 := by omega
  rcases this with h | h
  · rw [show b = 0#8 from BitVec.eq_of_toNat_eq h]; rfl
  · rw [show b = 1#8 from BitVec.eq_of_toNat_eq h]; rfl

/-- In byte position 10 only 0 and 1 are legal (R70, R111). -/
theorem readVarintFrom_tenth (v : DWord) (b : Byte) (page : List Byte) :
    readVarintFrom 9 v (b :: page) =
      if b.toNat ≤ 1 then .ok (addGroup v 9 ((b.extractLsb' 0 1).setWidth 7), page) else .error .malformedHeader := by
  unfold readVarintFrom
  rw [parseVarint]
  by_cases hb : b.toNat ≤ 1
  · rw [if_neg (by omega), if_pos hb, continues_of_le_one hb]
    have hg : groupOf b = (b.extractLsb' 0 1).setWidth 7 := by
      apply BitVec.eq_of_toNat_eq
      simp only [groupOf, BitVec.extractLsb'_toNat, BitVec.toNat_setWidth]
      omega
    rw [← hg]
    rfl
  · rw [if_pos (by omega), if_neg hb]
    rfl

/-- `fuel` of at least the page's length is as good as any: each block takes a byte (R139). -/
theorem decodeBlocks_fuel {w : Width} {mbCount mbSize : Nat} {fuel fuel' missing : Nat} {run : DWord} {page : List Byte}
    (h : page.length ≤ fuel) (h' : page.length ≤ fuel') :
    decodeBlocks w mbCount mbSize fuel missing run page = decodeBlocks w mbCount mbSize fuel' missing run page := by
  have empty : ∀ f m r, decodeBlocks w mbCount mbSize f (m + 1) r [] = .error .unexpectedEOF := by
    intro f m r
    cases f <;> rfl
  induction fuel generalizing fuel' missing run page with
  | zero =>
    obtain rfl : page = [] := List.length_eq_zero_iff.mp (by omega)
    cases missing with
    | zero => cases fuel' <;> rfl
    | succ m => rw [empty, empty]
  | succ fuel ih =>
    cases fuel' with
    | zero =>
      obtain rfl : page = [] := List.length_eq_zero_iff.mp (by omega)
      cases missing with
      | zero => rfl
      | succ m => rw [empty, empty]
    | succ fuel' =>
      rw [decodeBlocks, decodeBlocks]
      by_cases hm : missing = 0
      · rw [if_pos hm, if_pos hm]
      rw [if_neg hm, if_neg hm]
      simp only [bind, Except.bind]
      cases e1 : readUvarint page with
      | error e => rfl
      | ok r1 =>
        dsimp only
        cases e2 : readWidths mbCount r1.2 with
        | error e => rfl
        | ok r2 =>
          dsimp only
          cases e3 : decodeMiniblocks w mbSize (zzValue w r1.1) r2.1 missing run r2.2 with
          | error e => rfl
          | ok d =>
            dsimp only
            have h1 := readUvarint_ok (u := r1.1) (rest := r1.2) e1
            have h2 := congrArg List.length (readWidths_ok (ws := r2.1) (rest := r2.2) e2).2
            have h3 := (decodeMiniblocks_ok e3).2
            rw [List.length_append] at h2
            rw [ih (fuel' := fuel') (by omega) (by omega)]

/-- Values put in front of what a stretch of a stream gives. -/
def prepend (us : List DWord) (r : List DWord × List Byte) : List DWord × List Byte := (us ++ r.1, r.2)

@[simp] theorem map_prepend_nil (r : Except Err (List DWord × List Byte)) : r.map (prepend []) = r := by
  cases r <;> rfl

theorem map_prepend_append (us vs : List DWord) (r : Except Err (List DWord × List Byte)) :
    (r.map (prepend vs)).map (prepend us) = r.map (prepend (us ++ vs)) := by
  cases r <;> simp [Except.map, prepend]

/-- The blocks of a stream from a place where a block starts (R139): the values still missing, and the page after
them. -/
def blocksRest (w : Width) (mbCount mbSize missing : Nat) (run : DWord) (page : List Byte) :
    Except Err (List DWord × List Byte) :=
  (decodeBlocks w mbCount mbSize page.length missing run page).map fun d => (d.values, d.rest)

/-- The rest of a block from a place where a miniblock starts, `ws` being the width bytes still to use, and the blocks
after it (R139). -/
def miniblocksRest (w : Width) (mbCount mbSize : Nat) (minDelta : DWord) (ws : List Byte) (missing : Nat) (run : DWord)
    (page : List Byte) : Except Err (List DWord × List Byte) :=
  match decodeMiniblocks w mbSize minDelta ws missing run page with
  | .error e => .error e
  | .ok d => (blocksRest w mbCount mbSize d.missing d.run d.rest).map (prepend d.values)

@[simp] theorem blocksRest_zero (w : Width) (mbCount mbSize : Nat) (run : DWord) (page : List Byte) :
    blocksRest w mbCount mbSize 0 run page = .ok ([], page) := by
  unfold blocksRest
  rw [decodeBlocks.eq_def]
  rfl

/-- A block is its min delta, its width bytes and its miniblocks. -/
theorem blocksRest_succ {w : Width} {mbCount mbSize missing : Nat} (h : missing ≠ 0) (run : DWord)
    (page : List Byte) :
    blocksRest w mbCount mbSize missing run page =
      (readUvarint page).bind fun r => (readWidths mbCount r.2).bind fun x =>
        miniblocksRest w mbCount mbSize (zzValue w r.1) x.1 missing run x.2 := by
  unfold blocksRest
  rw [decodeBlocks_fuel (Nat.le_refl _) (Nat.le_succ _), decodeBlocks, if_neg h]
  simp only [bind, Except.bind]
  cases e1 : readUvarint page with
  | error e => rfl
  | ok r1 =>
    dsimp only
    cases e2 : readWidths mbCount r1.2 with
    | error e => rfl
    | ok r2 =>
      dsimp only [miniblocksRest]
      cases e3 : decodeMiniblocks w mbSize (zzValue w r1.1) r2.1 missing run r2.2 with
      | error e => rfl
      | ok d =>
        dsimp only [blocksRest]
        have h1 := readUvarint_ok (u := r1.1) (rest := r1.2) e1
        have h2 := congrArg List.length (readWidths_ok (ws := r2.1) (rest := r2.2) e2).2
        have h3 := (decodeMiniblocks_ok e3).2
        rw [List.length_append] at h2
        rw [decodeBlocks_fuel (fuel' := d.rest.length) (by omega) (Nat.le_refl _)]
        cases decodeBlocks w mbCount mbSize d.rest.length d.missing d.run d.rest <;> rfl

@[simp] theorem miniblocksRest_zero (w : Width) (mbCount mbSize : Nat) (minDelta : DWord) (ws : List Byte) (run : DWord)
    (page : List Byte) : miniblocksRest w mbCount mbSize minDelta ws 0 run page = .ok ([], page) := by
  unfold miniblocksRest
  cases ws <;> simp [decodeMiniblocks, Except.map, prepend]

@[simp] theorem miniblocksRest_nil (w : Width) (mbCount mbSize : Nat) (minDelta : DWord) (missing : Nat) (run : DWord)
    (page : List Byte) :
    miniblocksRest w mbCount mbSize minDelta [] missing run page = blocksRest w mbCount mbSize missing run page := by
  simp [miniblocksRest, decodeMiniblocks]

/-- A miniblock whose width byte and payload R136 accepts. -/
theorem miniblocksRest_cons {w : Width} {mbCount mbSize : Nat} {minDelta : DWord} {b : Byte} {ws : List Byte}
    {missing : Nat} {run : DWord} {page : List Byte} (hm : missing ≠ 0) (hw : b.toNat ≤ w.bits)
    (hp : payloadBytes mbSize b.toNat ≤ page.length) {vs : List DWord}
    (hvs : vs = accumulateAll w minDelta run
      (fields (page.take (payloadBytes mbSize b.toNat)) b.toNat (min mbSize missing))) :
    miniblocksRest w mbCount mbSize minDelta (b :: ws) missing run page =
      (miniblocksRest w mbCount mbSize minDelta ws (missing - min mbSize missing) (lastRun run vs)
        (page.drop (payloadBytes mbSize b.toNat))).map (prepend vs) := by
  subst hvs
  unfold miniblocksRest
  rw [decodeMiniblocks, if_neg hm, if_neg (by omega)]
  dsimp only
  rw [if_neg (by omega)]
  cases decodeMiniblocks w mbSize minDelta ws (missing - min mbSize missing) _ _ with
  | error e => rfl
  | ok d => exact (map_prepend_append _ _ _).symm

/-- The first error of a miniblock (R136): a width above W, then a payload beyond the page. -/
theorem miniblocksRest_error {w : Width} {mbCount mbSize : Nat} {minDelta : DWord} {b : Byte} {ws : List Byte}
    {missing : Nat} {run : DWord} {page : List Byte} (hm : missing ≠ 0) :
    (w.bits < b.toNat →
      miniblocksRest w mbCount mbSize minDelta (b :: ws) missing run page = .error .invalidBitWidth) ∧
    (b.toNat ≤ w.bits → page.length < payloadBytes mbSize b.toNat →
      miniblocksRest w mbCount mbSize minDelta (b :: ws) missing run page = .error .unexpectedEOF) := by
  unfold miniblocksRest
  rw [decodeMiniblocks, if_neg hm]
  refine ⟨fun h => ?_, fun h h' => ?_⟩
  · rw [if_pos h]
  · rw [if_neg (by omega)]
    dsimp only
    rw [if_pos h']

/-- DecodeInt after the four fields of the header (R132, R133, R139). -/
def headerRest (p : Config.Instance) (w : Width) (cap : Nat) (blockSize mbCount total f : DWord) (page : List Byte) :
    Except Err (List DWord × List Byte) :=
  match headerError p cap blockSize mbCount total with
  | some e => .error e
  | none =>
    if total = 0 then .ok ([], page)
    else
      (blocksRest w mbCount.toNat (blockSize / mbCount).toNat (total.toNat - 1) (zzValue w f) page).map
        (prepend [zzValue w f])

/-- DecodeInt is four varints and the rest (R131, R139). -/
theorem decodeIntPage_eq (p : Config.Instance) (w : Width) (cap : Nat) (page : List Byte) :
    decodeIntPage p w cap page =
      (readUvarint page).bind fun b => (readUvarint b.2).bind fun m => (readUvarint m.2).bind fun t =>
        (readUvarint t.2).bind fun f => headerRest p w cap b.1 m.1 t.1 f.1 f.2 := by
  unfold decodeIntPage headerRest
  simp only [bind, Except.bind, pure, Except.pure]
  cases readUvarint page with
  | error e => rfl
  | ok b =>
  dsimp only
  cases readUvarint b.2 with
  | error e => rfl
  | ok m =>
  dsimp only
  cases readUvarint m.2 with
  | error e => rfl
  | ok t =>
  dsimp only
  cases readUvarint t.2 with
  | error e => rfl
  | ok f =>
  dsimp only
  cases headerError p cap b.1 m.1 t.1 with
  | some e => rfl
  | none =>
    dsimp only
    split
    · rfl
    · unfold blocksRest
      cases decodeBlocks w m.1.toNat (b.1 / m.1).toNat f.2.length (t.1.toNat - 1) (zzValue w f.1) f.2 <;> rfl

end Sys2Proof.Machine

/-! ### What a step of a DIU run leaves -/

namespace Sys2Proof.Machine
open State

/-- What R4 bounds, as the numbers that keep 32-bit counters from wrapping. -/
theorem dstCap_lt {p : Config.Instance} (h : p.Legal) : p.dstCap < 2 ^ 32 := by
  obtain ⟨_, ⟨_, _, hd⟩, _, _⟩ := h
  omega

theorem lenCap_lt {p : Config.Instance} (h : p.Legal) : p.lenCap < 2 ^ 31 := by
  obtain ⟨_, _, ⟨_, hl⟩, _⟩ := h
  omega

theorem Wrote.nil {w : Nat} (sp : Space) (a : Nat) (m : Memory w) : Wrote sp a [] m m := ⟨rfl, fun _ _ => rfl⟩

/-- Values written right after values are one longer list of values. -/
theorem Wrote.append {w : Nat} {sp : Space} {a : Nat} {us vs : List (BitVec w)} {m k l : Memory w}
    (h : Wrote sp a us m k) (h' : Wrote sp (a + us.length) vs k l) : Wrote sp a (us ++ vs) m l := by
  refine ⟨?_, fun b hb => ?_⟩
  · rw [List.length_append, Memory.readList_append, h'.inside,
      Memory.readList_congr sp l k a us.length fun b _ hb => h'.outside b (.inl hb), h.inside]
  · rw [List.length_append] at hb
    rw [h'.outside b (by omega), h.outside b (by omega)]

namespace State

/-- Inside the page the cursor does not wrap. -/
theorem cursor_toNat {s : State} {n : Nat} (h : n ≤ s.page.length) :
    (s.regs.srcCur + BitVec.ofNat 32 n).toNat = s.regs.srcCur.toNat + n := by
  have h1 := s.regs.srcCur.isLt
  have h2 := s.regs.srcLen.isLt
  rw [length_page] at h
  exact Word.toNat_add_ofNat (by omega)

/-- The page after `n` of its bytes have been read. -/
theorem page_drop {s t : State} {n : Nat} (h : n ≤ s.page.length) (hs : t.mem.src = s.mem.src)
    (hl : t.regs.srcLen = s.regs.srcLen) (hc : t.regs.srcCur = s.regs.srcCur + BitVec.ofNat 32 n) :
    t.page = s.page.drop n := by
  have hc' := cursor_toNat h
  rw [← hc] at hc'
  simp only [page, hs, hl, hc', Memory.drop_readList]
  congr 1
  omega

theorem page_congr {s t : State} (hs : t.mem.src = s.mem.src) (hl : t.regs.srcLen = s.regs.srcLen)
    (hc : t.regs.srcCur = s.regs.srcCur) : t.page = s.page := by
  simp only [page, hs, hl, hc]

end State

/-- A stretch of a DIU run from `s` to `t` emits `us`, moves the cursor, and leaves alone what is not the run's. -/
structure RunStep (s t : State) (us : List DWord) : Prop where
  sink : SinkGets s t us
  regs : t.regs = { s.regs with srcCur := t.regs.srcCur }
  dbr : t.dbr = { s.dbr with pfx := t.dbr.pfx, sfx := t.dbr.sfx }
  env : t.env = s.env
  wSel : t.diu.wSel = s.diu.wSel
  sinkSel : t.diu.sink = s.diu.sink
  sinkCap : t.diu.sinkCap = s.diu.sinkCap

/-- Nothing emitted, every memory as it was. -/
theorem SinkGets.nil {s t : State} (he : t.diu.emitted = s.diu.emitted) (hm : t.mem = s.mem)
    (hp : t.dbr.pfx = s.dbr.pfx) (hs : t.dbr.sfx = s.dbr.sfx) : SinkGets s t [] := by
  refine ⟨by rw [he]; rfl, ?_, by rw [hm], by rw [hm]⟩
  cases s.diu.sink with
  | dst => rw [hm]; exact ⟨Wrote.nil _ _ _, hp, hs⟩
  | pfx => rw [hm, hp]; exact ⟨Wrote.nil _ _ _, rfl, hs⟩
  | sfx => rw [hm, hs]; exact ⟨Wrote.nil _ _ _, rfl, hp⟩

/-- One stretch of Emit after another. -/
theorem SinkGets.append {s t u : State} {us vs : List DWord} (h : SinkGets s t us) (h' : SinkGets t u vs)
    (hk : t.diu.sink = s.diu.sink) (hw : t.diu.wSel = s.diu.wSel) : SinkGets s u (us ++ vs) := by
  obtain ⟨e1, k1, s1, o1⟩ := h
  obtain ⟨e2, k2, s2, o2⟩ := h'
  refine ⟨by rw [e2, e1, List.length_append]; omega, ?_, s2.trans s1, o2.trans o1⟩
  rw [hk, hw, e1] at k2
  cases hsink : s.diu.sink <;> simp only [hsink] at k1 k2 ⊢
  case dst =>
    obtain ⟨w1, p1, q1⟩ := k1
    obtain ⟨w2, p2, q2⟩ := k2
    refine ⟨?_, p2.trans p1, q2.trans q1⟩
    rw [List.flatMap_append]
    refine w1.append ?_
    have hlen : (us.flatMap (leBytes s.diu.wSel.bytes)).length = us.length * s.diu.wSel.bytes := by
      simp [List.length_flatMap]
    rw [hlen, ← Nat.add_mul]
    exact w2
  case pfx =>
    obtain ⟨w1, p1, q1⟩ := k1
    obtain ⟨w2, p2, q2⟩ := k2
    refine ⟨?_, p2.trans p1, q2.trans q1⟩
    rw [List.map_append]
    exact w1.append (by rw [List.length_map]; exact w2)
  case sfx =>
    obtain ⟨w1, p1, q1⟩ := k1
    obtain ⟨w2, p2, q2⟩ := k2
    refine ⟨?_, p2.trans p1, q2.trans q1⟩
    rw [List.map_append]
    exact w1.append (by rw [List.length_map]; exact w2)

theorem RunStep.append {s t u : State} {us vs : List DWord} (h : RunStep s t us) (h' : RunStep t u vs) :
    RunStep s u (us ++ vs) :=
  ⟨h.sink.append h'.sink h.sinkSel h.wSel, by rw [h'.regs, h.regs], by rw [h'.dbr, h.dbr], h'.env.trans h.env,
    h'.wSel.trans h.wSel, h'.sinkSel.trans h.sinkSel, h'.sinkCap.trans h.sinkCap⟩

theorem RunStep.refl (s : State) : RunStep s s [] := ⟨SinkGets.nil rfl rfl rfl rfl, rfl, rfl, rfl, rfl, rfl, rfl⟩

/-- R133 is a stretch of the run that emits the first value, if there is one. -/
theorem HeaderEnds.runStep {s t : State} {f : DWord} (h : HeaderEnds s f t) :
    RunStep s t (if s.diu.total = 0 then [] else [f]) :=
  ⟨h.sink, by rw [h.regs], h.dbr, h.env, by rw [h.diu], by rw [h.diu], by rw [h.diu]⟩

/-- R132 and R133 in a run that has emitted nothing: the error of the header, or the first value emitted. -/
theorem finishHeader_ends {s : State} (f : DWord) (hl : s.env.inst.Legal) (hs : s.SinkOk) (he : s.diu.emitted = 0) :
    (∃ e, headerError s.env.inst s.diu.sinkCap.toNat s.diu.blockSize s.diu.mbCount s.diu.total = some e ∧
      finishHeader f s = .next (s.raise e)) ∨
    (headerError s.env.inst s.diu.sinkCap.toNat s.diu.blockSize s.diu.mbCount s.diu.total = none ∧
      ∃ t, finishHeader f s = .next t ∧ HeaderEnds s f t) := by
  rcases finishHeader_cases f s with h | ⟨hn, h0, h⟩ | ⟨hn, h0, h⟩
  · exact .inl h
  · refine .inr ⟨hn, _, h, rfl, ?_, ?_, rfl, rfl, rfl⟩
    · simp [h0]
    · rw [if_pos h0]
      exact SinkGets.nil rfl rfl rfl rfl
  · obtain ⟨_, _, _, _, _, ht, _, hcap⟩ := headerError_none hn
    have hrem := total_sub h0 ht
    have hpos : 0 < s.diu.total.toNat := Nat.pos_of_ne_zero fun hz => h0 (BitVec.eq_of_toNat_eq hz)
    obtain ⟨u, hu, hg, eu⟩ := emitAll_sinkGets
      (s := { s with diu.mbSize := s.diu.blockSize / s.diu.mbCount, diu.run := f }) (vs := [f]) hl
      (by rw [← hs.1]; simp only [he, List.length_singleton]; show 0 + 1 ≤ s.diu.sinkCap.toNat; omega)
    rw [emitAll, Option.bind_eq_some_iff] at hu
    obtain ⟨v, hv, hvu⟩ := hu
    obtain rfl := Option.some.inj hvu
    rw [hv, orOutside_some] at h
    refine .inr ⟨hn, _, h, ?_, ?_, ?_, ?_, ?_, ?_⟩
    · rw [eu]
    · have hz : ((s.diu.total - 1).setWidth 32 : Word) = 0 ↔ s.diu.total.toNat ≤ 1 := by
        rw [← BitVec.toNat_inj, hrem]
        simp
        omega
      rw [eu]
      simp only [hz, if_neg h0, List.length_singleton]
      rfl
    · rw [if_neg h0]
      exact ⟨hg.emitted, hg.sink, hg.src, hg.ofs⟩
    · rw [eu]
    · rw [eu]
    · rw [eu]

/-! ### How far a command has come -/

/-- How many states of a DIU run can still follow DSTATE, blocks counted as one. -/
def DState.toGo : DState → Nat
  | .hdr => 2
  | .blk => 1
  | .wid => 1
  | .pay => 1
  | .done => 0
  | .idle => 0

/-- How many states of DEC_BA can still follow BSTATE, each run counted as its three. -/
def BState.toGo : BState → Nat
  | .pfx => 6
  | .sfx => 3
  | .cmp => 2
  | .val => 1
  | .done => 0
  | .idle => 0

namespace State

/-- The bytes of the page and the values that are still to come. -/
def todo (s : State) : Nat :=
  s.page.length + if s.diu.dstate = .idle then s.dbr.nPfx.toNat - s.dbr.idx.toNat else s.diu.remaining.toNat

/-- What every step of a running command lowers. -/
def rank (s : State) : Nat ×ₗ Nat := toLex (s.dbr.bstate.toGo + s.diu.dstate.toGo, s.todo)

theorem rank_lt_of_phase {s t : State}
    (h : t.dbr.bstate.toGo + t.diu.dstate.toGo < s.dbr.bstate.toGo + s.diu.dstate.toGo) : t.rank < s.rank :=
  Prod.Lex.toLex_lt_toLex.mpr (.inl h)

theorem rank_lt_of_todo {s t : State}
    (h : t.dbr.bstate.toGo + t.diu.dstate.toGo = s.dbr.bstate.toGo + s.diu.dstate.toGo) (h' : t.todo < s.todo) :
    t.rank < s.rank :=
  Prod.Lex.toLex_lt_toLex.mpr (.inr ⟨h, h'⟩)

/-- Bytes read without leaving the place lower the rank. -/
theorem rank_lt_of_page {s t : State} {n : Nat} (hn : 0 < n) (hle : n ≤ s.page.length) (hp : t.page = s.page.drop n)
    (hd : t.diu.dstate = s.diu.dstate) (hr : t.diu.remaining = s.diu.remaining) (hb : t.dbr = s.dbr) :
    t.rank < s.rank := by
  refine rank_lt_of_todo (by rw [hd, hb]) ?_
  rw [todo, todo, hp, hd, hr, hb, List.length_drop]
  omega

theorem rank_congr {s t : State} (hp : t.page = s.page) (hd : t.diu.dstate.toGo = s.diu.dstate.toGo)
    (hi : t.diu.dstate = .idle ↔ s.diu.dstate = .idle) (hr : t.diu.remaining = s.diu.remaining) (hb : t.dbr = s.dbr) :
    t.rank = s.rank := by
  rw [rank, rank, todo, todo, hp, hd, hr, hb]
  simp only [hi]

end State

/-! ### What a running DIU still gives -/

namespace State

/-- What the varint at the cursor gives, some bytes of which may have been read at byte grain (log 18). -/
def readField (s : State) : Except Err (DWord × List Byte) :=
  if s.env.grain = .byte then readVarintFrom s.micro.vrCount s.micro.vrValue s.page else readUvarint s.page

/-- No varint has been begun. -/
def NoVarint (s : State) : Prop := s.env.grain = .byte → s.micro.vrCount = 0 ∧ s.micro.vrValue = 0

theorem readField_of_noVarint {s : State} (h : s.NoVarint) : s.readField = readUvarint s.page := by
  unfold readField
  split
  · next hg => rw [(h hg).1, (h hg).2, readVarintFrom_zero]
  · rfl

/-- The header field that comes next: at the grains that do not cut the header, the first. -/
def nextField (s : State) : HdrField :=
  if s.env.grain = .rule ∨ s.env.grain = .whole then .blockSize else s.micro.hdrField

/-- DecodeInt after the four fields, with the parameters of the run. -/
def headerRest (s : State) (blockSize mbCount total f : DWord) (page : List Byte) :
    Except Err (List DWord × List Byte) :=
  Machine.headerRest s.env.inst s.diu.wSel s.diu.sinkCap.toNat blockSize mbCount total f page

/-- DecodeInt after header field `k` with value `u`, the fields before it in their registers (R131). -/
def headerFrom (s : State) (k : HdrField) (u : DWord) (page : List Byte) : Except Err (List DWord × List Byte) :=
  match k with
  | .blockSize =>
    (readUvarint page).bind fun m => (readUvarint m.2).bind fun t => (readUvarint t.2).bind fun f =>
      s.headerRest u m.1 t.1 f.1 f.2
  | .mbCount =>
    (readUvarint page).bind fun t => (readUvarint t.2).bind fun f => s.headerRest s.diu.blockSize u t.1 f.1 f.2
  | .total => (readUvarint page).bind fun f => s.headerRest s.diu.blockSize s.diu.mbCount u f.1 f.2
  | .first => s.headerRest s.diu.blockSize s.diu.mbCount s.diu.total u page

/-- The rest of a block with min delta `m` from the width bytes `ws` on, and the blocks after it. -/
def blockRest (s : State) (m : DWord) (ws page : List Byte) : Except Err (List DWord × List Byte) :=
  miniblocksRest s.diu.wSel s.diu.mbCount.toNat s.diu.mbSize.toNat m ws s.diu.remaining.toNat s.diu.run page

/-- DecodeInt after the varint at the cursor, with value `u`, has been read: a header field (R131) or a min delta
(R134). -/
def afterField (s : State) (u : DWord) (page : List Byte) : Except Err (List DWord × List Byte) :=
  if s.diu.dstate = .hdr then s.headerFrom s.nextField u page
  else (readWidths s.diu.mbCount.toNat page).bind fun r => s.blockRest (zzValue s.diu.wSel u) r.1 r.2

/-- What the run will still give: the values in order and the page after the stream, or the first error (R139). -/
def promise (s : State) : Except Err (List DWord × List Byte) :=
  match s.diu.dstate with
  | .hdr => s.readField.bind fun r => s.afterField r.1 r.2
  | .blk => s.readField.bind fun r => s.afterField r.1 r.2
  | .wid =>
    (readWidths (s.diu.mbCount.toNat - s.micro.widthIdx) s.page).bind fun r =>
      s.blockRest s.diu.minDelta (s.diu.widths.readList .widths 0 s.micro.widthIdx ++ r.1) r.2
  | .pay =>
    s.blockRest s.diu.minDelta
      (s.diu.widths.readList .widths s.diu.mbIdx.toNat (s.diu.mbCount.toNat - s.diu.mbIdx.toNat)) s.page
  | .done => .ok ([], s.page)
  | .idle => .ok ([], s.page)

/-- Between two varints none has been begun. -/
def Coherent (s : State) : Prop := s.diu.dstate = .hdr ∨ s.diu.dstate = .blk ∨ s.NoVarint

theorem promise_hdr {s : State} (h : s.diu.dstate = .hdr) :
    s.promise = s.readField.bind fun r => s.headerFrom s.nextField r.1 r.2 := by
  simp only [promise, afterField, h, if_true]

theorem promise_blk {s : State} (h : s.diu.dstate = .blk) :
    s.promise = s.readField.bind fun r => (readWidths s.diu.mbCount.toNat r.2).bind fun x =>
      s.blockRest (zzValue s.diu.wSel r.1) x.1 x.2 := by
  simp [promise, afterField, h]

theorem promise_wid {s : State} (h : s.diu.dstate = .wid) :
    s.promise = (readWidths (s.diu.mbCount.toNat - s.micro.widthIdx) s.page).bind fun r =>
      s.blockRest s.diu.minDelta (s.diu.widths.readList .widths 0 s.micro.widthIdx ++ r.1) r.2 := by
  simp only [promise, h]

theorem promise_pay {s : State} (h : s.diu.dstate = .pay) :
    s.promise = s.blockRest s.diu.minDelta
      (s.diu.widths.readList .widths s.diu.mbIdx.toNat (s.diu.mbCount.toNat - s.diu.mbIdx.toNat)) s.page := by
  simp only [promise, h]

theorem promise_done {s : State} (h : s.diu.dstate = .done) : s.promise = .ok ([], s.page) := by
  simp only [promise, h]

theorem Coherent.noVarint {s : State} (h : s.Coherent) (h1 : s.diu.dstate ≠ .hdr) (h2 : s.diu.dstate ≠ .blk) :
    s.NoVarint := by
  rcases h with h | h | h
  · exact absurd h h1
  · exact absurd h h2
  · exact h

/-- Where a block is to start the promise is DecodeInt's blocks. -/
theorem promise_blk_eq {s : State} (h : s.diu.dstate = .blk) (hv : s.NoVarint) (hr : s.diu.remaining ≠ 0) :
    s.promise =
      blocksRest s.diu.wSel s.diu.mbCount.toNat s.diu.mbSize.toNat s.diu.remaining.toNat s.diu.run s.page := by
  rw [promise_blk h, readField_of_noVarint hv, blocksRest_succ fun hz => hr (BitVec.eq_of_toNat_eq hz)]
  rfl

/-- Where a run starts the promise is DecodeInt of the page (R139). -/
theorem promise_start {s : State} (h : s.diu.dstate = .hdr) (hf : s.nextField = .blockSize) (hv : s.NoVarint) :
    s.promise = decodeIntPage s.env.inst s.diu.wSel s.diu.sinkCap.toNat s.page := by
  rw [promise_hdr h, hf, readField_of_noVarint hv, decodeIntPage_eq]
  rfl

end State
end Sys2Proof.Machine

/-! ### The steps of a DIU run -/

namespace Sys2Proof.Machine
open State

/-- What a step of a DIU run at `s` can do: raise the error that the run was to end in, or go on, lower in rank, and
still promise what was promised at `s`, less the values it emitted. -/
def RunsOn (s : State) (r : Result) : Prop :=
  (∃ e t, r = .next t ∧ t.regs.status = .error e ∧ s.promise = .error e) ∨
  ∃ us t, r = .next t ∧ RunStep s t us ∧ t.rank < s.rank ∧
    (s.Coherent → t.Coherent ∧ s.promise = t.promise.map (prepend us))

namespace State

/-- The state after the last byte of a varint, `n` bytes of which are read by this step. -/
def pastVarint (n : Nat) (s : State) : State := if s.env.grain = .byte then (s.advance n).clearVarint else s.advance n

variable (s : State) (n : Nat)

@[simp] theorem pastVarint_regs : (s.pastVarint n).regs = (s.advance n).regs := by unfold pastVarint; split <;> rfl
@[simp] theorem pastVarint_diu : (s.pastVarint n).diu = s.diu := by unfold pastVarint; split <;> rfl
@[simp] theorem pastVarint_dbr : (s.pastVarint n).dbr = s.dbr := by unfold pastVarint; split <;> rfl
@[simp] theorem pastVarint_mem : (s.pastVarint n).mem = s.mem := by unfold pastVarint; split <;> rfl
@[simp] theorem pastVarint_env : (s.pastVarint n).env = s.env := by unfold pastVarint; split <;> rfl
@[simp] theorem pastVarint_hdrField : (s.pastVarint n).micro.hdrField = s.micro.hdrField := by
  unfold pastVarint; split <;> rfl

theorem pastVarint_noVarint : (s.pastVarint n).NoVarint := by
  intro h
  rw [pastVarint_env] at h
  unfold pastVarint
  rw [if_pos h]
  exact ⟨rfl, rfl⟩

theorem pastVarint_page {s : State} {n : Nat} (h : n ≤ s.page.length) : (s.pastVarint n).page = s.page.drop n :=
  page_drop h (by simp) (by simp) (by simp)

theorem pastVarint_runStep : RunStep s (s.pastVarint n) [] :=
  ⟨SinkGets.nil (by simp) (by simp) (by simp) (by simp), by rw [pastVarint_regs]; rfl, by rw [pastVarint_dbr],
    by simp, by simp, by simp, by simp⟩

theorem pastVarint_afterField (u : DWord) (page : List Byte) :
    (s.pastVarint n).afterField u page = s.afterField u page := by
  have hn : (s.pastVarint n).nextField = s.nextField := by simp [nextField]
  have hh : ∀ k, (s.pastVarint n).headerFrom k u page = s.headerFrom k u page := by
    intro k
    cases k <;> simp [headerFrom, headerRest]
  simp [afterField, hn, hh, blockRest]

end State

/-! #### One varint, or one byte of it -/

/-- What a step at a varint can do: raise, read one byte of several, or complete the field. -/
def ReadsField (s : State) (r : Result) : Prop :=
  (∃ e, s.readField = .error e ∧ r = .next (s.raise e)) ∨
  (∃ t, r = .next t ∧ s.page ≠ [] ∧ t.readField = s.readField ∧ ∃ k v,
    t = { s.advance 1 with micro.vrCount := k, micro.vrValue := v }) ∨
  ∃ u n, 0 < n ∧ n ≤ s.page.length ∧ s.readField = .ok (u, s.page.drop n) ∧ r = takeField u (s.pastVarint n)

/-- A varint read whole. -/
theorem readsField_whole {s : State} {p : Pos} {mk : Varint → Instr} (hp : s.position = some p)
    (hg : s.env.grain ≠ .byte) (hdec : decodeElement p s.page = (parseVarint 0 s.page).map fun r => (mk r.1, r.2))
    (hex : ∀ v, exec (mk v) s = inPlace (mk v) s (takeField v.value (s.advance v.size))) :
    ReadsField s (unitStep s) := by
  have hr : s.readField = readUvarint s.page := by rw [readField, if_neg hg]
  cases hv : parseVarint 0 s.page with
  | error e =>
    rw [hv] at hdec
    exact .inl ⟨fetchError e, by rw [hr, readUvarint, hv], unitStep_undecodable hp hdec⟩
  | ok r =>
    obtain ⟨v, rest⟩ := r
    rw [hv] at hdec
    obtain ⟨hlen, _⟩ := parseVarint_zero hv
    have ha : s.At (mk v) := (fetch_ok (i := mk v) hp (by rw [State.fetch, hdec]; rfl)).1
    refine .inr (.inr ⟨v.value, v.size, Nat.succ_pos _, by omega, ?_, ?_⟩)
    · rw [hr, readUvarint, hv, parseVarint_rest hv]
    · rw [unitStep_decodes hp hdec, hex, inPlace_at ha, pastVarint, if_neg hg]

/-- One byte of a varint (R111). -/
theorem readsField_byte {s : State} (hp : s.position = some (.varintByte s.micro.vrCount)) (hg : s.env.grain = .byte)
    (hc : s.micro.vrCount ≤ 9) : ReadsField s (unitStep s) := by
  have hr : s.readField = readVarintFrom s.micro.vrCount s.micro.vrValue s.page := by rw [readField, if_pos hg]
  cases hpg : s.page with
  | nil =>
    refine .inl ⟨.unexpectedEOF, by rw [hr, hpg, readVarintFrom_nil], ?_⟩
    exact unitStep_undecodable (e := .endOfPage) hp (by rw [hpg]; rfl)
  | cons b rest =>
    have runs : ∀ {i}, decodeVarintByte s.micro.vrCount b = .ok i → unitStep s = exec i s ∧ s.At i := by
      intro i hi
      have hd : decodeElement (.varintByte s.micro.vrCount) s.page = .ok (i, rest) := by
        rw [hpg, decodeElement, hi]; rfl
      exact ⟨unitStep_decodes hp hd, (fetch_ok hp (by rw [State.fetch, hd]; rfl)).1⟩
    have last : ∀ {i u}, decodeVarintByte s.micro.vrCount b = .ok i →
        (exec i s = inPlace i s (takeField u (s.advance 1).clearVarint)) → s.readField = .ok (u, rest) →
        ReadsField s (unitStep s) := by
      intro i u hi hex hu
      obtain ⟨hs, ha⟩ := runs hi
      refine .inr (.inr ⟨u, 1, Nat.one_pos, by simp only [hpg, List.length_cons]; omega, by rw [hu, hpg]; rfl, ?_⟩)
      rw [hs, hex, inPlace_at ha, pastVarint, if_pos hg]
    by_cases hk : s.micro.vrCount < 9
    · by_cases hcont : continues b
      · have hi : decodeVarintByte s.micro.vrCount b = .ok (.varintCont (groupOf b)) := by
          rw [decodeVarintByte, if_pos hk, if_pos hcont]
        obtain ⟨hs, ha⟩ := runs hi
        refine .inr (.inl ⟨_, ?_, by rw [hpg]; simp, ?_, s.micro.vrCount + 1,
          addGroup s.micro.vrValue s.micro.vrCount (groupOf b), rfl⟩)
        · rw [hs, exec, execVarintCont, inPlace_at ha]
        · rw [hr, hpg, readVarintFrom_cons hk, if_pos hcont, readField, if_pos (by exact hg)]
          congr 1
          have hlen : 1 ≤ s.page.length := by simp only [hpg, List.length_cons]; omega
          have hpage : (s.advance 1).page = rest := by
            rw [page_drop (t := s.advance 1) hlen rfl rfl rfl, hpg]
            rfl
          exact hpage
      · exact last (by rw [decodeVarintByte, if_pos hk, if_neg hcont]) (by rw [exec, execVarintLast])
          (by rw [hr, hpg, readVarintFrom_cons hk, if_neg hcont])
    · have h9 : s.micro.vrCount = 9 := by omega
      by_cases hb : b.toNat ≤ 1
      · exact last (by rw [decodeVarintByte, if_neg hk, if_pos ⟨h9, hb⟩]) (by rw [exec, execVarintLast10])
          (by rw [hr, hpg, h9, readVarintFrom_tenth, if_pos hb])
      · refine .inl ⟨.malformedHeader, by rw [hr, hpg, h9, readVarintFrom_tenth, if_neg hb], ?_⟩
        refine unitStep_undecodable (e := .varintTooLong) hp ?_
        rw [hpg, decodeElement, decodeVarintByte, if_neg hk, if_neg fun h => hb h.2]
        rfl

/-- Where one varint is the next element, or its bytes are. -/
def State.AtField (s : State) : Prop :=
  s.diu.dstate = .blk ∨ s.diu.dstate = .hdr ∧ (s.env.grain = .byte ∨ s.env.grain = .field)

theorem readsField {s : State} (hb : s.isBusy) (hc : s.micro.vrCount ≤ 9) (hd : s.AtField) :
    ReadsField s (unitStep s) := by
  have hb' : s.regs.status = .busy := hb
  rcases hd with hd | ⟨hd, hg | hg⟩
  · by_cases hg : s.env.grain = .byte
    · exact readsField_byte (by simp [position, hb', hd, hg]) hg hc
    · exact readsField_whole (p := .blkMin) (mk := .blkMin) (by simp [position, hb', hd, hg]) hg rfl fun v => rfl
  · exact readsField_byte (by simp [position, hb', hd, hg]) hg hc
  · by_cases hf : s.micro.hdrField = .first
    · exact readsField_whole (p := .zzvarint) (mk := .zzvarint) (by simp [position, hb', hd, hg, hf]) (by simp [hg])
        rfl fun v => rfl
    · exact readsField_whole (p := .uvarint) (mk := .uvarint) (by simp [position, hb', hd, hg, hf]) (by simp [hg])
        rfl fun v => rfl

/-! #### A completed field -/

/-- After R133 the run promises the header's blocks, less the first value. -/
theorem HeaderEnds.promise {s t : State} {f u : DWord} (h : HeaderEnds s f t) (hv : s.NoVarint)
    (hf : f = zzValue s.diu.wSel u)
    (hn : headerError s.env.inst s.diu.sinkCap.toNat s.diu.blockSize s.diu.mbCount s.diu.total = none) :
    s.headerRest s.diu.blockSize s.diu.mbCount s.diu.total u s.page =
      t.promise.map (prepend (if s.diu.total = 0 then [] else [f])) := by
  subst hf
  have hp : t.page = s.page := page_congr h.sink.src (by rw [h.regs]) (by rw [h.regs])
  obtain ⟨_, _, _, _, _, ht, _, _⟩ := headerError_none hn
  unfold State.headerRest Machine.headerRest
  rw [hn]
  dsimp only
  by_cases h0 : s.diu.total = 0
  · have hd : t.diu.dstate = .done := by rw [h.diu]; simp [h0]
    rw [if_pos h0, if_pos h0, map_prepend_nil, promise_done hd, hp]
  rw [if_neg h0, if_neg h0]
  congr 1
  have hrem := total_sub h0 ht
  by_cases h1 : s.diu.total.toNat ≤ 1
  · have hd : t.diu.dstate = .done := by rw [h.diu]; simp [h1]
    rw [promise_done hd, hp, show s.diu.total.toNat - 1 = 0 by omega, blocksRest_zero]
  · have hd : t.diu.dstate = .blk := by rw [h.diu]; simp [h1]
    have hr : t.diu.remaining.toNat = s.diu.total.toNat - 1 := by rw [h.diu]; simp only [if_neg h0]; exact hrem
    have htv : t.NoVarint := by
      intro hg
      rw [h.env] at hg
      rw [h.micro]
      exact hv hg
    rw [promise_blk_eq hd htv (fun hz => by rw [hz] at hr; simp at hr; omega), hr, hp, h.diu]
    simp only [if_neg h0]

/-- R132 and R133 after the four fields are in their registers. -/
theorem finishHeader_runsOn {s : State} {f u : DWord} (hl : s.env.inst.Legal) (hs : s.SinkOk) (he : s.diu.emitted = 0)
    (hd : s.diu.dstate = .hdr) (hv : s.NoVarint) (hf : f = zzValue s.diu.wSel u) :
    (∃ e, finishHeader f s = .next (s.raise e) ∧
      s.headerRest s.diu.blockSize s.diu.mbCount s.diu.total u s.page = .error e) ∨
    ∃ us t, finishHeader f s = .next t ∧ RunStep s t us ∧ t.rank < s.rank ∧ t.Coherent ∧
      s.headerRest s.diu.blockSize s.diu.mbCount s.diu.total u s.page = t.promise.map (prepend us) := by
  rcases finishHeader_ends f hl hs he with ⟨e, hn, h⟩ | ⟨hn, t, h, ht⟩
  · exact .inl ⟨e, h, by rw [State.headerRest, Machine.headerRest, hn]⟩
  · refine .inr ⟨_, t, h, ht.runStep, rank_lt_of_phase ?_, ?_, ht.promise hv hf hn⟩
    · rw [ht.diu, ht.dbr, hd]
      simp only [Nat.add_lt_add_iff_left]
      split <;> decide
    · refine .inr (.inr fun hg => ?_)
      rw [ht.env] at hg
      rw [ht.micro]
      exact hv hg

/-- At the grains that cut the header the next field is the one that `micro` counts (log 18). -/
theorem nextField_of_cut {s : State} (hg : s.env.grain = .byte ∨ s.env.grain = .field) :
    s.nextField = s.micro.hdrField := by
  rcases hg with hg | hg <;> simp [nextField, hg]

/-- One of the first three header fields, put in its register, leaves the promise as it is (R131). -/
theorem headerField_kept {s t : State} {u : DWord} (hd : s.diu.dstate = .hdr)
    (hg : s.env.grain = .byte ∨ s.env.grain = .field) (hv : s.NoVarint)
    (et : t = { s with
      diu.blockSize := t.diu.blockSize, diu.mbCount := t.diu.mbCount, diu.total := t.diu.total
      micro.hdrField := t.micro.hdrField })
    (hp : s.headerFrom s.micro.hdrField u s.page =
      (readUvarint s.page).bind fun r => t.headerFrom t.micro.hdrField r.1 r.2) :
    RunStep s t [] ∧ t.rank ≤ s.rank ∧ t.Coherent ∧ s.afterField u s.page = t.promise.map (prepend []) := by
  have henv : t.env = s.env := by rw [et]
  have hdt : t.diu.dstate = .hdr := by rw [et]; exact hd
  have hvt : t.NoVarint := by
    intro h
    rw [et] at h ⊢
    exact hv h
  have hpage : t.page = s.page := by rw [et]; rfl
  refine ⟨?_, ?_, .inl hdt, ?_⟩
  · rw [et]; exact ⟨SinkGets.nil rfl rfl rfl rfl, rfl, rfl, rfl, rfl, rfl, rfl⟩
  · rw [rank_congr hpage (by rw [hdt, hd]) (by rw [hdt, hd]) (by rw [et]) (by rw [et])]
  · rw [afterField, if_pos hd, nextField_of_cut hg, hp, map_prepend_nil, promise_hdr hdt, readField_of_noVarint hvt,
      nextField_of_cut (by rw [henv]; exact hg), hpage]

/-- A field of value `u` completed where no varint is begun: the promise after it is kept. -/
theorem takeField_runsOn {s : State} (u : DWord) (hl : s.env.inst.Legal) (hs : s.SinkOk)
    (he : s.diu.dstate = .hdr → s.diu.emitted = 0) (hd : s.AtField) (hv : s.NoVarint) :
    (∃ e, takeField u s = .next (s.raise e) ∧ s.afterField u s.page = .error e) ∨
    ∃ us t, takeField u s = .next t ∧ RunStep s t us ∧ t.rank ≤ s.rank ∧ t.Coherent ∧
      s.afterField u s.page = t.promise.map (prepend us) := by
  have hg : s.diu.dstate = .hdr → s.env.grain = .byte ∨ s.env.grain = .field := by
    intro h
    rcases hd with hd | ⟨_, hg⟩
    · rw [hd] at h; cases h
    · exact hg
  rcases takeField_cases u s with ⟨d, k, h⟩ | ⟨d, k, h⟩ | ⟨d, k, h⟩ | ⟨d, k, h⟩ | ⟨d, h⟩ | ⟨d1, d2, _⟩
  · exact .inr ⟨[], _, h, headerField_kept d (hg d) hv rfl (by rw [k]; rfl)⟩
  · exact .inr ⟨[], _, h, headerField_kept d (hg d) hv rfl (by rw [k]; rfl)⟩
  · exact .inr ⟨[], _, h, headerField_kept d (hg d) hv rfl (by rw [k]; rfl)⟩
  · rw [h, afterField, if_pos d, nextField_of_cut (hg d), k]
    rcases finishHeader_runsOn (u := u) hl hs (he d) d hv rfl with ⟨e, h1, h2⟩ | ⟨us, t, h1, h2, h3, h4⟩
    · exact .inl ⟨e, h1, h2⟩
    · exact .inr ⟨us, t, h1, h2, le_of_lt h3, h4⟩
  · refine .inr ⟨[], _, h, ⟨SinkGets.nil rfl rfl rfl rfl, rfl, rfl, rfl, rfl, rfl, rfl⟩, ?_, .inr (.inr hv), ?_⟩
    · exact le_of_eq (rank_congr rfl (by rw [d]; rfl) (by rw [d]; simp) rfl rfl)
    · rw [map_prepend_nil]
      simp only [afterField, d, promise]
      rfl
  · rcases hd with hd | ⟨hd, _⟩
    · exact absurd hd d2
    · exact absurd hd d1

/-- A step at a varint, in D_HDR or D_BLK. -/
theorem field_runsOn {s : State} (hI : s.Inv) (hb : s.isBusy) (hs : s.SinkOk)
    (he : s.diu.dstate = .hdr → s.diu.emitted = 0) (hd : s.AtField) : RunsOn s (unitStep s) := by
  have hprom : s.promise = s.readField.bind fun r => s.afterField r.1 r.2 := by
    rcases hd with hd | ⟨hd, _⟩ <;> simp only [promise, hd]
  have hcoh : ∀ {t : State}, t.diu = s.diu → t.Coherent := by
    intro t ht
    rcases hd with hd | ⟨hd, _⟩
    · exact .inr (.inl (by rw [ht, hd]))
    · exact .inl (by rw [ht, hd])
  obtain ⟨_, hcount, _⟩ := hI.running hb
  rcases readsField hb hcount hd with ⟨e, hr, h⟩ | ⟨t, h, hp, hr, k, v, rfl⟩ | ⟨u, n, hn, hle, hr, h⟩
  · exact .inl ⟨e, _, h, rfl, by rw [hprom, hr]; rfl⟩
  · have hlen : 1 ≤ s.page.length := List.length_pos_iff.mpr hp
    refine .inr ⟨[], _, h, ⟨SinkGets.nil rfl rfl rfl rfl, rfl, rfl, rfl, rfl, rfl, rfl⟩,
      rank_lt_of_page Nat.one_pos hlen (page_drop hlen rfl rfl rfl) rfl rfl rfl, fun _ => ⟨hcoh rfl, ?_⟩⟩
    rw [map_prepend_nil, hprom, ← hr]
    rcases hd with hd | ⟨hd, _⟩ <;> simp only [promise, hd, advance_diu] <;> rfl
  · have hlt : (s.pastVarint n).rank < s.rank :=
      rank_lt_of_page hn hle (pastVarint_page hle) (by simp) (by simp) (by simp)
    have hafter : s.promise = (s.pastVarint n).afterField u (s.pastVarint n).page := by
      rw [hprom, hr, pastVarint_afterField, pastVarint_page hle]
      rfl
    rw [h, RunsOn, hafter]
    rcases takeField_runsOn (s := s.pastVarint n) u (by simpa using hI.legal) (by simpa [SinkOk] using hs)
        (by simpa using he) (by simpa [AtField] using hd) (pastVarint_noVarint s n) with
      ⟨e, h1, h2⟩ | ⟨us, t, h1, h2, h3, h4, h5⟩
    · exact .inl ⟨e, _, h1, rfl, h2⟩
    · exact .inr ⟨us, t, h1, (pastVarint_runStep s n).append h2, lt_of_le_of_lt h3 hlt, fun _ => ⟨h4, h5⟩⟩

end Sys2Proof.Machine

/-! #### The header and the page in one piece -/

namespace Sys2Proof.Machine
open State

/-- DecodeInt begins with the four varints of the header, read in one piece (R65, R131). -/
theorem decodeIntPage_of_parseHdr (p : Config.Instance) (w : Width) (cap : Nat) (page : List Byte) :
    (∃ e, parseHdr page = .error e ∧ decodeIntPage p w cap page = .error (fetchError e)) ∨
    ∃ (b m t f : Varint) (rest : List Byte), parseHdr page = .ok (.hdr b m t f, rest) ∧
      rest = page.drop (b.size + m.size + t.size + f.size) ∧
      decodeIntPage p w cap page = headerRest p w cap b.value m.value t.value f.value rest := by
  simp only [decodeIntPage_eq, parseHdr, readUvarint, bind, Except.bind, pure, Except.pure]
  cases e1 : parseVarint 0 page with
  | error e => exact .inl ⟨e, rfl, rfl⟩
  | ok r1 =>
  dsimp only
  cases e2 : parseVarint 0 r1.2 with
  | error e => exact .inl ⟨e, rfl, rfl⟩
  | ok r2 =>
  dsimp only
  cases e3 : parseVarint 0 r2.2 with
  | error e => exact .inl ⟨e, rfl, rfl⟩
  | ok r3 =>
  dsimp only
  cases e4 : parseVarint 0 r3.2 with
  | error e => exact .inl ⟨e, rfl, rfl⟩
  | ok r4 =>
  refine .inr ⟨r1.1, r2.1, r3.1, r4.1, r4.2, rfl, ?_, rfl⟩
  rw [parseVarint_rest e4, parseVarint_rest e3, parseVarint_rest e2, parseVarint_rest e1]
  simp only [List.drop_drop]

/-- The header in one piece (R131 to R133). -/
theorem hdr_runsOn {s : State} (hI : s.Inv) (hb : s.isBusy) (hs : s.SinkOk) (he : s.diu.emitted = 0)
    (hd : s.diu.dstate = .hdr) (hg : s.env.grain = .rule) : RunsOn s (unitStep s) := by
  have hb' : s.regs.status = .busy := hb
  have hp : s.position = some .hdr := by simp [position, hb', hd, hg]
  have hprom := promise_start hd (by simp [nextField, hg]) (fun h => by rw [hg] at h; cases h)
  rcases decodeIntPage_of_parseHdr s.env.inst s.diu.wSel s.diu.sinkCap.toNat s.page with
    ⟨e, hdec, hdi⟩ | ⟨b, m, t, f, rest, hdec, hrest, hdi⟩
  · exact .inl ⟨fetchError e, _, unitStep_undecodable hp hdec, rfl, by rw [hprom, hdi]⟩
  · obtain ⟨ha, htaken⟩ := fetch_ok (i := .hdr b m t f) hp (by rw [State.fetch, decodeElement, hdec]; rfl)
    simp only [Instr.taken] at htaken
    generalize hs1 : ({ s.advance (b.size + m.size + t.size + f.size) with
        diu.emitted := 0
        diu.blockSize := b.value
        diu.mbCount := m.value
        diu.total := t.value } : State) = s1
    have hpage : s1.page = rest := by
      rw [page_drop (t := s1) htaken (by subst hs1; rfl) (by subst hs1; rfl) (by subst hs1; rfl), hrest]
    have hstep : unitStep s = finishHeader (zzValue s1.diu.wSel f.value) s1 := by
      rw [unitStep_decodes hp hdec, exec, execHdr, inPlace_at ha, hs1]
      subst hs1
      rfl
    have hlt : s1.rank < s.rank := by
      refine rank_lt_of_page (by simp only [Varint.size]; omega) htaken (by rw [hpage, hrest]) ?_ ?_ ?_ <;>
        (subst hs1; rfl)
    have hrun : RunStep s s1 [] := by
      subst hs1
      exact ⟨SinkGets.nil he.symm rfl rfl rfl, rfl, rfl, rfl, rfl, rfl, rfl⟩
    have hafter : s.promise = s1.headerRest s1.diu.blockSize s1.diu.mbCount s1.diu.total f.value s1.page := by
      rw [hprom, hdi, hpage]
      subst hs1
      rfl
    have hv : s1.NoVarint := by
      intro h
      rw [hrun.env, hg] at h
      cases h
    have hsink : s1.SinkOk := by subst hs1; exact hs
    rw [hstep, RunsOn, hafter]
    rcases finishHeader_runsOn (u := f.value) (by rw [hrun.env]; exact hI.legal) hsink (by subst hs1; rfl)
        (by subst hs1; exact hd) hv rfl with ⟨e, h1, h2⟩ | ⟨us, u, h1, h2, h3, h4⟩
    · exact .inl ⟨e, _, h1, rfl, h2⟩
    · exact .inr ⟨us, u, h1, hrun.append h2, h3.trans hlt, fun _ => h4⟩

theorem readUvarint_suffix {page rest : List Byte} {u : DWord} (h : readUvarint page = .ok (u, rest)) :
    rest <:+ page := by
  unfold readUvarint at h
  split at h
  · next v r hp =>
    cases h
    rw [parseVarint_rest hp]
    exact List.drop_suffix _ _
  · cases h

theorem decodeMiniblocks_suffix {w : Width} {mbSize : Nat} {m : DWord} {ws : List Byte} {missing : Nat} {run : DWord}
    {page : List Byte} {d : Decoded} (h : decodeMiniblocks w mbSize m ws missing run page = .ok d) :
    d.rest <:+ page := by
  induction ws generalizing missing run page d with
  | nil => cases h; exact List.suffix_rfl
  | cons b ws ih =>
    unfold decodeMiniblocks at h
    split at h
    · cases h; exact List.suffix_rfl
    · split at h
      · cases h
      · dsimp only at h
        split at h
        · cases h
        · cases hr : decodeMiniblocks w mbSize m ws (missing - min mbSize missing)
              (lastRun run (accumulateAll w m run
                (fields (page.take (payloadBytes mbSize b.toNat)) b.toNat (min mbSize missing))))
              (page.drop (payloadBytes mbSize b.toNat)) with
          | error e => rw [hr] at h; cases h
          | ok r =>
            rw [hr] at h
            cases h
            exact (ih hr).trans (List.drop_suffix _ _)

theorem decodeBlocks_suffix {w : Width} {mbCount mbSize fuel missing : Nat} {run : DWord} {page : List Byte}
    {d : Decoded} (h : decodeBlocks w mbCount mbSize fuel missing run page = .ok d) : d.rest <:+ page := by
  induction fuel generalizing missing run page d with
  | zero =>
    unfold decodeBlocks at h
    split at h
    · cases h; exact List.suffix_rfl
    · cases h
  | succ fuel ih =>
    unfold decodeBlocks at h
    split at h
    · cases h; exact List.suffix_rfl
    · simp only [bind, Except.bind, pure, Except.pure] at h
      split at h
      · cases h
      next r1 e1 =>
      split at h
      · cases h
      next r2 e2 =>
      split at h
      · cases h
      next d1 e3 =>
      split at h
      · cases h
      next d2 e4 =>
      cases h
      have h2 : r2.2 <:+ r1.2 := ⟨r2.1, (readWidths_ok (ws := r2.1) (rest := r2.2) e2).2.symm⟩
      exact (((ih e4).trans (decodeMiniblocks_suffix e3)).trans h2).trans (readUvarint_suffix (u := r1.1) e1)

/-- DecodeInt takes bytes off the head of the page. -/
theorem decodeIntPage_suffix {p : Config.Instance} {w : Width} {cap : Nat} {page rest : List Byte} {vs : List DWord}
    (h : decodeIntPage p w cap page = .ok (vs, rest)) : rest <:+ page := by
  rw [decodeIntPage_eq] at h
  simp only [Except.bind] at h
  split at h
  · cases h
  next b e1 =>
  split at h
  · cases h
  next m e2 =>
  split at h
  · cases h
  next t e3 =>
  split at h
  · cases h
  next f e4 =>
  have h4 : f.2 <:+ page := (((readUvarint_suffix (u := f.1) e4).trans (readUvarint_suffix (u := t.1) e3)).trans
    (readUvarint_suffix (u := m.1) e2)).trans (readUvarint_suffix (u := b.1) e1)
  unfold headerRest at h
  split at h
  · cases h
  · split at h
    · cases h; exact h4
    · unfold blocksRest at h
      cases hb : decodeBlocks w m.1.toNat (b.1 / m.1).toNat f.2.length (t.1.toNat - 1) (zzValue w f.1) f.2 with
      | error e => rw [hb] at h; cases h
      | ok d =>
        rw [hb] at h
        cases h
        exact (decodeBlocks_suffix hb).trans h4

/-- DecodeInt over the page as one step (R139). -/
theorem pageInt_runsOn {s : State} (hI : s.Inv) (hb : s.isBusy) (hs : s.SinkOk) (he : s.diu.emitted = 0)
    (hd : s.diu.dstate = .hdr) (hg : s.env.grain = .whole) (hbs : s.dbr.bstate ≠ .pfx) : RunsOn s (unitStep s) := by
  have hb' : s.regs.status = .busy := hb
  have hp : s.position = some .pageInt := by simp [position, hb', hd, hg, hbs]
  have hv : s.NoVarint := fun h => by rw [hg] at h; cases h
  have hprom := promise_start hd (by simp [nextField, hg]) hv
  have hdec : decodeElement .pageInt s.page = .ok (.pageInt s.page, []) := rfl
  have ha : s.At (.pageInt s.page) := (fetch_ok hp (by rw [State.fetch, hdec]; rfl)).1
  rw [unitStep_decodes hp hdec, exec, execPageInt, inPlace_at ha, RunsOn, hprom]
  cases hr : decodeIntPage s.env.inst s.diu.wSel s.diu.sinkCap.toNat s.page with
  | error e => exact .inl ⟨e, _, rfl, rfl, rfl⟩
  | ok r =>
    obtain ⟨vs, rest⟩ := r
    have hcap := (decodeIntPage_ok hr).1
    have hsuf := List.suffix_iff_eq_drop.mp (decodeIntPage_suffix hr)
    have hs0 : ({ s with diu.emitted := 0 } : State) = s := by rw [← he]
    obtain ⟨t, ht, hget, et⟩ := emitAll_sinkGets (s := s) (vs := vs) hI.legal (by
      rw [← hs.1, he]; simpa using hcap)
    dsimp only
    rw [hs0, ht, orOutside_some]
    refine .inr ⟨vs, _, rfl, ⟨⟨hget.emitted, hget.sink, hget.src, hget.ofs⟩, ?_, ?_, ?_, ?_, ?_, ?_⟩,
      rank_lt_of_phase ?_, fun _ => ⟨.inr (.inr ?_), ?_⟩⟩
    · rw [et]; rfl
    · rw [et]; rfl
    · rw [et]; rfl
    · rw [et]; rfl
    · rw [et]; rfl
    · rw [et]; rfl
    · rw [et, hd]
      simp [DState.toGo]
    · intro h
      rw [et] at h
      exact absurd (hg.symm.trans h) (by decide)
    · rw [promise_done rfl, page_drop (s := s) (n := s.page.length - rest.length) (Nat.sub_le _ _) (by rw [et]; rfl)
        (by rw [et]; rfl) (by rw [et]; rfl), ← hsuf]
      simp [Except.map, prepend]

/-! #### Width bytes and miniblocks -/

theorem readList_write_succ {w : Nat} (sp : Space) (m : Memory w) (i : Nat) (v : BitVec w) :
    (m.write i v).readList sp 0 (i + 1) = m.readList sp 0 i ++ [v] := by
  rw [Memory.readList_append, Memory.readList_congr sp (m.write i v) m 0 i fun b _ hb => by
    rw [Memory.read_write_ne]; omega]
  simp [Memory.readList]

/-- What a width byte leaves (R114): the next width is next, or the first miniblock. -/
structure WidthEnds (s t : State) (b : Byte) : Prop where
  mem : t.mem = s.mem
  regs : t.regs = (s.advance 1).regs
  dbr : t.dbr = s.dbr
  env : t.env = s.env
  vrCount : t.micro.vrCount = s.micro.vrCount
  vrValue : t.micro.vrValue = s.micro.vrValue
  next :
    (s.micro.widthIdx + 1 ≠ s.diu.mbCount.toNat ∧ t.micro.widthIdx = s.micro.widthIdx + 1 ∧
        t.diu = { s.diu with widths := s.diu.widths.write s.micro.widthIdx b }) ∨
      (s.micro.widthIdx + 1 = s.diu.mbCount.toNat ∧
        t.diu = { s.diu with widths := s.diu.widths.write s.micro.widthIdx b, mbIdx := 0, dstate := .pay })

/-- A step at a width byte. -/
theorem unitStep_wid {s : State} (hI : s.Inv) (hb : s.isBusy) (hd : s.diu.dstate = .wid) :
    (s.page = [] ∧ unitStep s = .next (s.raise .unexpectedEOF)) ∨
    ∃ b rest t, s.page = b :: rest ∧ unitStep s = .next t ∧ WidthEnds s t b := by
  have hb' : s.regs.status = .busy := hb
  have hp : s.position = some .blkWidth := by simp [position, hb', hd]
  cases hpg : s.page with
  | nil => exact .inl ⟨rfl, unitStep_undecodable (e := .endOfPage) hp (by rw [hpg]; rfl)⟩
  | cons b rest =>
    obtain ⟨_, _, hok⟩ := hI.running hb
    simp only [hd] at hok
    obtain ⟨_, hbl, _, _, _, hidx⟩ := hok
    obtain ⟨_, hcount⟩ := headerError_mbCount hbl.legal
    have hdec : decodeElement .blkWidth s.page = .ok (.blkWidth b, rest) := by rw [hpg]; rfl
    obtain ⟨ha, _⟩ := fetch_ok (i := .blkWidth b) hp (by rw [State.fetch, hdec]; rfl)
    rw [unitStep_decodes hp hdec, exec, execBlkWidth, inPlace_at ha]
    dsimp only
    rw [if_pos (by omega)]
    by_cases hlast : s.micro.widthIdx + 1 = s.diu.mbCount.toNat
    · rw [if_pos hlast]
      exact .inr ⟨b, rest, _, rfl, rfl, rfl, rfl, rfl, rfl, rfl, rfl, .inr ⟨hlast, rfl⟩⟩
    · rw [if_neg hlast]
      exact .inr ⟨b, rest, _, rfl, rfl, rfl, rfl, rfl, rfl, rfl, rfl, .inl ⟨hlast, rfl, rfl⟩⟩

/-- A width byte taken off the page and put into WIDTHS leaves the promise as it is. -/
theorem WidthEnds.promise {s t : State} {b : Byte} {rest : List Byte} (h : WidthEnds s t b) (hd : s.diu.dstate = .wid)
    (hidx : s.micro.widthIdx < s.diu.mbCount.toNat) (hpg : s.page = b :: rest) (hpage : t.page = rest) :
    s.promise = t.promise := by
  obtain ⟨k, hk⟩ : ∃ k, s.diu.mbCount.toNat - s.micro.widthIdx = k + 1 :=
    ⟨_, (Nat.succ_pred_eq_of_pos (by omega)).symm⟩
  have hcons : s.promise = (readWidths k rest).bind fun r => s.blockRest s.diu.minDelta
      ((s.diu.widths.write s.micro.widthIdx b).readList .widths 0 (s.micro.widthIdx + 1) ++ r.1) r.2 := by
    rw [promise_wid hd, hk, hpg, readList_write_succ]
    simp only [readWidths]
    cases readWidths k rest with
    | error e => rfl
    | ok r => simp [Except.map, Except.bind]
  rw [hcons]
  rcases h.next with ⟨hmore, hidx', ht⟩ | ⟨hlast, ht⟩
  · rw [promise_wid (by rw [ht]; exact hd), hpage, hidx']
    simp only [blockRest, ht, show s.diu.mbCount.toNat - (s.micro.widthIdx + 1) = k by omega]
  · rw [promise_pay (by rw [ht]), hpage, show k = 0 by omega]
    simp only [blockRest, ht, readWidths, Except.bind, List.append_nil, hlast]
    rfl

/-- A width byte (R114). -/
theorem wid_runsOn {s : State} (hI : s.Inv) (hb : s.isBusy) (hd : s.diu.dstate = .wid) : RunsOn s (unitStep s) := by
  obtain ⟨_, _, hok⟩ := hI.running hb
  simp only [hd] at hok
  obtain ⟨_, _, _, _, _, hidx⟩ := hok
  rcases unitStep_wid hI hb hd with ⟨hpg, h⟩ | ⟨b, rest, t, hpg, h, ht⟩
  · refine .inl ⟨.unexpectedEOF, _, h, rfl, ?_⟩
    rw [promise_wid hd, hpg, show s.diu.mbCount.toNat - s.micro.widthIdx =
      s.diu.mbCount.toNat - s.micro.widthIdx - 1 + 1 by omega]
    rfl
  · have hlen : 1 ≤ s.page.length := by simp only [hpg, List.length_cons]; omega
    have hpage : t.page = rest := by
      rw [page_drop hlen (by rw [ht.mem]) (by rw [ht.regs]; rfl) (by rw [ht.regs]; rfl), hpg]
      rfl
    have hphase : t.diu.dstate.toGo = s.diu.dstate.toGo ∧ t.diu.dstate ≠ .idle := by
      rcases ht.next with ⟨_, _, e⟩ | ⟨_, e⟩ <;> simp [e, hd, DState.toGo]
    have hkept : t.diu.remaining = s.diu.remaining ∧ t.diu.emitted = s.diu.emitted ∧ t.diu.wSel = s.diu.wSel ∧
        t.diu.sink = s.diu.sink ∧ t.diu.sinkCap = s.diu.sinkCap := by
      rcases ht.next with ⟨_, _, e⟩ | ⟨_, e⟩ <;> simp [e]
    obtain ⟨hrem, hem, hws, hsk, hsc⟩ := hkept
    refine .inr ⟨[], t, h, ⟨SinkGets.nil hem ht.mem (by rw [ht.dbr]) (by rw [ht.dbr]), by rw [ht.regs]; rfl,
      by rw [ht.dbr], ht.env, hws, hsk, hsc⟩, rank_lt_of_todo (by rw [ht.dbr, hphase.1]) ?_,
      fun hc => ⟨.inr (.inr ?_), ?_⟩⟩
    · rw [todo, todo, if_neg hphase.2, if_neg (by simp [hd]), hpage, hpg, hrem, List.length_cons]
      omega
    · intro hg
      rw [ht.env] at hg
      rw [ht.vrCount, ht.vrValue]
      exact hc.noVarint (by simp [hd]) (by simp [hd]) hg
    · rw [map_prepend_nil, ht.promise hd hidx hpg hpage]

namespace State

/-- How many bytes the payload of the next miniblock has (R115). -/
def mbBytes (s : State) : Nat := payloadBytes s.diu.mbSize.toNat s.mbWidth

/-- How many values the next miniblock gives (R136). -/
def mbYield (s : State) : Nat := min s.diu.mbSize.toNat s.diu.remaining.toNat

/-- The values of the next miniblock (R136). -/
def mbValues (s : State) : List DWord :=
  accumulateAll s.diu.wSel s.diu.minDelta s.diu.run (fields (s.page.take s.mbBytes) s.mbWidth s.mbYield)

@[simp] theorem length_mbValues (s : State) : s.mbValues.length = s.mbYield := by simp [mbValues]

end State

/-- What a miniblock that R136 accepts leaves (R137). -/
structure MiniblockEnds (s t : State) : Prop where
  sink : SinkGets s t s.mbValues
  regs : t.regs = (s.advance s.mbBytes).regs
  dbr : t.dbr = { s.dbr with pfx := t.dbr.pfx, sfx := t.dbr.sfx }
  env : t.env = s.env
  micro : t.micro = s.micro
  diu : t.diu = { s.diu with
    emitted := t.diu.emitted
    run := lastRun s.diu.run s.mbValues
    remaining := t.diu.remaining
    mbIdx := t.diu.mbIdx
    dstate := afterMiniblock t.diu.remaining t.diu.mbIdx.toNat s.diu.mbCount.toNat }
  remaining : t.diu.remaining.toNat = s.diu.remaining.toNat - s.mbYield
  mbIdx : t.diu.mbIdx.toNat = s.diu.mbIdx.toNat + 1

/-- A step at a miniblock (R136): the width check, the length check, then the values. -/
theorem unitStep_mb {s : State} (hI : s.Inv) (hb : s.isBusy) (hd : s.diu.dstate = .pay) :
    (s.diu.wSel.bits < s.mbWidth ∧ unitStep s = .next (s.raise .invalidBitWidth)) ∨
    (s.mbWidth ≤ s.diu.wSel.bits ∧ s.page.length < s.mbBytes ∧ unitStep s = .next (s.raise .unexpectedEOF)) ∨
    s.mbWidth ≤ s.diu.wSel.bits ∧ s.mbBytes ≤ s.page.length ∧ ∃ t, unitStep s = .next t ∧ MiniblockEnds s t := by
  have hb' : s.regs.status = .busy := hb
  have hp : s.position = some (.mb s.mbBytes) := by simp [position, hb', hd, mbBytes]
  obtain ⟨_, _, hok⟩ := hI.running hb
  simp only [hd] at hok
  obtain ⟨hs, hbl, hcur, _, _, hidx, hemi⟩ := hok
  obtain ⟨_, _, _, _, _, _, _, hcap⟩ := headerError_none hbl.legal
  have hcount := hbl.counted
  have hcaplt := s.diu.sinkCap.isLt
  have hremlt := s.diu.remaining.isLt
  have hdec : decodeElement (.mb s.mbBytes) s.page = .ok (.mb (s.page.take s.mbBytes), s.page.drop s.mbBytes) := rfl
  obtain ⟨ha, _⟩ := fetch_ok (i := .mb (s.page.take s.mbBytes)) hp (by rw [State.fetch, hdec]; rfl)
  have hplen : s.page.length < s.mbBytes ↔ s.regs.srcLen.toNat < s.regs.srcCur.toNat + s.mbBytes := by
    rw [length_page]; omega
  rw [unitStep_decodes hp hdec, exec, execMb, inPlace_at ha]
  dsimp only
  rw [← mbBytes, ← mbYield, ← mbValues]
  by_cases hw : s.diu.wSel.bits < s.mbWidth
  · exact .inl ⟨hw, by rw [if_pos hw]⟩
  rw [if_neg hw]
  by_cases hn : s.page.length < s.mbBytes
  · exact .inr (.inl ⟨Nat.le_of_not_lt hw, hn, by rw [if_pos (hplen.mp hn)]⟩)
  refine .inr (.inr ⟨Nat.le_of_not_lt hw, Nat.le_of_not_lt hn, ?_⟩)
  rw [if_neg fun h => hn (hplen.mpr h), if_neg (by simp only [List.length_take]; omega)]
  have hroom : s.diu.emitted.toNat + s.mbValues.length ≤ sinkCapOf s.env.inst s.diu.wSel s.diu.sink := by
    rw [length_mbValues, mbYield, ← hs.1]; omega
  obtain ⟨t, ht, hget, et⟩ := emitAll_sinkGets hI.legal hroom
  rw [ht, orOutside_some]
  refine ⟨_, rfl, ⟨hget.emitted, hget.sink, hget.src, hget.ofs⟩, ?_, ?_, ?_, ?_, ?_, ?_, ?_⟩
  · rw [et]; rfl
  · rw [et]; rfl
  · rw [et]; rfl
  · rw [et]; rfl
  · rw [et]; rfl
  · show (s.diu.remaining - BitVec.ofNat 32 s.mbYield).toNat = _
    rw [BitVec.toNat_sub, BitVec.toNat_ofNat, mbYield]; omega
  · exact Word.toNat_add_one (by omega)

/-- A miniblock taken off the page leaves the promise as it is, less its values (R137 after R139). -/
theorem MiniblockEnds.promise {s t : State} (h : MiniblockEnds s t) (hd : s.diu.dstate = .pay)
    (hleft : s.diu.remaining.toNat ≠ 0) (hidx : s.diu.mbIdx.toNat < s.diu.mbCount.toNat)
    (hw : s.mbWidth ≤ s.diu.wSel.bits) (hle : s.mbBytes ≤ s.page.length) (hv : s.NoVarint) :
    s.promise = t.promise.map (prepend s.mbValues) := by
  obtain ⟨k, hk⟩ : ∃ k, s.diu.mbCount.toNat - s.diu.mbIdx.toNat = k + 1 :=
    ⟨_, (Nat.succ_pred_eq_of_pos (by omega)).symm⟩
  have hpage : t.page = s.page.drop s.mbBytes := page_drop hle h.sink.src (by rw [h.regs]; rfl) (by rw [h.regs]; rfl)
  have htv : t.NoVarint := by
    intro hg
    rw [h.env] at hg
    rw [h.micro]
    exact hv hg
  have hdt : t.diu.dstate = afterMiniblock t.diu.remaining t.diu.mbIdx.toNat s.diu.mbCount.toNat := by
    conv_lhs => rw [h.diu]
  have hnext : s.promise = (miniblocksRest s.diu.wSel s.diu.mbCount.toNat s.diu.mbSize.toNat s.diu.minDelta
      (s.diu.widths.readList .widths (s.diu.mbIdx.toNat + 1) k) t.diu.remaining.toNat (lastRun s.diu.run s.mbValues)
      t.page).map (prepend s.mbValues) := by
    rw [promise_pay hd, hk, Memory.readList, blockRest, h.remaining, hpage]
    exact miniblocksRest_cons hleft hw hle rfl
  rw [hnext]
  congr 1
  by_cases hz : t.diu.remaining = 0
  · rw [promise_done (hdt.trans (if_pos hz)), hz]
    exact miniblocksRest_zero ..
  by_cases hmb : t.diu.mbIdx.toNat = s.diu.mbCount.toNat
  · have hk0 : k = 0 := by rw [h.mbIdx] at hmb; omega
    rw [promise_blk_eq (hdt.trans ((if_neg hz).trans (if_pos hmb))) htv hz, hk0, Memory.readList, miniblocksRest_nil,
      h.diu]
  · have hk' : s.diu.mbCount.toNat - (s.diu.mbIdx.toNat + 1) = k := by omega
    rw [promise_pay (hdt.trans ((if_neg hz).trans (if_neg hmb))), h.mbIdx, blockRest, h.diu]
    simp only [hk']

/-- A miniblock (R136, R137). -/
theorem pay_runsOn {s : State} (hI : s.Inv) (hb : s.isBusy) (hd : s.diu.dstate = .pay) : RunsOn s (unitStep s) := by
  obtain ⟨_, _, hok⟩ := hI.running hb
  simp only [hd] at hok
  obtain ⟨_, hbl, _, _, _, hidx, _⟩ := hok
  obtain ⟨_, _, _, _, h8, _⟩ := headerError_none hbl.legal
  rw [← hbl.size] at h8
  have hleft : s.diu.remaining.toNat ≠ 0 := fun h => hbl.some_left (BitVec.eq_of_toNat_eq h)
  have hcons : s.promise = s.blockRest s.diu.minDelta (s.diu.widths.read .widths s.diu.mbIdx.toNat ::
      s.diu.widths.readList .widths (s.diu.mbIdx.toNat + 1) (s.diu.mbCount.toNat - s.diu.mbIdx.toNat - 1)) s.page := by
    rw [promise_pay hd, show s.diu.mbCount.toNat - s.diu.mbIdx.toNat =
      s.diu.mbCount.toNat - s.diu.mbIdx.toNat - 1 + 1 by omega, Memory.readList]
    rfl
  rcases unitStep_mb hI hb hd with ⟨hw, h⟩ | ⟨hw, hn, h⟩ | ⟨hw, hle, t, h, ht⟩
  · exact .inl ⟨_, _, h, rfl, hcons.trans ((miniblocksRest_error hleft).1 hw)⟩
  · exact .inl ⟨_, _, h, rfl, hcons.trans ((miniblocksRest_error hleft).2 hw hn)⟩
  · have hpage : t.page = s.page.drop s.mbBytes :=
      page_drop hle ht.sink.src (by rw [ht.regs]; rfl) (by rw [ht.regs]; rfl)
    have hphase : t.diu.dstate.toGo ≤ s.diu.dstate.toGo ∧ t.diu.dstate ≠ .idle := by
      rw [ht.diu, hd]
      simp only [afterMiniblock]
      split
      · decide
      · split <;> decide
    refine .inr ⟨s.mbValues, t, h, ⟨ht.sink, by rw [ht.regs]; rfl, ht.dbr, ht.env, by rw [ht.diu], by rw [ht.diu],
      by rw [ht.diu]⟩, ?_, fun hc => ?_⟩
    · rw [rank, rank, Prod.Lex.toLex_lt_toLex', ht.dbr]
      refine ⟨Nat.add_le_add_left hphase.1 _, fun _ => ?_⟩
      rw [todo, todo, if_neg hphase.2, if_neg (by simp [hd]), hpage, ht.remaining, mbYield, List.length_drop]
      omega
    · have hv : s.NoVarint := hc.noVarint (by simp [hd]) (by simp [hd])
      refine ⟨.inr (.inr fun hg => ?_), ht.promise hd hleft hidx hw hle hv⟩
      rw [ht.env] at hg
      rw [ht.micro]
      exact hv hg

/-! #### Every step of a run -/

/-- A step of a DIU run, but for the page of DEC_BA as one operation. -/
theorem run_runsOn {s : State} (hI : s.Inv) (hb : s.isBusy) (hd : s.diu.dstate ≠ .idle) (hd' : s.diu.dstate ≠ .done)
    (hba : s.diu.dstate = .hdr → s.env.grain = .whole → s.dbr.bstate ≠ .pfx) : RunsOn s (unitStep s) := by
  obtain ⟨_, _, hok⟩ := hI.running hb
  cases hds : s.diu.dstate with
  | idle => exact absurd hds hd
  | done => exact absurd hds hd'
  | wid => exact wid_runsOn hI hb hds
  | pay => exact pay_runsOn hI hb hds
  | blk =>
    simp only [hds] at hok
    exact field_runsOn hI hb hok.1 (by simp [hds]) (.inl hds)
  | hdr =>
    simp only [hds] at hok
    obtain ⟨hs, he, _⟩ := hok
    cases hg : s.env.grain with
    | byte => exact field_runsOn hI hb hs (fun _ => he) (.inr ⟨hds, .inl hg⟩)
    | field => exact field_runsOn hI hb hs (fun _ => he) (.inr ⟨hds, .inr hg⟩)
    | rule => exact hdr_runsOn hI hb hs he hds hg
    | whole => exact pageInt_runsOn hI hb hs he hds hg (hba hds hg)

end Sys2Proof.Machine

/-! ### The steps of the DBR -/

namespace Sys2Proof.Machine
open State

namespace State

/-- R165 up to the suffix, as the state it leaves. -/
def valueBegun (s : State) : State :=
  { s with
    mem.ofs := s.mem.ofs.write s.dbr.idx.toNat s.regs.dstLen
    mem.dst := s.mem.dst.writeList s.regs.dstLen.toNat (s.mem.dst.readList .dst s.dbr.prevOff.toNat s.prefixLen.toNat)
    regs.dstLen := s.regs.dstLen + s.prefixLen
    dbr.prevOff := s.regs.dstLen
    dbr.prevLen := s.prefixLen + s.suffixLen
    dbr.idx := s.dbr.idx + 1
    micro.rawLeft := s.suffixLen }

/-- The suffix copy of R165, as the state it leaves. -/
def suffixCopied (s : State) : State :=
  { s with
    mem.dst := s.mem.dst.writeList s.regs.dstLen.toNat
      (s.mem.src.readList .src s.regs.srcCur.toNat s.micro.rawLeft.toNat)
    regs.srcCur := s.regs.srcCur + BitVec.ofNat 32 s.micro.rawLeft.toNat
    regs.dstLen := s.regs.dstLen + s.micro.rawLeft
    micro.rawLeft := 0 }

/-- One byte of the suffix copy. -/
def byteCopied (b : Byte) (s : State) : State :=
  { s.advance 1 with
    mem.dst := s.mem.dst.writeList s.regs.dstLen.toNat [b]
    regs.dstLen := s.regs.dstLen + 1
    micro.rawLeft := s.micro.rawLeft - 1 }

variable (s : State)

@[simp] theorem nextValue_regs : s.nextValue.regs = s.regs := by unfold nextValue; split <;> rfl
@[simp] theorem nextValue_diu : s.nextValue.diu = s.diu := by unfold nextValue; split <;> rfl
@[simp] theorem nextValue_mem : s.nextValue.mem = s.mem := by unfold nextValue; split <;> rfl
@[simp] theorem nextValue_micro : s.nextValue.micro = s.micro := by unfold nextValue; split <;> rfl
@[simp] theorem nextValue_env : s.nextValue.env = s.env := by unfold nextValue; split <;> rfl
@[simp] theorem nextValue_nPfx : s.nextValue.dbr.nPfx = s.dbr.nPfx := by unfold nextValue; split <;> rfl
@[simp] theorem nextValue_nSfx : s.nextValue.dbr.nSfx = s.dbr.nSfx := by unfold nextValue; split <;> rfl
@[simp] theorem nextValue_idx : s.nextValue.dbr.idx = s.dbr.idx := by unfold nextValue; split <;> rfl
@[simp] theorem nextValue_prevOff : s.nextValue.dbr.prevOff = s.dbr.prevOff := by unfold nextValue; split <;> rfl
@[simp] theorem nextValue_prevLen : s.nextValue.dbr.prevLen = s.dbr.prevLen := by unfold nextValue; split <;> rfl
@[simp] theorem nextValue_pfx : s.nextValue.dbr.pfx = s.dbr.pfx := by unfold nextValue; split <;> rfl
@[simp] theorem nextValue_sfx : s.nextValue.dbr.sfx = s.dbr.sfx := by unfold nextValue; split <;> rfl

theorem nextValue_of_left {s : State} (h : s.micro.rawLeft ≠ 0) : s.nextValue = s := by rw [nextValue, if_neg h]

theorem nextValue_bstate {s : State} (h : s.micro.rawLeft = 0) :
    s.nextValue.dbr.bstate = if s.dbr.idx = s.dbr.nPfx then .done else .val := by rw [nextValue, if_pos h]

theorem toGo_nextValue_le {s : State} (h : s.dbr.bstate = .val) :
    s.nextValue.dbr.bstate.toGo ≤ s.dbr.bstate.toGo := by
  by_cases hr : s.micro.rawLeft = 0
  · rw [nextValue_bstate hr, h]
    split <;> decide
  · rw [nextValue_of_left hr]

end State

/-- What the value loop keeps while it runs (R163 to R165). -/
theorem valuesOk_of_inv {s : State} (hI : s.Inv) (hb : s.isBusy) (hd : s.diu.dstate = .idle)
    (hv : s.dbr.bstate = .val) : s.ValuesOk := by
  obtain ⟨_, _, hok⟩ := hI.running hb
  simpa only [hd, hv] using hok

/-- A byte of a suffix is there and is copied (R165). -/
theorem unitStep_raw {s : State} (hI : s.Inv) (hb : s.isBusy) (hd : s.diu.dstate = .idle) (hv : s.dbr.bstate = .val)
    (hr : s.micro.rawLeft ≠ 0) :
    ∃ b rest, s.page = b :: rest ∧ unitStep s = .next (s.byteCopied b).nextValue := by
  have hb' : s.regs.status = .busy := hb
  have hp : s.position = some .raw := by simp [position, hb', hd, hv]; exact hr
  have hok := valuesOk_of_inv hI hb hd hv
  have hpos := ne_zero_pos hr
  have hsuf := hok.suffix
  have hfits := hok.fits
  cases hpg : s.page with
  | nil =>
    have := congrArg List.length hpg
    rw [length_page, List.length_nil] at this
    omega
  | cons b rest =>
    have hdec : decodeElement .raw s.page = .ok (.raw b, rest) := by rw [hpg]; rfl
    have ha : s.At (.raw b) := (fetch_ok hp (by rw [State.fetch, hdec]; rfl)).1
    refine ⟨b, rest, rfl, ?_⟩
    rw [unitStep_decodes hp hdec, exec, execRaw, inPlace_at ha,
      storeDst_of_le (by rw [List.length_singleton]; omega), orOutside_some]
    rfl

/-- A value is checked, and then emitted as far as one step goes (R164, R165; log 1). -/
theorem unitStep_value {s : State} (hI : s.Inv) (hb : s.isBusy) (hd : s.diu.dstate = .idle) (hv : s.dbr.bstate = .val)
    (hr : s.micro.rawLeft = 0) :
    (∃ e, s.checkValue = some e ∧ unitStep s = .next (s.raise e)) ∨
    s.checkValue = none ∧
      (unitStep s = .next s.valueBegun.nextValue ∨ unitStep s = .next s.valueBegun.suffixCopied.nextValue) := by
  have hb' : s.regs.status = .busy := hb
  have hp : s.position = none := by simp [position, hb', hd, hv]; exact hr
  have hok := valuesOk_of_inv hI hb hd hv
  rw [unitStep_sequence hb hp, show sequence s = valueStep s by simp [sequence, hd, hv], valueStep]
  cases hc : s.checkValue with
  | some e => exact .inl ⟨e, rfl, rfl⟩
  | none =>
    refine .inr ⟨rfl, ?_⟩
    obtain ⟨_, _, hp, hq, hcap⟩ := valueError_none hc
    have hidx := hok.some_left hr
    have hcnt := hok.count
    have hdc := dstCap_lt hI.legal
    have hbg : s.beginValue = some s.valueBegun := beginValue_of_le (by omega) (by omega)
    have hdl : (s.regs.dstLen + s.prefixLen).toNat = s.regs.dstLen.toNat + s.prefixLen.toNat := by
      rw [BitVec.toNat_add]; omega
    have hcp : s.valueBegun.copySuffix = some s.valueBegun.suffixCopied :=
      copySuffix_of_le (by
        show (s.regs.dstLen + s.prefixLen).toNat + s.suffixLen.toNat ≤ s.env.inst.dstCap
        omega)
    cases hg : s.env.grain with
    | byte => left; simp [emitValue, hg, hbg]
    | field => left; simp [emitValue, hg, hbg]
    | rule => right; simp [emitValue, hg, hbg, hcp]
    | whole => right; simp [emitValue, hg, hbg, hcp]

/-- B_CMP (R163). -/
theorem unitStep_cmp {s : State} (hb : s.isBusy) (hd : s.diu.dstate = .idle) (hv : s.dbr.bstate = .cmp) :
    unitStep s = .next s.compareCounts := by
  have hb' : s.regs.status = .busy := hb
  rw [unitStep_sequence hb (by simp [position, hb', hd, hv])]
  simp [sequence, hd, hv]

/-- What B_DONE leaves (R166, R97). -/
def State.offsetsClosed (s : State) : State :=
  ({ s with mem.ofs := s.mem.ofs.write s.dbr.nPfx.toNat s.regs.dstLen } : State).finish s.dbr.nPfx s.regs.dstLen

/-- B_DONE (R166). -/
theorem unitStep_close {s : State} (hI : s.Inv) (hb : s.isBusy) (hd : s.diu.dstate = .idle)
    (hv : s.dbr.bstate = .done) : unitStep s = .next s.offsetsClosed := by
  have hb' : s.regs.status = .busy := hb
  obtain ⟨_, _, hok⟩ := hI.running hb
  simp only [hd, hv] at hok
  obtain ⟨hcount, _, _⟩ := hok
  rw [unitStep_sequence hb (by simp [position, hb', hd, hv])]
  simp only [sequence, hd, hv, closeOffsets]
  rw [storeOfs_of_le hcount, orOutside_some, offsetsClosed]

/-- D_DONE hands the run back to whoever started it (R138). -/
theorem unitStep_runDone {s : State} (hb : s.isBusy) (hd : s.diu.dstate = .done) :
    (s.dbr.bstate = .idle → unitStep s = .next s.endIntCommand) ∧
    (s.dbr.bstate = .pfx → unitStep s = .next s.endPrefixRun) ∧
    (s.dbr.bstate = .sfx → unitStep s = .next s.endSuffixRun) := by
  have hb' : s.regs.status = .busy := hb
  rw [unitStep_sequence hb (by simp [position, hb', hd])]
  refine ⟨fun h => ?_, fun h => ?_, fun h => ?_⟩ <;> simp [sequence, hd, h]

/-- The state that .page.ba leaves (R167). -/
def State.arrayDecoded (d : DecodedBa) (s : State) : State :=
  { s.advance (s.page.length - d.rest.length) with
    regs.dstLen := BitVec.ofNat 32 d.values.flatten.length
    mem.dst := s.mem.dst.writeList 0 d.values.flatten
    mem.ofs := s.mem.ofs.writeList 0 (offsetsFrom 0 d.values)
    diu.dstate := .idle
    dbr.bstate := .done
    dbr.nPfx := BitVec.ofNat 32 d.values.length
    dbr.nSfx := BitVec.ofNat 32 d.values.length
    dbr.idx := BitVec.ofNat 32 d.values.length
    dbr.prevOff := BitVec.ofNat 32 (d.values.flatten.length - (d.values.getLast?.getD []).length)
    dbr.prevLen := BitVec.ofNat 32 (d.values.getLast?.getD []).length
    dbr.pfx := s.dbr.pfx.writeList 0 d.prefixes
    dbr.sfx := s.dbr.sfx.writeList 0 d.suffixes }

/-- The page of DEC_BA as one step (R167). -/
theorem unitStep_pageBa {s : State} (hb : s.isBusy) (hd : s.diu.dstate = .hdr) (hg : s.env.grain = .whole)
    (hbs : s.dbr.bstate = .pfx) :
    match decodeBaPage s.env.inst s.page with
    | .error e => unitStep s = .next (s.raise e)
    | .ok d => unitStep s = .next (s.arrayDecoded d) := by
  have hb' : s.regs.status = .busy := hb
  have hp : s.position = some .pageBa := by simp [position, hb', hd, hg, hbs]
  have hdec : decodeElement .pageBa s.page = .ok (.pageBa s.page, []) := rfl
  have ha : s.At (.pageBa s.page) := (fetch_ok hp (by rw [State.fetch, hdec]; rfl)).1
  rw [unitStep_decodes hp hdec, exec, execPageBa, inPlace_at ha]
  cases hr : decodeBaPage s.env.inst s.page with
  | error e => rfl
  | ok d =>
    obtain ⟨hn, _, _, hdst, _⟩ := decodeBaPage_ok hr
    dsimp only
    rw [if_neg (by omega), storeDst_of_le (by omega), orOutside_some]
    rfl

/-! ### Every command ends (O52) -/

/-- STATE is DONE or ERROR. -/
def State.Ended (s : State) : Prop := s.regs.status = .done ∨ ∃ e, s.regs.status = .error e

theorem State.Ended.ready {s : State} (h : s.Ended) : s.Ready := by
  intro hb
  rcases h with h | ⟨e, h⟩ <;> rw [isBusy, h] at hb <;> cases hb

/-- A step of the value loop or around it ends the command or lowers its rank. -/
theorem dbr_progress {s : State} (hI : s.Inv) (hb : s.isBusy) (hd : s.diu.dstate = .idle) :
    ∃ t, unitStep s = .next t ∧ (t.Ended ∨ t.isBusy ∧ t.rank < s.rank) := by
  obtain ⟨_, _, hok⟩ := hI.running hb
  simp only [hd] at hok
  cases hbs : s.dbr.bstate <;> simp only [hbs] at hok
  case cmp =>
    refine ⟨_, unitStep_cmp hb hd hbs, ?_⟩
    by_cases hne : s.dbr.nPfx ≠ s.dbr.nSfx
    · rw [compareCounts, if_pos hne]
      exact .inl (.inr ⟨_, rfl⟩)
    · rw [compareCounts, if_neg hne]
      refine .inr ⟨hb, rank_lt_of_phase ?_⟩
      rw [hbs]
      dsimp only
      split <;> simp [BState.toGo]
  case val =>
    by_cases hr : s.micro.rawLeft = 0
    · have hidx := hok.some_left hr
      have hcnt := hok.count
      have hlc := lenCap_lt hI.legal
      have hix : (s.dbr.idx + 1).toNat = s.dbr.idx.toNat + 1 := Word.toNat_add_one (by omega)
      -- the next index, and no byte put back to the page
      have lower : ∀ u : State, u.dbr.bstate = .val → u.dbr.nPfx = s.dbr.nPfx → u.dbr.idx = s.dbr.idx + 1 →
          u.diu = s.diu → u.page.length ≤ s.page.length → u.nextValue.rank < s.rank := by
        intro u h1 h2 h3 h4 h5
        have h6 : u.nextValue.page = u.page := page_congr (by simp) (by simp) (by simp)
        rw [rank, rank, Prod.Lex.toLex_lt_toLex', nextValue_diu, h4]
        refine ⟨Nat.add_le_add_right (le_trans (toGo_nextValue_le h1) (by rw [h1, hbs])) _, fun _ => ?_⟩
        rw [todo, todo, nextValue_diu, h4, if_pos hd, if_pos hd, h6, nextValue_nPfx, nextValue_idx, h2, h3, hix]
        omega
      rcases unitStep_value hI hb hd hbs hr with ⟨e, _, hu⟩ | ⟨hc, hu | hu⟩
      · exact ⟨_, hu, .inl (.inr ⟨e, rfl⟩)⟩
      · exact ⟨_, hu, .inr ⟨by rw [isBusy, nextValue_regs]; exact hb, lower _ hbs rfl rfl rfl (le_of_eq rfl)⟩⟩
      · obtain ⟨_, _, _, hq, _⟩ := valueError_none hc
        refine ⟨_, hu, .inr ⟨by rw [isBusy, nextValue_regs]; exact hb, lower _ hbs rfl rfl rfl ?_⟩⟩
        have hpage : s.valueBegun.suffixCopied.page = s.page.drop s.suffixLen.toNat :=
          page_drop (by rw [length_page]; exact hq) rfl rfl rfl
        rw [hpage, List.length_drop]
        omega
    · obtain ⟨b, rest, hpg, hu⟩ := unitStep_raw hI hb hd hbs hr
      have hlen : 1 ≤ s.page.length := by simp only [hpg, List.length_cons]; omega
      have hpage : (s.byteCopied b).nextValue.page = s.page.drop 1 :=
        page_drop hlen (by simp [byteCopied]) (by simp [byteCopied]) (by simp [byteCopied])
      refine ⟨_, hu, .inr ⟨by rw [isBusy, nextValue_regs]; exact hb, ?_⟩⟩
      rw [rank, rank, Prod.Lex.toLex_lt_toLex', nextValue_diu]
      refine ⟨Nat.add_le_add_right (toGo_nextValue_le (s := s.byteCopied b) hbs) _, fun _ => ?_⟩
      rw [todo, todo, nextValue_diu, hpage, nextValue_nPfx, nextValue_idx, List.length_drop]
      show s.page.length - 1 + (if s.diu.dstate = .idle then s.dbr.nPfx.toNat - s.dbr.idx.toNat else _) < _
      rw [if_pos hd, if_pos hd]
      omega
  case done => exact ⟨_, unitStep_close hI hb hd hbs, .inl (.inl rfl)⟩

/-- Every step of a running command ends it in DONE or ERROR or lowers its rank. -/
theorem unitStep_progress {s : State} (hI : s.Inv) (hb : s.isBusy) :
    ∃ t, unitStep s = .next t ∧ (t.Ended ∨ t.isBusy ∧ t.rank < s.rank) := by
  by_cases hdi : s.diu.dstate = .idle
  · exact dbr_progress hI hb hdi
  by_cases hdd : s.diu.dstate = .done
  · obtain ⟨_, _, hok⟩ := hI.running hb
    simp only [hdd] at hok
    obtain ⟨⟨_, hk⟩, _⟩ := hok
    obtain ⟨h1, h2, h3⟩ := unitStep_runDone hb hdd
    cases hbs : s.dbr.bstate <;> simp only [hbs] at hk
    case idle => exact ⟨_, h1 hbs, .inl (.inl rfl)⟩
    case pfx =>
      refine ⟨_, h2 hbs, .inr ⟨hb, rank_lt_of_phase ?_⟩⟩
      rw [hbs, hdd]
      show 3 + 2 < 6 + 0
      decide
    case sfx =>
      refine ⟨_, h3 hbs, .inr ⟨hb, rank_lt_of_phase ?_⟩⟩
      rw [hbs, hdd]
      show 2 + 0 < 3 + 0
      decide
  by_cases hba : s.diu.dstate = .hdr ∧ s.env.grain = .whole ∧ s.dbr.bstate = .pfx
  · obtain ⟨hds, hg, hbs⟩ := hba
    have hu := unitStep_pageBa hb hds hg hbs
    split at hu
    · exact ⟨_, hu, .inl (.inr ⟨_, rfl⟩)⟩
    · refine ⟨_, hu, .inr ⟨hb, rank_lt_of_phase ?_⟩⟩
      rw [hbs, hds]
      show 0 + 0 < 6 + 2
      decide
  · rcases run_runsOn hI hb hdi hdd fun h1 h2 h3 => hba ⟨h1, h2, h3⟩ with
      ⟨e, t, hu, he, _⟩ | ⟨_, t, hu, hrun, hlt, _⟩
    · exact ⟨t, hu, .inl (.inr ⟨e, he⟩)⟩
    · exact ⟨t, hu, .inr ⟨by rw [isBusy, hrun.regs]; exact hb, hlt⟩⟩

/-- `n` steps lead from `s` to `t`, for some `n`. -/
def Reaches (s t : State) : Prop := ∃ n, runSteps n s = some t

theorem Reaches.refl (s : State) : Reaches s s := ⟨0, rfl⟩

theorem runSteps_add (m n : Nat) (s : State) : runSteps (m + n) s = (runSteps m s).bind (runSteps n) := by
  induction m generalizing s with
  | zero => simp [runSteps]
  | succ m ih =>
    rw [Nat.succ_add, runSteps, runSteps]
    cases step s with
    | next t => exact ih t
    | fault r => rfl
    | refused r => rfl

theorem Reaches.trans {s t u : State} (h : Reaches s t) (h' : Reaches t u) : Reaches s u := by
  obtain ⟨m, hm⟩ := h
  obtain ⟨n, hn⟩ := h'
  exact ⟨m + n, by rw [runSteps_add, hm]; exact hn⟩

theorem step_of_no_host {s : State} (h : s.env.host = []) : step s = unitStep s := by
  simp only [step, machineStep, h]

theorem Reaches.unit {s t : State} (hh : s.env.host = []) (h : unitStep s = .next t) : Reaches s t :=
  ⟨1, by rw [runSteps, step_of_no_host hh, h]; rfl⟩

/-- Induction along a running command: a property that every running state has when the next state ends the command or
has it. -/
theorem run_induction {P : State → Prop}
    (next : ∀ s t, s.Inv → s.isBusy → unitStep s = .next t → t.Inv → (t.Ended ∨ t.isBusy ∧ P t) → P s)
    {s : State} (hI : s.Inv) (hb : s.isBusy) : P s := by
  induction hr : s.rank using WellFoundedLT.induction generalizing s with
  | ind r ih =>
    obtain ⟨t, ht, hprog⟩ := unitStep_progress hI hb
    have htI := inv_of_unitStep hI ht
    refine next s t hI hb ht htI ?_
    rcases hprog with he | ⟨htb, hlt⟩
    · exact .inl he
    · exact .inr ⟨htb, ih t.rank (hr ▸ hlt) htI htb rfl⟩

/-- Settles O52, by induction on the rank that every step of a running command lowers. -/
theorem everyCommandEnds : Obligations.EveryCommandEnds := by
  unfold Obligations.EveryCommandEnds
  intro s hI hb hh
  have ends : s.env.host = [] → ∃ t, Reaches s t ∧ t.Ended := by
    refine run_induction (P := fun s => s.env.host = [] → ∃ t, Reaches s t ∧ t.Ended) ?_ hI hb
    intro s t _ _ ht _ hprog hh
    have hst := Reaches.unit hh ht
    rcases hprog with he | ⟨_, ih⟩
    · exact ⟨t, hst, he⟩
    · obtain ⟨u, hu, he⟩ := ih ((SameInput.unitStep ht).host.trans hh)
      exact ⟨u, hst.trans hu, he⟩
  obtain ⟨t, ⟨n, hn⟩, he⟩ := ends hh
  exact ⟨n, t, hn, he⟩

end Sys2Proof.Machine

/-! ### A DIU run as a whole -/

namespace Sys2Proof.Machine
open State

/-- A run reaches nothing that changes its input. -/
theorem SameInput.reaches {s t : State} (hh : s.env.host = []) (h : Reaches s t) : SameInput s t := by
  obtain ⟨n, hn⟩ := h
  induction n generalizing s with
  | zero => cases hn; exact refl _
  | succ n ih =>
    rw [runSteps, step_of_no_host hh] at hn
    cases hu : Machine.unitStep s with
    | next u =>
      rw [hu] at hn
      have h1 := SameInput.unitStep hu
      exact h1.trans (ih (h1.host.trans hh) hn)
    | fault r => rw [hu] at hn; cases hn
    | refused r => rw [hu] at hn; cases hn

/-- What is reached from a state of the invariant is of the invariant. -/
theorem inv_of_reaches {s t : State} (hI : s.Inv) (hh : s.env.host = []) (h : Reaches s t) : t.Inv := by
  obtain ⟨n, hn⟩ := h
  induction n generalizing s with
  | zero => cases hn; exact hI
  | succ n ih =>
    obtain ⟨u, hu, huI⟩ := unitStep_inv hI
    rw [runSteps, step_of_no_host hh, hu] at hn
    exact ih huI ((SameInput.unitStep hu).host.trans hh) hn

/-- DSTATE is idle exactly where the DBR works on its own. -/
theorem dstate_ne_idle_iff {s : State} (hI : s.Inv) (hb : s.isBusy) :
    s.diu.dstate ≠ .idle ↔ s.dbr.bstate = .idle ∨ s.dbr.bstate = .pfx ∨ s.dbr.bstate = .sfx := by
  obtain ⟨_, _, hok⟩ := hI.running hb
  have run : s.SinkOk → s.dbr.bstate = .idle ∨ s.dbr.bstate = .pfx ∨ s.dbr.bstate = .sfx := by
    intro h
    have := h.2
    cases hbs : s.dbr.bstate <;> simp_all
  cases hd : s.diu.dstate <;> simp only [hd] at hok
  case idle => cases hbs : s.dbr.bstate <;> simp_all
  all_goals simpa using run hok.1

/-- A DIU run ends in the error it promised, or in D_DONE with the values it promised in the sink and the rest of the
page before the cursor (R139). -/
theorem run_completes {s : State} (hI : s.Inv) (hb : s.isBusy) (hh : s.env.host = []) (hd : s.diu.dstate ≠ .idle)
    (hc : s.Coherent) (hba : s.env.grain = .whole → s.dbr.bstate ≠ .pfx) :
    ∃ t, Reaches s t ∧ t.Inv ∧
      match s.promise with
      | .error e => t.regs.status = .error e
      | .ok (us, rest) => t.diu.dstate = .done ∧ t.page = rest ∧ RunStep s t us := by
  refine run_induction (P := fun s => s.env.host = [] → s.diu.dstate ≠ .idle → s.Coherent →
    (s.env.grain = .whole → s.dbr.bstate ≠ .pfx) → ∃ t, Reaches s t ∧ t.Inv ∧
      match s.promise with
      | .error e => t.regs.status = .error e
      | .ok (us, rest) => t.diu.dstate = .done ∧ t.page = rest ∧ RunStep s t us) ?_ hI hb hh hd hc hba
  intro s t hI hb ht htI hprog hh hd hc hba
  by_cases hdd : s.diu.dstate = .done
  · refine ⟨s, Reaches.refl s, hI, ?_⟩
    rw [promise_done hdd]
    exact ⟨hdd, rfl, RunStep.refl s⟩
  rcases run_runsOn hI hb hd hdd fun _ => hba with ⟨e, u, hu, he, hp⟩ | ⟨us, u, hu, hrun, _, hprom⟩
  · refine ⟨u, Reaches.unit hh hu, inv_of_unitStep hI hu, ?_⟩
    rw [hp]
    exact he
  · rw [ht] at hu
    cases hu
    obtain ⟨hct, hp⟩ := hprom hc
    have htb : t.isBusy := by rw [isBusy, hrun.regs]; exact hb
    have hbs : t.dbr.bstate = s.dbr.bstate := by rw [hrun.dbr]
    obtain ⟨v, hv, hvI, hvm⟩ : ∃ v, Reaches t v ∧ v.Inv ∧
        match t.promise with
        | .error e => v.regs.status = .error e
        | .ok (us, rest) => v.diu.dstate = .done ∧ v.page = rest ∧ RunStep t v us := by
      rcases hprog with he | ⟨_, ih⟩
      · exact absurd htb he.ready
      · refine ih (by rw [hrun.env, hh]) ?_ hct (by rw [hrun.env, hbs]; exact hba)
        rw [dstate_ne_idle_iff htI htb, hbs, ← dstate_ne_idle_iff hI hb]
        exact hd
    refine ⟨v, (Reaches.unit hh ht).trans hv, hvI, ?_⟩
    rw [hp]
    cases hq : t.promise with
    | error e => rw [hq] at hvm; exact hvm
    | ok r =>
      rw [hq] at hvm
      obtain ⟨h1, h2, h3⟩ := hvm
      exact ⟨h1, h2, hrun.append h3⟩

/-! ### The start of a command -/

/-- The state in which a decode command leaves the unit (R90, R92, R93, R94), no host action pending. -/
def State.issued (b : BState) (w : Width) (k : Sink) (s : State) : State :=
  ({ s with
    regs.status := .busy, regs.outCount := 0, regs.dstLen := 0, diu.emitted := 0
    dbr.prevLen := 0, dbr.bstate := b, env.host := [] } : State).startRun w k

/-- A CMD write by a host that does nothing else. -/
theorem step_writeCmd (s : State) (w : Word) :
    step { s with env.host := [.writeReg offCmd w] } = exec (decodeCommand w) { s with env.host := [] } := by
  rw [step_of_host (op := .writeReg offCmd w) (rest := []) rfl]
  simp [hostStep, popHost]

/-- A decode command that may be issued starts the unit. -/
theorem step_issue {s : State} (h : s.MayIssue) :
    (∀ w, step { s with env.host := [.writeReg offCmd (intCommand w)] } = .next (s.issued .idle w .dst)) ∧
    step { s with env.host := [.writeReg offCmd 3] } = .next (s.issued .pfx .w32 .pfx) := by
  have hr : ¬ s.regs.status = .busy := h.ready
  have hf : ¬ s.env.inst.srcCap < s.regs.srcLen.toNat := Nat.not_lt.mpr h.fits
  refine ⟨fun w => ?_, ?_⟩
  · rw [step_writeCmd]
    cases w <;> simp [intCommand, decodeCommand, exec, execDecI32, execDecI64, issue, hr, hf, issued]
  · rw [step_writeCmd]
    simp [decodeCommand, exec, execDecBa, issue, hr, hf, issued]

/-- A run that has just been started promises DecodeInt of the page (R139, R130). -/
theorem promise_startRun {s : State} {w : Width} {k : Sink} (hl : s.env.inst.Legal) :
    (s.startRun w k).promise = decodeIntPage s.env.inst w (sinkCapOf s.env.inst w k) s.page := by
  have hcap : (s.startRun w k).diu.sinkCap.toNat = sinkCapOf s.env.inst w k := by
    rw [startRun_sinkCap, BitVec.toNat_ofNat]
    exact Nat.mod_eq_of_lt (sinkCapOf_lt hl w k)
  rw [promise_start rfl (by unfold nextField; split <;> rfl) fun _ => ⟨rfl, rfl⟩, hcap]
  rfl

/-- A command that has just been issued is of the invariant. -/
theorem issued_inv {s : State} (h : s.MayIssue) {b : BState} {w : Width} {k : Sink}
    (hk : b = .idle ∧ k = .dst ∨ b = .pfx ∧ k = .pfx ∧ w = .w32) : (s.issued b w k).Inv := by
  have hm := h.inv.memories
  exact startRun_inv (b := b) h.inv.legal
    (t := { s with
      regs.status := .busy, regs.outCount := 0, regs.dstLen := 0, diu.emitted := 0
      dbr.prevLen := 0, dbr.bstate := b, env.host := [] })
    ⟨hm.src, hm.dst, hm.ofs, hm.pfx, hm.sfx, hm.widths⟩ rfl h.fits rfl hk

/-- It promises DecodeInt of the page that the host issued it on. -/
theorem issued_promise {s : State} (h : s.MayIssue) (b : BState) (w : Width) (k : Sink) :
    (s.issued b w k).promise = decodeIntPage s.env.inst w (sinkCapOf s.env.inst w k) s.page :=
  (promise_startRun (by exact h.inv.legal)).trans rfl

/-- Where the cursor stands when the rest of the page is shorter than the page. -/
theorem srcCur_of_page {s t : State} (hl : t.regs.srcLen = s.regs.srcLen) (hc : t.CursorOk)
    (hlt : t.page.length < s.page.length) :
    t.regs.srcCur.toNat = s.regs.srcCur.toNat + (s.page.length - t.page.length) := by
  have : t.regs.srcCur.toNat ≤ t.regs.srcLen.toNat := hc
  rw [length_page, length_page, hl] at *
  omega

/-- A command that the host issues ends where a run from its start ends. -/
theorem ends_of_reaches {s t u : State} {w : Word} (h : step { s with env.host := [.writeReg offCmd w] } = .next u)
    (hr : Reaches u t) (ht : t.Ready) : Ends w s t := by
  obtain ⟨n, hn⟩ := hr
  exact ⟨n, by rw [runSteps, h]; exact hn, ht⟩

theorem endsInError_of_sameInput {s t u : State} {e : Err} (h : SameInput u t) (hs : u.mem.src = s.mem.src)
    (hl : u.regs.srcLen = s.regs.srcLen) (he : t.regs.status = .error e) : EndsInError s t e :=
  ⟨he, h.srcLen.trans hl, h.src.trans hs⟩

/-- The end of an integer command whose run has put `vs` into DST (R138, R92, R93). -/
theorem ints_end {s t : State} {w : Width} {vs : List DWord} {rest : List Byte} (h : s.MayIssue)
    (hdec : decodeIntPage s.env.inst w (sinkCapOf s.env.inst w .dst) s.page = .ok (vs, rest))
    (hrun : RunStep (s.issued .idle w .dst) t vs) (hcur : t.CursorOk) (hpage : t.page = rest) :
    EndsInInts s t.endIntCommand w vs rest := by
  obtain ⟨hlen, _, hrest⟩ := decodeIntPage_ok hdec
  have hlt := dstCap_lt h.inv.legal
  have hsrcLen : t.regs.srcLen = s.regs.srcLen := by rw [hrun.regs]; rfl
  have hem : t.diu.emitted.toNat = vs.length := by rw [hrun.sink.emitted]; simp [issued]
  obtain ⟨hdst, _, _⟩ : Wrote .dst (0 * w.bytes) (vs.flatMap (leBytes w.bytes)) s.mem.dst t.mem.dst ∧ _ ∧ _ :=
    hrun.sink.sink
  rw [Nat.zero_mul] at hdst
  have hfl : (vs.flatMap (leBytes w.bytes)).length = w.bytes * vs.length := by
    simp [List.length_flatMap, Nat.mul_comm]
  have hbytes : w.bytes * vs.length < 2 ^ 32 :=
    calc w.bytes * vs.length ≤ w.bytes * (s.env.inst.dstCap / w.bytes) := Nat.mul_le_mul_left _ hlen
      _ ≤ s.env.inst.dstCap := Nat.mul_div_le _ _
      _ < 2 ^ 32 := hlt
  refine ⟨rfl, hsrcLen, ?_, hem, ?_, ?_, fun a ha => ?_, hrun.sink.ofs, hrun.sink.src⟩
  · have := srcCur_of_page (s := s) hsrcLen hcur (by rw [hpage]; exact hrest)
    rw [← hpage]
    exact this
  · show (BitVec.ofNat 32 t.diu.wSel.bytes * t.diu.emitted).toNat = _
    rw [hrun.wSel, BitVec.toNat_mul, hem, BitVec.toNat_ofNat]
    show w.bytes % 2 ^ 32 * vs.length % 2 ^ 32 = _
    rw [Nat.mod_eq_of_lt (show w.bytes < 2 ^ 32 by cases w <;> decide), Nat.mod_eq_of_lt hbytes]
  · rw [← hfl]
    exact hdst.inside
  · exact hdst.outside a (.inr (by rw [hfl]; omega))

/-- DEC_I32 and DEC_I64 end in what DecodeInt of the page gives, whatever the grain. -/
theorem int_command_ends {s : State} (h : s.MayIssue) (w : Width) :
    ∃ t, Ends (intCommand w) s t ∧ IntEnds w s t := by
  have hstart := (step_issue h).1 w
  have hI := issued_inv h (b := .idle) (w := w) (k := .dst) (.inl ⟨rfl, rfl⟩)
  obtain ⟨t, ht, htI, htm⟩ := run_completes hI rfl rfl (by simp [issued]) (.inl rfl) fun _ => by simp [issued]
  have hsame := SameInput.reaches rfl ht
  rw [issued_promise h] at htm
  unfold IntEnds
  cases hr : decodeIntPage s.env.inst w (sinkCapOf s.env.inst w .dst) s.page with
  | error e =>
    rw [hr] at htm
    exact ⟨t, ends_of_reaches hstart ht (State.Ended.ready (.inr ⟨e, htm⟩)),
      endsInError_of_sameInput hsame rfl rfl htm⟩
  | ok r =>
    obtain ⟨vs, rest⟩ := r
    rw [hr] at htm
    obtain ⟨hd, hpage, hrun⟩ := htm
    have htb : t.isBusy := by rw [isBusy, hrun.regs]; rfl
    obtain ⟨toHost, _, _⟩ := unitStep_runDone htb hd
    have hend := toHost (by rw [hrun.dbr]; rfl)
    obtain ⟨_, _, hok⟩ := htI.running htb
    simp only [hd] at hok
    obtain ⟨_, _, hcur, _, _⟩ := hok
    exact ⟨_, ends_of_reaches hstart (ht.trans (Reaches.unit hsame.host hend)) (State.Ended.ready (.inl rfl)),
      ints_end h hr hrun hcur hpage⟩

/-- Settles O54, from the end of an integer command at every grain. -/
theorem ruleGrainInts : Obligations.RuleGrainInts := by
  unfold Obligations.RuleGrainInts
  exact fun s w h _ => int_command_ends h w

/-- Settles O55, from the end of an integer command at every grain. -/
theorem cutGrainInts : Obligations.CutGrainInts := by
  unfold Obligations.CutGrainInts
  exact fun s w h _ => int_command_ends h w

end Sys2Proof.Machine

/-! ### The values of DEC_BA -/

namespace Sys2Proof.Machine
open State

/-- With no byte left the suffix copy does nothing. -/
theorem suffixCopied_of_none {s : State} (h : s.micro.rawLeft = 0) : s.suffixCopied = s := by
  obtain ⟨regs, diu, dbr, mem, micro, env⟩ := s
  obtain ⟨k, v, f, i, left⟩ := micro
  simp only at h
  subst h
  simp [suffixCopied, Memory.readList, Memory.writeList]

/-- The suffix copy is one byte and the copy of the bytes after it. -/
theorem suffixCopied_byteCopied {s : State} {b : Byte} {rest : List Byte} (hpg : s.page = b :: rest)
    (hr : s.micro.rawLeft ≠ 0) (hd : s.regs.dstLen.toNat + s.micro.rawLeft.toNat < 2 ^ 32) :
    (s.byteCopied b).suffixCopied = s.suffixCopied := by
  have hpos := ne_zero_pos hr
  have hlen : 1 ≤ s.page.length := by simp only [hpg, List.length_cons]; omega
  obtain ⟨n, hn⟩ : ∃ n, s.micro.rawLeft.toNat = n + 1 := ⟨_, (Nat.succ_pred_eq_of_pos hpos).symm⟩
  have hleft : (s.micro.rawLeft - 1).toNat = n := by
    have := s.micro.rawLeft.isLt
    rw [BitVec.toNat_sub, show (1 : Word).toNat = 1 from rfl]; omega
  have hdl : (s.regs.dstLen + 1).toNat = s.regs.dstLen.toNat + 1 := Word.toNat_add_one (by omega)
  have hb : s.mem.src.read .src s.regs.srcCur.toNat = b := by
    have := getElem_page s 0 hlen
    rw [Nat.add_zero] at this
    rw [← this]
    simp [hpg]
  have hcur : (s.regs.srcCur + BitVec.ofNat 32 1).toNat = s.regs.srcCur.toNat + 1 := cursor_toNat hlen
  have hadd : s.regs.dstLen + 1 + (s.micro.rawLeft - 1) = s.regs.dstLen + s.micro.rawLeft := by ring
  simp only [suffixCopied, byteCopied, advance_srcCur, advance_mem, hleft, hn, hdl, hcur, hadd, Memory.readList, hb]
  rw [show s.regs.srcCur + BitVec.ofNat 32 1 + BitVec.ofNat 32 n = s.regs.srcCur + BitVec.ofNat 32 (n + 1) from
    Word.add_one_add_ofNat _ _]
  rfl

/-- At the grains that cut a suffix its bytes are copied one after another, to the same end (log 1). -/
theorem suffix_reach {s : State} (hI : s.nextValue.Inv) (hb : s.isBusy) (hh : s.env.host = [])
    (hd : s.diu.dstate = .idle) (hv : s.dbr.bstate = .val) : Reaches s.nextValue s.suffixCopied.nextValue := by
  induction hn : s.micro.rawLeft.toNat generalizing s with
  | zero =>
    rw [suffixCopied_of_none (BitVec.eq_of_toNat_eq hn)]
    exact Reaches.refl _
  | succ n ih =>
    have hr : s.micro.rawLeft ≠ 0 := fun h => by rw [h] at hn; cases hn
    rw [nextValue_of_left hr] at hI ⊢
    have hok := valuesOk_of_inv hI hb hd hv
    obtain ⟨b, rest, hpg, hu⟩ := unitStep_raw hI hb hd hv hr
    have hfits := hok.fits
    have hdc := dstCap_lt hI.legal
    rw [← suffixCopied_byteCopied hpg hr (by omega)]
    refine (Reaches.unit hh hu).trans (ih (inv_of_unitStep hI hu) hb hh hd hv ?_)
    have := s.micro.rawLeft.isLt
    show (s.micro.rawLeft - 1).toNat = n
    rw [BitVec.toNat_sub, show (1 : Word).toNat = 1 from rfl]; omega

/-- A value that passes R164 is emitted whole, in one step or in several (R165). -/
theorem value_reach {s : State} (hI : s.Inv) (hb : s.isBusy) (hh : s.env.host = []) (hd : s.diu.dstate = .idle)
    (hv : s.dbr.bstate = .val) (hr : s.micro.rawLeft = 0) (hc : s.checkValue = none) :
    Reaches s s.valueBegun.suffixCopied.nextValue := by
  rcases unitStep_value hI hb hd hv hr with ⟨e, he, _⟩ | ⟨_, hu | hu⟩
  · rw [he] at hc; cases hc
  · exact (Reaches.unit hh hu).trans (suffix_reach (inv_of_unitStep hI hu) hb hh hd hv)
  · exact Reaches.unit hh hu

/-- What one value leaves (R165): the value after the values before it, its start in OFS, the counters moved. -/
structure ValueEnds (s t : State) (value : List Byte) : Prop where
  busy : t.isBusy
  dst : Wrote .dst s.regs.dstLen.toNat value s.mem.dst t.mem.dst
  ofs : Wrote .ofs s.dbr.idx.toNat [s.regs.dstLen] s.mem.ofs t.mem.ofs
  prev : t.mem.dst.readList .dst t.dbr.prevOff.toNat t.dbr.prevLen.toNat = value
  dstLen : t.regs.dstLen.toNat = s.regs.dstLen.toNat + value.length
  page : t.page = s.page.drop s.suffixLen.toNat
  idx : t.dbr.idx.toNat = s.dbr.idx.toNat + 1
  dbr : t.dbr = { s.dbr with
    bstate := t.dbr.bstate, idx := t.dbr.idx, prevOff := t.dbr.prevOff, prevLen := t.dbr.prevLen }
  diu : t.diu = s.diu
  bstate : t.dbr.bstate = if s.dbr.idx.toNat + 1 = s.dbr.nPfx.toNat then .done else .val
  rawLeft : t.micro.rawLeft = 0

theorem value_ends {s : State} (hI : s.Inv) (hb : s.isBusy) (hd : s.diu.dstate = .idle) (hv : s.dbr.bstate = .val)
    (hr : s.micro.rawLeft = 0) (hc : s.checkValue = none) :
    ValueEnds s s.valueBegun.suffixCopied.nextValue
      ((s.mem.dst.readList .dst s.dbr.prevOff.toNat s.dbr.prevLen.toNat).take s.prefixLen.toNat ++
        s.page.take s.suffixLen.toNat) := by
  obtain ⟨_, _, hp, hq, hcap⟩ := valueError_none hc
  have hok := valuesOk_of_inv hI hb hd hv
  have hidx := hok.some_left hr
  have hcnt := hok.count
  have hlc := lenCap_lt hI.legal
  have hdc := dstCap_lt hI.legal
  have hdl : (s.regs.dstLen + s.prefixLen).toNat = s.regs.dstLen.toNat + s.prefixLen.toNat := by
    rw [BitVec.toNat_add]; omega
  have hdl2 : (s.regs.dstLen + s.prefixLen + s.suffixLen).toNat =
      s.regs.dstLen.toNat + s.prefixLen.toNat + s.suffixLen.toNat := by
    rw [BitVec.toNat_add, hdl]; omega
  have hpl : (s.prefixLen + s.suffixLen).toNat = s.prefixLen.toNat + s.suffixLen.toNat := by
    rw [BitVec.toNat_add]; omega
  have hix : (s.dbr.idx + 1).toNat = s.dbr.idx.toNat + 1 := Word.toNat_add_one (by omega)
  have hshared : (s.mem.dst.readList .dst s.dbr.prevOff.toNat s.dbr.prevLen.toNat).take s.prefixLen.toNat =
      s.mem.dst.readList .dst s.dbr.prevOff.toNat s.prefixLen.toNat := by
    rw [Memory.take_readList, Nat.min_eq_left hp]
  have hsuffix : s.page.take s.suffixLen.toNat = s.mem.src.readList .src s.regs.srcCur.toNat s.suffixLen.toNat := by
    rw [page, Memory.take_readList, Nat.min_eq_left hq]
  rw [hshared, hsuffix]
  generalize hval : s.mem.dst.readList .dst s.dbr.prevOff.toNat s.prefixLen.toNat ++
    s.mem.src.readList .src s.regs.srcCur.toNat s.suffixLen.toNat = value
  have hlen : value.length = s.prefixLen.toNat + s.suffixLen.toNat := by simp [← hval]
  have hmem : s.valueBegun.suffixCopied.nextValue.mem.dst = s.mem.dst.writeList s.regs.dstLen.toNat value := by
    rw [nextValue_mem, ← hval, Memory.writeList_append, Memory.length_readList, ← hdl]
    rfl
  refine ⟨by rw [isBusy, nextValue_regs]; exact hb, ?_, ?_, ?_, ?_, ?_, ?_, ?_, ?_, ?_, ?_⟩
  · rw [hmem]; exact wrote_writeList _ _ _ _
  · rw [nextValue_mem]; exact wrote_write _ _ _ _
  · rw [hmem, nextValue_prevOff, nextValue_prevLen]
    show (s.mem.dst.writeList s.regs.dstLen.toNat value).readList .dst s.regs.dstLen.toNat
      (s.prefixLen + s.suffixLen).toNat = value
    rw [hpl, ← hlen]
    exact Memory.readList_writeList_self _ _ _ _
  · rw [nextValue_regs, hlen, ← Nat.add_assoc]
    exact hdl2
  · refine page_drop (by rw [length_page]; exact hq) ?_ ?_ ?_
    · rw [nextValue_mem]; rfl
    · rw [nextValue_regs]; rfl
    · rw [nextValue_regs]; rfl
  · rw [nextValue_idx]; exact hix
  · unfold nextValue; split <;> rfl
  · rw [nextValue_diu]; rfl
  · rw [nextValue_bstate (by rfl)]
    have : s.dbr.idx + 1 = s.dbr.nPfx ↔ s.dbr.idx.toNat + 1 = s.dbr.nPfx.toNat := by
      rw [← hix, BitVec.toNat_inj]
    show (if s.dbr.idx + 1 = s.dbr.nPfx then BState.done else .val) = _
    simp only [this]
  · rw [nextValue_micro]; rfl

/-- The pairs of lengths of the values from number `i` on. -/
def State.lengths (i : Nat) (s : State) : List (Word × Word) :=
  (s.dbr.pfx.readList .pfx i (s.dbr.nPfx.toNat - i)).zip (s.dbr.sfx.readList .sfx i (s.dbr.nPfx.toNat - i))

theorem lengths_of_lt {s : State} {i : Nat} (h : i < s.dbr.nPfx.toNat) :
    s.lengths i = (s.dbr.pfx.read .pfx i, s.dbr.sfx.read .sfx i) :: s.lengths (i + 1) := by
  rw [State.lengths, show s.dbr.nPfx.toNat - i = s.dbr.nPfx.toNat - (i + 1) + 1 by omega, Memory.readList,
    Memory.readList, List.zip_cons_cons, State.lengths]

theorem lengths_of_le {s : State} {i : Nat} (h : s.dbr.nPfx.toNat ≤ i) : s.lengths i = [] := by
  rw [State.lengths, show s.dbr.nPfx.toNat - i = 0 by omega, Memory.readList, Memory.readList, List.zip_nil_left]

/-- What the value loop leaves in B_DONE: the values back to back in DST, their starts in OFS. -/
structure ValuesEnd (s t : State) (vs : List (List Byte)) (rest : List Byte) : Prop where
  busy : t.isBusy
  dstate : t.diu.dstate = .idle
  bstate : t.dbr.bstate = .done
  page : t.page = rest
  dst : Wrote .dst s.regs.dstLen.toNat vs.flatten s.mem.dst t.mem.dst
  ofs : Wrote .ofs s.dbr.idx.toNat (offsetsFrom s.regs.dstLen.toNat vs) s.mem.ofs t.mem.ofs
  dstLen : t.regs.dstLen.toNat = s.regs.dstLen.toNat + vs.flatten.length
  nPfx : t.dbr.nPfx = s.dbr.nPfx

/-- One value in front of the values after it. -/
theorem ValueEnds.values {s t u : State} {value : List Byte} {vs : List (List Byte)} {rest : List Byte}
    (h : ValueEnds s t value) (h' : ValuesEnd t u vs rest) : ValuesEnd s u (value :: vs) rest := by
  refine ⟨h'.busy, h'.dstate, h'.bstate, h'.page, ?_, ?_, ?_, by rw [h'.nPfx, h.dbr]⟩
  · rw [List.flatten_cons]
    exact h.dst.append (by rw [← h.dstLen]; exact h'.dst)
  · have hstart : BitVec.ofNat 32 s.regs.dstLen.toNat = s.regs.dstLen := by simp
    rw [offsetsFrom, hstart, ← h.dstLen, ← List.singleton_append]
    exact h.ofs.append (by rw [List.length_singleton, ← h.idx]; exact h'.ofs)
  · rw [h'.dstLen, h.dstLen, List.flatten_cons, List.length_append]
    omega

/-- The value loop ends in what R167's loop gives. -/
theorem values_complete {s : State} {lens : List (Word × Word)} (hl : s.lengths s.dbr.idx.toNat = lens) (hI : s.Inv)
    (hb : s.isBusy) (hh : s.env.host = []) (hd : s.diu.dstate = .idle) (hv : s.dbr.bstate = .val)
    (hr : s.micro.rawLeft = 0) :
    ∃ t, Reaches s t ∧ t.Inv ∧
      match decodeValues s.env.inst.dstCap lens
        (s.mem.dst.readList .dst s.dbr.prevOff.toNat s.dbr.prevLen.toNat) s.regs.dstLen.toNat s.page with
      | .error e => t.regs.status = .error e
      | .ok (vs, rest) => ValuesEnd s t vs rest := by
  induction lens generalizing s with
  | nil =>
    rw [lengths_of_lt ((valuesOk_of_inv hI hb hd hv).some_left hr)] at hl
    cases hl
  | cons pq lens ih =>
    rw [lengths_of_lt ((valuesOk_of_inv hI hb hd hv).some_left hr)] at hl
    obtain ⟨rfl, htail⟩ := List.cons.inj hl
    have hcheck : valueError s.env.inst.dstCap s.prefixLen s.suffixLen
        (s.mem.dst.readList .dst s.dbr.prevOff.toNat s.dbr.prevLen.toNat).length s.page.length
        s.regs.dstLen.toNat = s.checkValue := by
      rw [Memory.length_readList, length_page]; rfl
    rw [decodeValues, show s.dbr.pfx.read .pfx s.dbr.idx.toNat = s.prefixLen from rfl,
      show s.dbr.sfx.read .sfx s.dbr.idx.toNat = s.suffixLen from rfl, hcheck]
    cases hc : s.checkValue with
    | some e =>
      rcases unitStep_value hI hb hd hv hr with ⟨e', he', hu⟩ | ⟨hnone, _⟩
      · rw [hc] at he'
        cases he'
        exact ⟨_, Reaches.unit hh hu, inv_of_unitStep hI hu, rfl⟩
      · rw [hnone] at hc; cases hc
    | none =>
      have hreach := value_reach hI hb hh hd hv hr hc
      have hends := value_ends hI hb hd hv hr hc
      have htI := inv_of_reaches hI hh hreach
      have hsame := SameInput.reaches hh hreach
      generalize s.valueBegun.suffixCopied.nextValue = t at hreach hends htI hsame
      dsimp only
      generalize (s.mem.dst.readList .dst s.dbr.prevOff.toNat s.dbr.prevLen.toNat).take s.prefixLen.toNat ++
        s.page.take s.suffixLen.toNat = value at hends ⊢
      have hlens : t.lengths t.dbr.idx.toNat = lens := by
        rw [hends.idx, ← htail, State.lengths, hends.dbr]
        rfl
      have hnp : t.dbr.nPfx = s.dbr.nPfx := by rw [hends.dbr]
      have htd : t.diu.dstate = .idle := by rw [hends.diu]; exact hd
      have tail : ∃ u, Reaches t u ∧ u.Inv ∧
          match decodeValues s.env.inst.dstCap lens value (s.regs.dstLen.toNat + value.length)
            (s.page.drop s.suffixLen.toNat) with
          | .error e => u.regs.status = .error e
          | .ok (vs, rest) => ValuesEnd t u vs rest := by
        rw [← hends.dstLen, ← hends.page]
        by_cases hlast : s.dbr.idx.toNat + 1 = s.dbr.nPfx.toNat
        · have htb : t.dbr.bstate = .done := by rw [hends.bstate, if_pos hlast]
          rw [lengths_of_le (by rw [hnp, hends.idx]; omega)] at hlens
          subst hlens
          exact ⟨t, Reaches.refl t, htI, hends.busy, htd, htb, rfl, Wrote.nil _ _ _, Wrote.nil _ _ _, rfl, rfl⟩
        · have htb : t.dbr.bstate = .val := by rw [hends.bstate, if_neg hlast]
          have := ih hlens htI hends.busy (hsame.host.trans hh) htd htb hends.rawLeft
          rwa [hends.prev, hsame.inst] at this
      obtain ⟨u, hu, huI, hum⟩ := tail
      refine ⟨u, hreach.trans hu, huI, ?_⟩
      cases hdec : decodeValues s.env.inst.dstCap lens value (s.regs.dstLen.toNat + value.length)
          (s.page.drop s.suffixLen.toNat) with
      | error e => rw [hdec] at hum; exact hum
      | ok r => rw [hdec] at hum; exact hends.values hum

end Sys2Proof.Machine

/-! ### DEC_BA as a whole -/

namespace Sys2Proof.Machine
open State

/-- Offset `i` is where the values before value `i` end (R50). -/
theorem getElem_offsetsFrom (start : Nat) (vs : List (List Byte)) (i : Nat) (h : i < (offsetsFrom start vs).length) :
    (offsetsFrom start vs)[i] = BitVec.ofNat 32 (start + arenaEnd vs i) := by
  induction vs generalizing start i with
  | nil => simp at h
  | cons v vs ih =>
    cases i with
    | zero => simp [offsetsFrom, arenaEnd]
    | succ i =>
      simp only [offsetsFrom, List.getElem_cons_succ]
      rw [ih]
      simp [arenaEnd, Nat.add_assoc]

theorem arenaEnd_le (vs : List (List Byte)) (i : Nat) : arenaEnd vs i ≤ vs.flatten.length := by
  unfold arenaEnd
  conv_rhs => rw [← List.take_append_drop i vs, List.flatten_append, List.length_append]
  exact Nat.le_add_right _ _

theorem arenaEnd_length (vs : List (List Byte)) : arenaEnd vs vs.length = vs.flatten.length := by
  rw [arenaEnd, List.take_length]

/-- An entry of a list that is read back from memory. -/
theorem read_of_readList {w : Nat} {sp : Space} {m : Memory w} {a : Nat} {vs : List (BitVec w)}
    (h : m.readList sp a vs.length = vs) {i : Nat} (hi : i < vs.length) : m.read sp (a + i) = vs[i] := by
  have hi' : i < (m.readList sp a vs.length).length := by simpa using hi
  rw [← Memory.getElem_readList sp m a vs.length i hi']
  simp only [h]

/-- DecodeByteArray after the two runs of lengths (R163, R167). -/
def arrayRest (p : Config.Instance) (ps qs : List DWord) (page : List Byte) : Except Err DecodedBa :=
  if ps.length ≠ qs.length then .error .lengthMismatch
  else
    (decodeValues p.dstCap ((ps.map fun v => v.setWidth 32).zip (qs.map fun v => v.setWidth 32)) [] 0 page).map fun r =>
      { prefixes := ps.map fun v => v.setWidth 32, suffixes := qs.map fun v => v.setWidth 32
        values := r.1, rest := r.2 }

/-- The two runs of lengths of DecodeByteArray, and the page after them (R161, R162). -/
def decodeLengths (p : Config.Instance) (page : List Byte) : Except Err (List DWord × List DWord × List Byte) :=
  (decodeIntPage p .w32 p.lenCap page).bind fun x =>
    (decodeIntPage p .w32 p.lenCap x.2).map fun y => (x.1, y.1, y.2)

/-- DecodeByteArray is two runs and the rest. -/
theorem decodeBaPage_eq (p : Config.Instance) (page : List Byte) :
    decodeBaPage p page = (decodeLengths p page).bind fun z => arrayRest p z.1 z.2.1 z.2.2 := by
  unfold decodeBaPage decodeLengths arrayRest
  simp only [bind, Except.bind, pure, Except.pure]
  cases decodeIntPage p .w32 p.lenCap page with
  | error e => rfl
  | ok x =>
    dsimp only
    cases decodeIntPage p .w32 p.lenCap x.2 with
    | error e => rfl
    | ok y => simp only [Except.map]

/-- What the two runs of lengths leave in B_CMP: the counts and the lengths (R161, R162), nothing yet in DST and OFS. -/
structure LengthsEnd (s t : State) (ps qs : List DWord) (rest : List Byte) : Prop where
  busy : t.isBusy
  dstate : t.diu.dstate = .idle
  bstate : t.dbr.bstate = .cmp
  page : t.page = rest
  nPfx : t.dbr.nPfx.toNat = ps.length
  nSfx : t.dbr.nSfx.toNat = qs.length
  pfx : t.dbr.pfx.readList .pfx 0 ps.length = ps.map fun v => v.setWidth 32
  sfx : t.dbr.sfx.readList .sfx 0 qs.length = qs.map fun v => v.setWidth 32
  dst : t.mem.dst = s.mem.dst
  ofs : t.mem.ofs = s.mem.ofs
  dstLen : t.regs.dstLen = s.regs.dstLen

/-- The run of the suffix lengths, from its start (R162). -/
theorem suffixRun_completes {s : State} (hI : (s.startRun .w32 .sfx).Inv) (hb : s.isBusy) (hh : s.env.host = [])
    (hbs : s.dbr.bstate = .sfx) :
    ∃ t, Reaches (s.startRun .w32 .sfx) t ∧
      match decodeIntPage s.env.inst .w32 s.env.inst.lenCap s.page with
      | .error e => t.regs.status = .error e
      | .ok (qs, rest) =>
        t.isBusy ∧ t.diu.dstate = .idle ∧ t.dbr.bstate = .cmp ∧ t.page = rest ∧ t.dbr.nPfx = s.dbr.nPfx ∧
          t.dbr.nSfx.toNat = qs.length ∧ t.dbr.pfx = s.dbr.pfx ∧
          t.dbr.sfx.readList .sfx 0 qs.length = (qs.map fun v => v.setWidth 32) ∧ t.mem.dst = s.mem.dst ∧
          t.mem.ofs = s.mem.ofs ∧ t.regs.dstLen = s.regs.dstLen := by
  obtain ⟨t, ht, _, htm⟩ := run_completes hI hb hh (by simp) (.inl rfl) fun _ => by simp [hbs]
  rw [promise_startRun (by exact hI.legal), show sinkCapOf s.env.inst .w32 .sfx = s.env.inst.lenCap from rfl] at htm
  cases hr : decodeIntPage s.env.inst .w32 s.env.inst.lenCap s.page with
  | error e =>
    rw [hr] at htm
    exact ⟨t, ht, htm⟩
  | ok r =>
    obtain ⟨qs, rest⟩ := r
    rw [hr] at htm
    obtain ⟨hd, hpage, hrun⟩ := htm
    have htb : t.isBusy := by rw [isBusy, hrun.regs]; exact hb
    have htbs : t.dbr.bstate = .sfx := by rw [hrun.dbr]; exact hbs
    obtain ⟨hsfx, hdst, hpfx⟩ : Wrote .sfx 0 (qs.map fun v => BitVec.setWidth 32 v) s.dbr.sfx t.dbr.sfx ∧
      t.mem.dst = s.mem.dst ∧ t.dbr.pfx = s.dbr.pfx := hrun.sink.sink
    have hem : t.diu.emitted.toNat = qs.length := by rw [hrun.sink.emitted]; simp
    have hth : t.env.host = [] := (SameInput.reaches (s := s.startRun .w32 .sfx) hh ht).host.trans hh
    obtain ⟨_, _, toCompare⟩ := unitStep_runDone htb hd
    refine ⟨_, ht.trans (Reaches.unit hth (toCompare htbs)), htb, rfl, rfl, hpage,
      by rw [endSuffixRun, hrun.dbr]; rfl, hem, hpfx, ?_, hdst, hrun.sink.ofs,
      by rw [endSuffixRun, hrun.regs]; rfl⟩
    have := hsfx.inside
    rwa [List.length_map] at this

/-- The two runs of lengths, from the start of DEC_BA (R161, R162). -/
theorem lengths_complete {s : State} (hI : (s.startRun .w32 .pfx).Inv) (hb : s.isBusy) (hh : s.env.host = [])
    (hbs : s.dbr.bstate = .pfx) (hg : s.env.grain ≠ .whole) :
    ∃ t, Reaches (s.startRun .w32 .pfx) t ∧
      match decodeLengths s.env.inst s.page with
      | .error e => t.regs.status = .error e
      | .ok (ps, qs, rest) => LengthsEnd (s.startRun .w32 .pfx) t ps qs rest := by
  unfold decodeLengths
  obtain ⟨t, ht, htI, htm⟩ := run_completes hI hb hh (by simp) (.inl rfl) fun h => absurd h hg
  have hsame : SameInput (s.startRun .w32 .pfx) t := SameInput.reaches hh ht
  rw [promise_startRun (by exact hI.legal), show sinkCapOf s.env.inst .w32 .pfx = s.env.inst.lenCap from rfl] at htm
  cases hr : decodeIntPage s.env.inst .w32 s.env.inst.lenCap s.page with
  | error e =>
    rw [hr] at htm
    exact ⟨t, ht, htm⟩
  | ok r =>
    obtain ⟨ps, rest⟩ := r
    rw [hr] at htm
    obtain ⟨hd, hpage, hrun⟩ := htm
    have htb : t.isBusy := by rw [isBusy, hrun.regs]; exact hb
    have htbs : t.dbr.bstate = .pfx := by rw [hrun.dbr]; exact hbs
    obtain ⟨hpfx, hdst, _⟩ : Wrote .pfx 0 (ps.map fun v => BitVec.setWidth 32 v) s.dbr.pfx t.dbr.pfx ∧
      t.mem.dst = s.mem.dst ∧ t.dbr.sfx = s.dbr.sfx := hrun.sink.sink
    have hem : t.diu.emitted.toNat = ps.length := by rw [hrun.sink.emitted]; simp
    have hth : t.env.host = [] := hsame.host.trans hh
    obtain ⟨_, toSuffixes, _⟩ := unitStep_runDone htb hd
    have hend := toSuffixes htbs
    obtain ⟨u, hu, hum⟩ := suffixRun_completes
      (s := { t with dbr.nPfx := t.diu.emitted, dbr.bstate := .sfx }) (inv_of_unitStep htI hend) htb hth rfl
    refine ⟨u, (ht.trans (Reaches.unit hth hend)).trans hu, ?_⟩
    simp only [Except.bind]
    have hinst : t.env.inst = s.env.inst := hsame.inst
    have hpage' : ({ t with dbr.nPfx := t.diu.emitted, dbr.bstate := .sfx } : State).page = rest := hpage
    rw [hpage'] at hum
    simp only [hinst] at hum
    cases hq : decodeIntPage s.env.inst .w32 s.env.inst.lenCap rest with
    | error e =>
      rw [hq] at hum
      exact hum
    | ok y =>
      rw [hq] at hum
      obtain ⟨h1, h2, h3, h4, h5, h6, h7, h8, h9, h10, h11⟩ := hum
      refine ⟨h1, h2, h3, h4, by rw [h5]; exact hem, h6, ?_, h8, h9.trans hdst, h10.trans hrun.sink.ofs, ?_⟩
      · have := hpfx.inside
        rw [List.length_map] at this
        rw [h7]
        exact this
      · rw [h11]
        exact (congrArg HostRegs.dstLen hrun.regs).trans rfl

/-- DEC_BA in B_DONE with the values `d` in place: back to back in DST, their starts in OFS, counted (R165, R167). -/
structure ArrayEnds (s u : State) (d : DecodedBa) : Prop where
  busy : u.isBusy
  dstate : u.diu.dstate = .idle
  bstate : u.dbr.bstate = .done
  dst : Wrote .dst 0 d.values.flatten s.mem.dst u.mem.dst
  ofs : Wrote .ofs 0 (offsetsFrom 0 d.values) s.mem.ofs u.mem.ofs
  dstLen : u.regs.dstLen.toNat = d.values.flatten.length
  nPfx : u.dbr.nPfx.toNat = d.values.length

/-- From B_CMP the DBR ends in what R163 and R167's loop give. -/
theorem array_completes {s t : State} {ps qs : List DWord} {page : List Byte} (hI : t.Inv) (hh : t.env.host = [])
    (h : LengthsEnd s t ps qs page) (hdl : s.regs.dstLen = 0) :
    ∃ u, Reaches t u ∧ u.Inv ∧
      match arrayRest t.env.inst ps qs page with
      | .error e => u.regs.status = .error e
      | .ok d => ArrayEnds s u d ∧ u.page = d.rest := by
  have hu := unitStep_cmp h.busy h.dstate h.bstate
  have huI := inv_of_unitStep hI hu
  have htu := Reaches.unit hh hu
  have hne : t.dbr.nPfx ≠ t.dbr.nSfx ↔ ps.length ≠ qs.length := by
    rw [← h.nPfx, ← h.nSfx, ne_eq, ne_eq, BitVec.toNat_inj]
  unfold arrayRest
  by_cases hlen : ps.length ≠ qs.length
  · refine ⟨_, htu, huI, ?_⟩
    rw [if_pos hlen, compareCounts, if_pos (hne.mpr hlen)]
    rfl
  rw [if_neg hlen]
  rw [compareCounts, if_neg fun hn => hlen (hne.mp hn)] at hu huI htu
  have hpq : ps.length = qs.length := by omega
  by_cases h0 : t.dbr.nPfx = 0
  · have hps : ps = [] := List.length_eq_zero_iff.mp (by rw [← h.nPfx, h0]; rfl)
    subst hps
    refine ⟨_, htu, huI, ⟨h.busy, h.dstate, if_pos h0, ?_, ?_, ?_, h.nPfx⟩, h.page⟩
    · show Wrote .dst 0 [] s.mem.dst t.mem.dst
      rw [h.dst]; exact Wrote.nil _ _ _
    · show Wrote .ofs 0 [] s.mem.ofs t.mem.ofs
      rw [h.ofs]; exact Wrote.nil _ _ _
    · show t.regs.dstLen.toNat = 0
      rw [h.dstLen, hdl]; rfl
  · rw [if_neg h0] at huI htu
    generalize hv : ({ t with
      dbr.idx := 0, dbr.prevOff := 0, dbr.prevLen := 0, dbr.bstate := .val } : State) = v at huI htu
    have hpage : v.page = page := by rw [← hv]; exact h.page
    have hdl0 : v.regs.dstLen.toNat = 0 := by rw [← hv]; exact congrArg BitVec.toNat (h.dstLen.trans hdl)
    have hidx : v.dbr.idx.toNat = 0 := by rw [← hv]; rfl
    have hprev : v.mem.dst.readList .dst v.dbr.prevOff.toNat v.dbr.prevLen.toNat = [] := by rw [← hv]; rfl
    have hlens : v.lengths v.dbr.idx.toNat =
        (ps.map fun v => (v.setWidth 32 : Word)).zip (qs.map fun v => v.setWidth 32) := by
      rw [hidx, ← hv]
      show (t.dbr.pfx.readList .pfx 0 t.dbr.nPfx.toNat).zip (t.dbr.sfx.readList .sfx 0 t.dbr.nPfx.toNat) = _
      rw [h.nPfx, h.pfx, hpq, h.sfx]
    have hleft : v.micro.rawLeft = 0 := by
      obtain ⟨_, _, hok⟩ := hI.running h.busy
      simp only [h.dstate, h.bstate] at hok
      obtain ⟨_, _, _, hleft⟩ := hok
      rw [← hv]
      exact hleft
    obtain ⟨u, hvu, huI, hum⟩ := values_complete hlens huI (by rw [← hv]; exact h.busy) (by rw [← hv]; exact hh)
      (by rw [← hv]; exact h.dstate) (by rw [← hv]) hleft
    refine ⟨u, htu.trans hvu, huI, ?_⟩
    have hdst : v.mem.dst = s.mem.dst := by rw [← hv]; exact h.dst
    have hofs : v.mem.ofs = s.mem.ofs := by rw [← hv]; exact h.ofs
    rw [hprev, hdl0, hpage, show v.env.inst = t.env.inst by rw [← hv]] at hum
    cases hdec : decodeValues t.env.inst.dstCap
        ((ps.map fun v => (v.setWidth 32 : Word)).zip (qs.map fun v => v.setWidth 32)) [] 0 page with
    | error e =>
      rw [hdec] at hum
      exact hum
    | ok r =>
      rw [hdec] at hum
      obtain ⟨hcount, _⟩ := decodeValues_ok (Nat.zero_le _) hdec
      refine ⟨⟨hum.busy, hum.dstate, hum.bstate, ?_, ?_, ?_, ?_⟩, hum.page⟩
      · have := hum.dst
        rwa [hdl0, hdst] at this
      · have := hum.ofs
        rwa [hdl0, hidx, hofs] at this
      · have := hum.dstLen
        rwa [hdl0, Nat.zero_add] at this
      · rw [hum.nPfx, show v.dbr.nPfx = t.dbr.nPfx by rw [← hv], h.nPfx]
        simp only [List.length_zip, List.length_map] at hcount
        show ps.length = r.1.length
        omega

/-- The closing of the offsets and the end of DEC_BA (R166, R94), the values in DST and their starts in OFS. -/
theorem strings_end {s t : State} {d : DecodedBa} (h : ArrayEnds s t d) (hsrc : t.mem.src = s.mem.src)
    (hlen : t.regs.srcLen = s.regs.srcLen)
    (hcur : t.regs.srcCur.toNat = s.regs.srcCur.toNat + (s.page.length - d.rest.length)) :
    EndsInStrings s t.offsetsClosed d.values d.rest := by
  have hofs : t.offsetsClosed.mem.ofs = t.mem.ofs.write d.values.length t.regs.dstLen := by rw [← h.nPfx]; rfl
  refine ⟨rfl, hlen, hcur, h.nPfx, h.dstLen, h.dst.inside, fun a ha => h.dst.outside a (.inr (by omega)),
    fun i hi => ?_, fun i hi => ?_, hsrc⟩
  · rw [hofs]
    by_cases hl : i = d.values.length
    · rw [hl, Memory.read_write_self, h.dstLen, arenaEnd_length]
    · have hi' : i < (offsetsFrom 0 d.values).length := by rw [length_offsetsFrom]; omega
      have hle := arenaEnd_le d.values i
      have hlt := t.regs.dstLen.isLt
      rw [h.dstLen] at hlt
      rw [Memory.read_write_ne _ _ hl, ← Nat.zero_add i, read_of_readList h.ofs.inside hi', getElem_offsetsFrom,
        BitVec.toNat_ofNat, Nat.zero_add, Nat.zero_add]
      omega
  · rw [hofs, Memory.read_write_ne _ _ (by omega)]
    exact h.ofs.outside i (.inr (by rw [length_offsetsFrom]; omega))

/-- DEC_BA at the whole grain, up to B_DONE (R167). -/
theorem arrayPage_completes {s : State} (h : s.MayIssue) (hg : s.env.grain = .whole) :
    ∃ u, Reaches (s.issued .pfx .w32 .pfx) u ∧
      match decodeBaPage s.env.inst s.page with
      | .error e => u.regs.status = .error e
      | .ok d =>
        ArrayEnds s u d ∧ u.regs.srcCur.toNat = s.regs.srcCur.toNat + (s.page.length - d.rest.length) := by
  have hu := unitStep_pageBa (s := s.issued .pfx .w32 .pfx) rfl rfl hg rfl
  rw [show (s.issued .pfx .w32 .pfx).page = s.page from rfl,
    show (s.issued .pfx .w32 .pfx).env.inst = s.env.inst from rfl] at hu
  cases hdec : decodeBaPage s.env.inst s.page with
  | error e =>
    rw [hdec] at hu
    exact ⟨_, Reaches.unit rfl hu, rfl⟩
  | ok d =>
    rw [hdec] at hu
    obtain ⟨hn, _, _, hdst, _⟩ := decodeBaPage_ok hdec
    have hdc := dstCap_lt h.inv.legal
    have hlc := lenCap_lt h.inv.legal
    refine ⟨_, Reaches.unit rfl hu, ⟨rfl, rfl, rfl, wrote_writeList _ _ _ _, wrote_writeList _ _ _ _, ?_, ?_⟩,
      cursor_toNat (s := s) (Nat.sub_le _ _)⟩
    · exact (BitVec.toNat_ofNat ..).trans (Nat.mod_eq_of_lt (by omega))
    · exact (BitVec.toNat_ofNat ..).trans (Nat.mod_eq_of_lt (by omega))

/-- DEC_BA at the grains that step, up to B_DONE (R160 to R165). -/
theorem arraySteps_complete {s : State} (h : s.MayIssue) (hg : s.env.grain ≠ .whole) :
    ∃ u, Reaches (s.issued .pfx .w32 .pfx) u ∧
      match decodeBaPage s.env.inst s.page with
      | .error e => u.regs.status = .error e
      | .ok d =>
        ArrayEnds s u d ∧ u.regs.srcCur.toNat = s.regs.srcCur.toNat + (s.page.length - d.rest.length) := by
  have hI := issued_inv h (b := .pfx) (w := .w32) (k := .pfx) (.inr ⟨rfl, rfl, rfl⟩)
  obtain ⟨t, ht, htm⟩ : ∃ t, Reaches (s.issued .pfx .w32 .pfx) t ∧
      match decodeLengths s.env.inst s.page with
      | .error e => t.regs.status = .error e
      | .ok (ps, qs, rest) => LengthsEnd (s.issued .pfx .w32 .pfx) t ps qs rest :=
    lengths_complete hI rfl rfl rfl hg
  have hsame := SameInput.reaches rfl ht
  rw [decodeBaPage_eq]
  cases hlens : decodeLengths s.env.inst s.page with
  | error e =>
    rw [hlens] at htm
    exact ⟨t, ht, htm⟩
  | ok z =>
    obtain ⟨ps, qs, rest⟩ := z
    rw [hlens] at htm
    obtain ⟨u, hu, huI, hum⟩ := array_completes (inv_of_reaches hI rfl ht) hsame.host htm rfl
    have hreach := ht.trans hu
    refine ⟨u, hreach, ?_⟩
    rw [hsame.inst] at hum
    simp only [Except.bind]
    cases hdec : arrayRest s.env.inst ps qs rest with
    | error e =>
      rw [show (s.issued .pfx .w32 .pfx).env.inst = s.env.inst from rfl, hdec] at hum
      exact hum
    | ok d =>
      rw [show (s.issued .pfx .w32 .pfx).env.inst = s.env.inst from rfl, hdec] at hum
      obtain ⟨harr, hpage⟩ := hum
      have hba : decodeBaPage s.env.inst s.page = .ok d := by rw [decodeBaPage_eq, hlens]; exact hdec
      obtain ⟨_, _, _, _, hrest⟩ := decodeBaPage_ok hba
      obtain ⟨_, _, hok⟩ := huI.running harr.busy
      simp only [harr.dstate, harr.bstate] at hok
      obtain ⟨_, hcur, _⟩ := hok
      have := srcCur_of_page (s := s) (SameInput.reaches rfl hreach).srcLen hcur (by rw [hpage]; exact hrest)
      rw [hpage] at this
      exact ⟨⟨harr.busy, harr.dstate, harr.bstate, harr.dst, harr.ofs, harr.dstLen, harr.nPfx⟩, this⟩

/-- DEC_BA ends in what DecodeByteArray of the page gives, whatever the grain. -/
theorem ba_command_ends {s : State} (h : s.MayIssue) : ∃ t, Ends 3 s t ∧ StringsEnd s t := by
  obtain ⟨_, hstart⟩ := step_issue h
  have hI := issued_inv h (b := .pfx) (w := .w32) (k := .pfx) (.inr ⟨rfl, rfl, rfl⟩)
  obtain ⟨u, hu, hum⟩ : ∃ u, Reaches (s.issued .pfx .w32 .pfx) u ∧
      match decodeBaPage s.env.inst s.page with
      | .error e => u.regs.status = .error e
      | .ok d =>
        ArrayEnds s u d ∧ u.regs.srcCur.toNat = s.regs.srcCur.toNat + (s.page.length - d.rest.length) := by
    by_cases hg : s.env.grain = .whole
    · exact arrayPage_completes h hg
    · exact arraySteps_complete h hg
  have hsame := SameInput.reaches rfl hu
  unfold StringsEnd
  cases hdec : decodeBaPage s.env.inst s.page with
  | error e =>
    rw [hdec] at hum
    exact ⟨u, ends_of_reaches hstart hu (State.Ended.ready (.inr ⟨e, hum⟩)),
      endsInError_of_sameInput hsame rfl rfl hum⟩
  | ok d =>
    rw [hdec] at hum
    obtain ⟨harr, hcur⟩ := hum
    have hclose := unitStep_close (inv_of_reaches hI rfl hu) harr.busy harr.dstate harr.bstate
    exact ⟨_, ends_of_reaches hstart (hu.trans (Reaches.unit hsame.host hclose)) (State.Ended.ready (.inl rfl)),
      strings_end harr hsame.src hsame.srcLen hcur⟩

/-- Settles O56, from the end of DEC_BA at every grain. -/
theorem ruleGrainStrings : Obligations.RuleGrainStrings := by
  unfold Obligations.RuleGrainStrings
  exact fun s h _ => ba_command_ends h

/-- Settles O57, from the end of DEC_BA at every grain. -/
theorem cutGrainStrings : Obligations.CutGrainStrings := by
  unfold Obligations.CutGrainStrings
  exact fun s h _ => ba_command_ends h

/-- Settles O53, from the ends of the three commands at every grain. -/
theorem wholeGrainCommands : Obligations.WholeGrainCommands := by
  unfold Obligations.WholeGrainCommands
  exact fun s h _ => ⟨fun w => int_command_ends h w, ba_command_ends h⟩

/-! ### The result depends on the page only (O58) -/

/-- A unit that is left alone and is not BUSY stays as it is (R97). -/
theorem runSteps_of_ready {s : State} (hh : s.env.host = []) (hr : s.Ready) (n : Nat) : runSteps n s = some s := by
  induction n with
  | zero => rfl
  | succ n ih => rw [runSteps, step_of_no_host hh, unitStep_ready hr]; exact ih

/-- A command has one end. -/
theorem Ends.unique {w : Word} {s t t' : State} (h : Ends w s t) (h' : Ends w s t') : t = t' := by
  obtain ⟨m, hm, hr⟩ := h
  obtain ⟨n, hn, hr'⟩ := h'
  rw [runSteps, step_writeCmd] at hm hn
  cases hu : exec (decodeCommand w) { s with env.host := [] } with
  | fault r => rw [hu] at hm; cases hm
  | refused r => rw [hu] at hm; cases hm
  | next u =>
    rw [hu] at hm hn
    have hh : u.env.host = [] := (SameInput.exec hu).host
    -- the longer of the two runs only waits at the end of the shorter
    have wait : ∀ {a b : Nat} {x y : State}, a ≤ b → runSteps a u = some x → runSteps b u = some y → x.Ready →
        x = y := by
      intro a b x y hab hx hy hrx
      have hxh : x.env.host = [] := (SameInput.reaches hh ⟨a, hx⟩).host.trans hh
      rw [← Nat.add_sub_cancel' hab, runSteps_add, hx, Option.bind_some, runSteps_of_ready hxh hrx] at hy
      exact Option.some.inj hy
    rcases Nat.le_total m n with hle | hle
    · exact wait hle hm hn hr
    · exact (wait hle hn hm hr').symm

/-- Two memories that hold the same list hold the same entries. -/
theorem read_eq_of_readList_eq {w : Nat} {sp : Space} {m m' : Memory w} {n : Nat}
    (h : m.readList sp 0 n = m'.readList sp 0 n) {a : Nat} (ha : a < n) : m.read sp a = m'.read sp a := by
  have h1 := Memory.getElem_readList sp m 0 n a (by simpa using ha)
  have h2 := Memory.getElem_readList sp m' 0 n a (by simpa using ha)
  rw [Nat.zero_add] at h1 h2
  rw [← h1, ← h2]
  simp only [h]

/-- What R27 says two ends of the same decode command agree in, `s` and `s'` being the states it was issued in. -/
structure SameResult (strings : Prop) (s s' t t' : State) : Prop where
  outCount : t.regs.outCount = t'.regs.outCount
  dstLen : t.regs.dstLen = t'.regs.dstLen
  consumed : t.regs.srcCur.toNat - s.regs.srcCur.toNat = t'.regs.srcCur.toNat - s'.regs.srcCur.toNat
  dst : ∀ a, a < t.regs.dstLen.toNat → t.mem.dst.read .dst a = t'.mem.dst.read .dst a
  ofs : strings → ∀ i, i ≤ t.regs.outCount.toNat → t.mem.ofs.read .ofs i = t'.mem.ofs.read .ofs i

theorem sameResult_of_ints {s s' t t' : State} {w : Width} (hi : s.env.inst = s'.env.inst) (hp : s.page = s'.page)
    (h : IntEnds w s t) (h' : IntEnds w s' t') :
    t.regs.status = t'.regs.status ∧ (t.regs.status = .done → SameResult False s s' t t') := by
  unfold IntEnds at h h'
  rw [← hi, ← hp] at h'
  cases hr : decodeIntPage s.env.inst w (sinkCapOf s.env.inst w .dst) s.page with
  | error e =>
    rw [hr] at h h'
    exact ⟨h.status.trans h'.status.symm, fun hd => by rw [h.status] at hd; cases hd⟩
  | ok r =>
    rw [hr] at h h'
    refine ⟨h.status.trans h'.status.symm, fun _ => ⟨BitVec.eq_of_toNat_eq (h.outCount.trans h'.outCount.symm),
      BitVec.eq_of_toNat_eq (h.dstLen.trans h'.dstLen.symm), ?_, fun a ha => ?_, False.elim⟩⟩
    · rw [h.srcCur, h'.srcCur, ← hp]
      omega
    · rw [h.dstLen] at ha
      exact read_eq_of_readList_eq (h.values.trans h'.values.symm) ha

theorem sameResult_of_strings {s s' t t' : State} (hi : s.env.inst = s'.env.inst) (hp : s.page = s'.page)
    (h : StringsEnd s t) (h' : StringsEnd s' t') :
    t.regs.status = t'.regs.status ∧ (t.regs.status = .done → SameResult True s s' t t') := by
  unfold StringsEnd at h h'
  rw [← hi, ← hp] at h'
  cases hr : decodeBaPage s.env.inst s.page with
  | error e =>
    rw [hr] at h h'
    exact ⟨h.status.trans h'.status.symm, fun hd => by rw [h.status] at hd; cases hd⟩
  | ok d =>
    rw [hr] at h h'
    refine ⟨h.status.trans h'.status.symm, fun _ => ⟨BitVec.eq_of_toNat_eq (h.outCount.trans h'.outCount.symm),
      BitVec.eq_of_toNat_eq (h.dstLen.trans h'.dstLen.symm), ?_, fun a ha => ?_, fun _ i hi => ?_⟩⟩
    · rw [h.srcCur, h'.srcCur, ← hp]
      omega
    · rw [h.dstLen] at ha
      exact read_eq_of_readList_eq (h.values.trans h'.values.symm) ha
    · rw [h.outCount] at hi
      exact BitVec.eq_of_toNat_eq ((h.offsets i hi).trans (h'.offsets i hi).symm)

/-- Settles O58: each command ends once, and in a function of the page. -/
theorem resultDependsOnPage : Obligations.ResultDependsOnPage := by
  unfold Obligations.ResultDependsOnPage
  intro s s' t t' w hs hs' hi hp hw ht ht'
  have ints : ∀ v, Ends (intCommand v) s t → Ends (intCommand v) s' t' →
      t.regs.status = t'.regs.status ∧ (t.regs.status = .done → SameResult False s s' t t') := by
    intro v h h'
    obtain ⟨u, hu, hend⟩ := int_command_ends hs v
    obtain ⟨u', hu', hend'⟩ := int_command_ends hs' v
    rw [Ends.unique h hu, Ends.unique h' hu']
    exact sameResult_of_ints hi hp hend hend'
  -- the statement's conjunction, from the structure
  have spread : ∀ {P : Prop}, (w = 3 → P) → (t.regs.status = .done → SameResult P s s' t t') →
      t.regs.status = .done → t.regs.outCount = t'.regs.outCount ∧ t.regs.dstLen = t'.regs.dstLen ∧
        t.regs.srcCur.toNat - s.regs.srcCur.toNat = t'.regs.srcCur.toNat - s'.regs.srcCur.toNat ∧
        (∀ a, a < t.regs.dstLen.toNat → t.mem.dst.read .dst a = t'.mem.dst.read .dst a) ∧
        (w = 3 → ∀ i, i ≤ t.regs.outCount.toNat → t.mem.ofs.read .ofs i = t'.mem.ofs.read .ofs i) := by
    intro P hP h hd
    obtain ⟨h1, h2, h3, h4, h5⟩ := h hd
    exact ⟨h1, h2, h3, h4, fun hw => h5 (hP hw)⟩
  rcases hw with rfl | rfl | rfl
  · obtain ⟨h1, h2⟩ := ints .w32 ht ht'
    exact ⟨h1, spread (by decide) h2⟩
  · obtain ⟨h1, h2⟩ := ints .w64 ht ht'
    exact ⟨h1, spread (by decide) h2⟩
  · obtain ⟨u, hu, hend⟩ := ba_command_ends hs
    obtain ⟨u', hu', hend'⟩ := ba_command_ends hs'
    obtain rfl := Ends.unique ht hu
    obtain rfl := Ends.unique ht' hu'
    obtain ⟨h1, h2⟩ := sameResult_of_strings hi hp hend hend'
    exact ⟨h1, spread (fun _ => trivial) h2⟩

end Sys2Proof.Machine

/-! ### The invariant at reset and through every step (O46, O47) -/

namespace Sys2Proof.Machine
open State

/-- A unit with legal parameters that has just been reset is of the invariant, whatever the generation of its memories
and the host's side (R26, R220). -/
theorem reset_parts_inv (gen : Nat) {env : Env} (hl : env.inst.Legal) :
    ({ regs := HostRegs.reset, diu := Diu.reset gen, dbr := Dbr.reset gen, mem := Spaces.reset gen
       micro := Micro.reset, env := env } : State).Inv :=
  ⟨hl, ⟨rfl, rfl, rfl, rfl, rfl, rfl⟩, fun _ => ⟨rfl, rfl⟩, fun h => by cases h⟩

/-- Settles O46: every part of the state is a reset part, and the reference parameters are legal. -/
theorem resetMeetsInv : Obligations.ResetMeetsInv := by
  unfold Obligations.ResetMeetsInv
  exact reset_parts_inv 0 (by decide)

/-- Of the model's own environment only the parameters are in the invariant: not the host's list, the grain, the last
read value or the counter of free values. -/
theorem inv_of_env {s : State} (hI : s.Inv) {env : Env} (hi : env.inst = s.env.inst) :
    ({ s with env := env } : State).Inv := by
  obtain ⟨hl, ⟨hsrc, hdst, hofs, hpfx, hsfx, hwid⟩, hq, hrun⟩ := hI
  rw [← hi] at hl hsrc hdst hofs hpfx hsfx hwid
  exact ⟨hl, ⟨hsrc, hdst, hofs, hpfx, hsfx, hwid⟩, hq, fun hb => busyOk_congr (s := s) rfl rfl rfl rfl hi (hrun hb)⟩

/-- A word written to CMD selects one of the four commands or is illegal (R62, R63). -/
theorem decodeCommand_cases (w : Word) :
    decodeCommand w = .clr ∨ decodeCommand w = .decI32 ∨ decodeCommand w = .decI64 ∨ decodeCommand w = .decBa ∨
      decodeCommand w = .illegal w := by
  unfold decodeCommand
  split
  · simp
  split
  · simp
  split
  · simp
  split <;> simp

/-- From a state of the invariant every command word has an effect, and a state of the invariant is left (R61 to R63,
R90 to R96). -/
theorem exec_command_inv {s : State} (hI : s.Inv) (w : Word) : ∃ t, exec (decodeCommand w) s = .next t ∧ t.Inv := by
  -- CLR and an illegal word only set STATE, and only while not BUSY
  have setStatus : ∀ st : Status, st ≠ .busy → s.Ready → ({ s with regs.status := st } : State).Inv := by
    intro st hst hr
    exact quiet_inv hI hr hst rfl rfl rfl (mem_of hI.memories rfl rfl rfl rfl)
  rcases decodeCommand_cases w with h | h | h | h | h <;> rw [h]
  · by_cases hb : s.isBusy
    · exact ⟨s, if_pos hb, hI⟩
    · exact ⟨_, if_neg hb, setStatus _ (by simp) hb⟩
  · exact issue_inv hI fun t hl hm hb h1 h2 => startRun_inv (b := .idle) hl hm hb h1 h2 (.inl ⟨rfl, rfl⟩)
  · exact issue_inv hI fun t hl hm hb h1 h2 => startRun_inv (b := .idle) hl hm hb h1 h2 (.inl ⟨rfl, rfl⟩)
  · exact issue_inv hI fun t hl hm hb h1 h2 => startRun_inv (b := .pfx) hl hm hb h1 h2 (.inr ⟨rfl, rfl, rfl⟩)
  · by_cases hb : s.isBusy
    · exact ⟨s, if_pos hb, hI⟩
    · exact ⟨_, if_neg hb, setStatus _ (by simp) hb⟩

/-- What a command word leaves in a state of the invariant is of the invariant. -/
theorem inv_of_exec_command {s t : State} {w : Word} (hI : s.Inv) (h : exec (decodeCommand w) s = .next t) : t.Inv := by
  obtain ⟨u, hu, huI⟩ := exec_command_inv hI w
  rw [hu] at h
  cases h
  exact huI

/-- A host access to a memory is answered only while not BUSY and inside the space (R224, R40). -/
theorem hostMemory_next {sp : Space} {cap : Nat} {a : Word} {s t u : State} (h : hostMemory sp cap a s t = .next u) :
    s.Ready ∧ a.toNat < cap ∧ u = t := by
  unfold hostMemory at h
  split at h
  · cases h
  · split at h
    · next hr ha =>
      cases h
      exact ⟨hr, ha, rfl⟩
    · cases h

/-- A host write of SRC_LEN or SRC_CUR keeps the invariant: the cursor has a bound only while BUSY (R13, R14). -/
theorem writePort_inv {s : State} (hI : s.Inv) (off value : Word) : (s.writePort off value).Inv := by
  unfold writePort
  split
  · exact hI
  next hr =>
  split
  · exact quiet_inv hI hr hr rfl rfl rfl (mem_of hI.memories rfl rfl rfl rfl)
  · split
    · exact quiet_inv hI hr hr rfl rfl rfl (mem_of hI.memories rfl rfl rfl rfl)
    · exact hI

/-- Every action of the host that is answered keeps the invariant. -/
theorem inv_of_hostStep {s t : State} {op : HostOp} (hI : s.Inv) (h : hostStep op s = .next t) : t.Inv := by
  cases op with
  | tick => exact inv_of_unitStep hI h
  | writeReg off value =>
    simp only [hostStep] at h
    split at h
    · exact inv_of_exec_command hI h
    · cases h
      exact writePort_inv hI off value
  | readReg off =>
    cases h
    exact inv_of_env hI rfl
  | writeSrc a b =>
    obtain ⟨hr, ha, rfl⟩ := hostMemory_next h
    obtain ⟨hsrc, hdst, hofs, hpfx, hsfx, hwid⟩ := hI.memories
    exact quiet_inv hI hr hr rfl rfl rfl ⟨Memory.wf_write hsrc ha b, hdst, hofs, hpfx, hsfx, hwid⟩
  | readSrc a =>
    obtain ⟨_, _, rfl⟩ := hostMemory_next h
    exact inv_of_env hI rfl
  | readDst a =>
    obtain ⟨_, _, rfl⟩ := hostMemory_next h
    exact inv_of_env hI rfl
  | readOfs i =>
    obtain ⟨_, _, rfl⟩ := hostMemory_next h
    exact inv_of_env hI rfl
  | rst =>
    cases h
    exact reset_parts_inv (s.env.free + 1) hI.legal

/-- Settles O47: a step is the unit's or the host's oldest action, and each keeps the invariant. -/
theorem stepKeepsInv : Obligations.StepKeepsInv := by
  unfold Obligations.StepKeepsInv
  intro s t hI h
  cases hh : s.env.host with
  | nil => exact inv_of_unitStep hI ((step_of_no_host hh).symm.trans h)
  | cons op rest => exact inv_of_hostStep (pop_inv hI) ((step_of_host hh).symm.trans h)

end Sys2Proof.Machine

/-! ### How far an element moves the cursor (O35, O50) -/

namespace Sys2Proof.Machine
open State

/-- `t` has SRC_CUR of `s` moved by `n`, and STATE as it was (R28). -/
structure CursorMoved (s t : State) (n : Nat) : Prop where
  srcCur : t.regs.srcCur = s.regs.srcCur + BitVec.ofNat 32 n
  status : t.regs.status = s.regs.status

/-- From `s` to `t` the element `i` moves the cursor by the bytes it takes, a page by at most those. -/
def ElementMoves (i : Instr) (s t : State) : Prop :=
  ∃ n, n ≤ i.taken ∧ CursorMoved s t n ∧ ((∀ p, i ≠ .pageInt p) → (∀ p, i ≠ .pageBa p) → n = i.taken)

theorem elementMoves_of_moved {i : Instr} {s t : State} (h : CursorMoved s t i.taken) : ElementMoves i s t :=
  ⟨i.taken, le_rfl, h, fun _ _ => rfl⟩

/-- An element after whose bytes no other host register is written. -/
theorem elementMoves_of_regs {i : Instr} {s t : State} (h : t.regs = (s.advance i.taken).regs) : ElementMoves i s t :=
  elementMoves_of_moved ⟨by rw [h, advance_srcCur], by rw [h, advance_status]⟩

theorem emitAll_regs {vs : List DWord} {s t : State} (h : s.emitAll vs = some t) : t.regs = s.regs := by
  rw [(emitAll_some h).1]

/-- R132 and R133 change no host register unless they raise. -/
theorem finishHeader_regs {f : DWord} {s t : State} (h : finishHeader f s = .next t)
    (hne : ∀ e, t.regs.status ≠ .error e) : t.regs = s.regs := by
  rcases finishHeader_cases f s with ⟨e, _, h'⟩ | ⟨_, _, h'⟩ | ⟨_, _, h'⟩ <;> rw [h'] at h
  · cases h
    exact absurd rfl (hne e)
  · cases h
    rfl
  · obtain ⟨u, hu, hk⟩ := orOutside_next h
    cases hk
    rw [(emit_some hu).1]

/-- A completed varint field changes no host register unless it raises (R131, R134). -/
theorem takeField_regs {v : DWord} {s t : State} (h : takeField v s = .next t)
    (hne : ∀ e, t.regs.status ≠ .error e) : t.regs = s.regs := by
  rcases takeField_cases v s with ⟨_, _, h'⟩ | ⟨_, _, h'⟩ | ⟨_, _, h'⟩ | ⟨_, _, h'⟩ | ⟨_, h'⟩ | ⟨_, _, h'⟩ <;>
    rw [h'] at h
  · cases h; rfl
  · cases h; rfl
  · cases h; rfl
  · exact finishHeader_regs h hne
  · cases h; rfl
  · cases h

/-- An element that runs without an error moves the cursor by its bytes and leaves STATE alone (R28). -/
theorem exec_elementMoves {s t : State} {i : Instr} {bs : List Byte} (hi : encode i = .bytes bs)
    (h : exec i s = .next t) (hne : ∀ e, t.regs.status ≠ .error e) : ElementMoves i s t := by
  cases i with
  | clr => cases hi
  | decI32 => cases hi
  | decI64 => cases hi
  | decBa => cases hi
  | illegal w => cases hi
  | varintCont g =>
    obtain ⟨_, h⟩ := inPlace_next h
    cases h
    exact elementMoves_of_regs rfl
  | varintLast g => exact elementMoves_of_regs ((takeField_regs (inPlace_next h).2 hne).trans (clearVarint_regs _))
  | varintLast10 g => exact elementMoves_of_regs ((takeField_regs (inPlace_next h).2 hne).trans (clearVarint_regs _))
  | uvarint v => exact elementMoves_of_regs (takeField_regs (inPlace_next h).2 hne)
  | zzvarint v => exact elementMoves_of_regs (takeField_regs (inPlace_next h).2 hne)
  | blkMin v => exact elementMoves_of_regs (takeField_regs (inPlace_next h).2 hne)
  | hdr b m t f => exact elementMoves_of_regs ((finishHeader_regs (inPlace_next h).2 hne).trans rfl)
  | blkWidth w =>
    have h := (inPlace_next h).2
    dsimp only at h
    repeat' split at h
    · cases h; exact elementMoves_of_regs rfl
    · cases h; exact elementMoves_of_regs rfl
    · cases h
  | mb payload =>
    have h := (inPlace_next h).2
    dsimp only at h
    repeat' split at h
    · cases h; exact absurd rfl (hne _)
    · cases h; exact absurd rfl (hne _)
    · cases h
    · next hlen =>
      obtain ⟨u, hu, hk⟩ := orOutside_next h
      cases hk
      refine elementMoves_of_regs ?_
      rw [Instr.taken, not_not.mp hlen]
      simp only [advance, emitAll_regs hu]
  | raw b =>
    obtain ⟨u, hu, hk⟩ := orOutside_next (inPlace_next h).2
    cases hk
    obtain ⟨_, rfl⟩ := storeDst_some hu
    exact elementMoves_of_moved ⟨by rw [nextValue_regs]; rfl, by rw [nextValue_regs]; rfl⟩
  | pageInt page =>
    have h := (inPlace_next h).2
    split at h
    · cases h; exact absurd rfl (hne _)
    · next vs rest _ =>
      obtain ⟨u, hu, hk⟩ := orOutside_next h
      cases hk
      refine ⟨page.length - rest.length, Nat.sub_le _ _, ⟨?_, ?_⟩, fun hp => absurd rfl (hp page)⟩
      · simp only [advance, emitAll_regs hu]
      · simp only [advance, emitAll_regs hu]
  | pageBa page =>
    have h := (inPlace_next h).2
    split at h
    · cases h; exact absurd rfl (hne _)
    · next d _ =>
      dsimp only at h
      split at h
      · cases h
      · obtain ⟨u, hu, hk⟩ := orOutside_next h
        cases hk
        obtain ⟨_, rfl⟩ := storeDst_some hu
        exact ⟨page.length - d.rest.length, Nat.sub_le _ _, ⟨rfl, rfl⟩, fun _ hp => absurd rfl (hp page)⟩

/-- The length of an element's encoding is the bytes it takes (R65 to R71). -/
theorem length_of_encode {i : Instr} {bs : List Byte} (h : encode i = .bytes bs) : bs.length = i.taken := by
  have size : Laws.Size.Statement i := by
    cases i with
    | clr => exact Laws.Size.clr
    | decI32 => exact Laws.Size.decI32
    | decI64 => exact Laws.Size.decI64
    | decBa => exact Laws.Size.decBa
    | illegal w => exact Laws.Size.illegal w
    | varintCont g => exact Laws.Size.varintCont g
    | varintLast g => exact Laws.Size.varintLast g
    | varintLast10 g => exact Laws.Size.varintLast10 g
    | uvarint v => exact Laws.Size.uvarint v
    | zzvarint v => exact Laws.Size.zzvarint v
    | hdr b m t f => exact Laws.Size.hdr b m t f
    | blkMin v => exact Laws.Size.blkMin v
    | blkWidth w => exact Laws.Size.blkWidth w
    | mb payload => exact Laws.Size.mb payload
    | raw b => exact Laws.Size.raw b
    | pageInt page => exact Laws.Size.pageInt page
    | pageBa page => exact Laws.Size.pageBa page
  rw [Laws.Size.Statement, h] at size
  exact size

/-- Settles O35, from how far each element moves the cursor. -/
theorem cursorCountsBytes : Obligations.CursorCountsBytes := by
  unfold Obligations.CursorCountsBytes
  intro s t i bs hi h hne
  rw [length_of_encode hi]
  obtain ⟨n, hn, hm, hall⟩ := exec_elementMoves hi h hne
  exact ⟨n, hn, hm.srcCur, hall⟩

/-- What stands at a position is encoded in bytes: a command stands at none (R60, R61). -/
theorem encode_of_fits {i : Instr} {p : Pos} (h : i.fits p = true) : ∃ bs, encode i = .bytes bs := by
  cases i with
  | clr => cases h
  | decI32 => cases h
  | decI64 => cases h
  | decBa => cases h
  | illegal w => cases h
  | _ => exact ⟨_, rfl⟩

/-- Where the unit reads no element: a run is over, or the DBR works on its own with no suffix byte left to copy. -/
theorem position_none {s : State} (hb : s.isBusy) (h : s.position = none) :
    s.diu.dstate = .done ∨ s.diu.dstate = .idle ∧ (s.dbr.bstate = .val → s.micro.rawLeft = 0) := by
  have hb' : s.regs.status = .busy := hb
  unfold position at h
  rw [hb'] at h
  cases hd : s.diu.dstate <;> simp only [hd] at h
  case hdr =>
    repeat' split at h
    all_goals cases h
  case blk => split at h <;> cases h
  case wid => cases h
  case pay => cases h
  case done => exact .inl rfl
  case idle =>
    refine .inr ⟨rfl, fun hv => ?_⟩
    split at h
    · cases h
    · next hn => exact not_not.mp fun hr => hn ⟨hv, hr⟩

/-- A rule that reads no element starts with the cursor inside the page and moves it, unless it raises, past a suffix
that is in the page, or not at all (R138, R163 to R166). -/
theorem noElement_cursor {s t : State} (hI : s.Inv) (hb : s.isBusy) (hp : s.position = none)
    (h : unitStep s = .next t) (hne : ∀ e, t.regs.status ≠ .error e) :
    s.regs.srcCur.toNat ≤ t.regs.srcCur.toNat ∧ t.regs.srcCur.toNat ≤ s.regs.srcLen.toNat := by
  have stays : s.CursorOk → t.regs.srcCur = s.regs.srcCur →
      s.regs.srcCur.toNat ≤ t.regs.srcCur.toNat ∧ t.regs.srcCur.toNat ≤ s.regs.srcLen.toNat := by
    intro hc ht
    rw [ht]
    exact ⟨le_rfl, hc⟩
  obtain ⟨_, _, hok⟩ := hI.running hb
  rcases position_none hb hp with hd | ⟨hd, hraw⟩ <;> simp only [hd] at hok
  · obtain ⟨⟨_, hk⟩, _, hcur, _⟩ := hok
    obtain ⟨toHost, toSuffixes, toCompare⟩ := unitStep_runDone hb hd
    cases hbs : s.dbr.bstate <;> simp only [hbs] at hk
    case idle => rw [toHost hbs] at h; cases h; exact stays hcur rfl
    case pfx => rw [toSuffixes hbs] at h; cases h; exact stays hcur rfl
    case sfx => rw [toCompare hbs] at h; cases h; exact stays hcur rfl
  · cases hbs : s.dbr.bstate <;> simp only [hbs] at hok
    case cmp =>
      obtain ⟨_, hcur, _⟩ := hok
      rw [unitStep_cmp hb hd hbs] at h
      cases h
      unfold compareCounts at hne ⊢
      split at hne
      · exact absurd rfl (hne _)
      · next heq => rw [if_neg heq]; exact ⟨le_rfl, hcur⟩
    case val =>
      have hr := hraw hbs
      have hsuf := hok.suffix
      have hcur : s.CursorOk := by rw [CursorOk]; omega
      rcases unitStep_value hI hb hd hbs hr with ⟨e, _, hu⟩ | ⟨hc, hu | hu⟩ <;> rw [hu] at h <;> cases h
      · exact absurd rfl (hne e)
      · exact stays hcur (by rw [nextValue_regs]; rfl)
      · obtain ⟨_, _, _, hq, _⟩ := valueError_none hc
        have hmove : (s.regs.srcCur + BitVec.ofNat 32 s.suffixLen.toNat).toNat =
            s.regs.srcCur.toNat + s.suffixLen.toNat := cursor_toNat (by rw [length_page]; exact hq)
        rw [nextValue_regs]
        show s.regs.srcCur.toNat ≤ (s.regs.srcCur + BitVec.ofNat 32 s.suffixLen.toNat).toNat ∧
          (s.regs.srcCur + BitVec.ofNat 32 s.suffixLen.toNat).toNat ≤ s.regs.srcLen.toNat
        rw [CursorOk] at hcur
        omega
    case done =>
      obtain ⟨_, hcur, _⟩ := hok
      rw [unitStep_close hI hb hd hbs] at h
      cases h
      exact stays hcur rfl

/-- Settles O50: an element moves the cursor inside the page and does not end the command, and the other rules keep the
cursor inside the page. -/
theorem cursorOnlyAdvances : Obligations.CursorOnlyAdvances := by
  unfold Obligations.CursorOnlyAdvances
  intro s t hI hb h hne
  cases hp : s.position with
  | none =>
    obtain ⟨hle, hlen⟩ := noElement_cursor hI hb hp h hne
    exact ⟨hle, fun _ => by rw [(SameInput.unitStep h).srcLen]; exact hlen⟩
  | some p =>
    cases hf : s.fetch p with
    | error e =>
      rw [unitStep_raise hp hf] at h
      cases h
      exact absurd rfl (hne _)
    | ok i =>
      rw [unitStep_exec hp hf] at h
      obtain ⟨hat, htaken⟩ := fetch_ok hp hf
      obtain ⟨q, _, hfit⟩ := hat.pos
      obtain ⟨bs, hi⟩ := encode_of_fits hfit
      obtain ⟨n, hn, hm, _⟩ := exec_elementMoves hi h hne
      refine ⟨?_, fun hdone => ?_⟩
      · rw [hm.srcCur, cursor_toNat (hn.trans htaken)]
        exact Nat.le_add_right _ _
      · rw [hm.status, hb] at hdone
        cases hdone

end Sys2Proof.Machine

/-! ### The host's port, reset and the issue of a command (O7, O8, O10, O11, O14) -/

namespace Sys2Proof.Machine
open State

/-- The fields of the STATUS word: STATE in bits 1:0, ERR in bits 11:8, the reserved bits 0 (R12). -/
theorem Status.word_fields (st : Status) :
    st.word.extractLsb' 0 2 = st.stateCode ∧ st.word.extractLsb' 2 6 = 0 ∧ st.word.extractLsb' 12 20 = 0 ∧
      st.word.extractLsb' 8 4 = st.errCode := by
  have fields : ∀ (e : BitVec 4) (c : BitVec 2),
      (0#20 ++ e ++ 0#6 ++ c : BitVec 32).extractLsb' 0 2 = c ∧
      (0#20 ++ e ++ 0#6 ++ c : BitVec 32).extractLsb' 2 6 = 0 ∧
      (0#20 ++ e ++ 0#6 ++ c : BitVec 32).extractLsb' 12 20 = 0 ∧
      (0#20 ++ e ++ 0#6 ++ c : BitVec 32).extractLsb' 8 4 = e := by decide
  exact fields st.errCode st.stateCode

/-- ERR is nonzero exactly in ERROR (R12, R191). -/
theorem Status.errCode_ne_zero (st : Status) : st.errCode ≠ 0 ↔ st.stateCode = 3 := by
  cases st with
  | idle => decide
  | busy => decide
  | done => decide
  | error e => cases e <;> decide

/-- The `done` wire is 1 exactly in DONE and ERROR (R207). -/
theorem Status.doneWire_iff (st : Status) : st.doneWire = true ↔ st.stateCode = 2 ∨ st.stateCode = 3 := by
  cases st with
  | error e => exact ⟨fun _ => .inr rfl, fun _ => rfl⟩
  | _ => decide

/-- A read returns what the port holds at the offset (R17). -/
@[simp] theorem readPort_rdata (s : State) (off : Word) : (s.readPort off).env.rdata = s.portValue off := rfl

@[simp] theorem portValue_cmd (s : State) : s.portValue 0x00 = 0 := rfl
@[simp] theorem portValue_status (s : State) : s.portValue 0x04 = s.regs.status.word := rfl
@[simp] theorem portValue_srcLen (s : State) : s.portValue 0x08 = s.regs.srcLen := rfl
@[simp] theorem portValue_srcCur (s : State) : s.portValue 0x0C = s.resultValue s.regs.srcCur := rfl
@[simp] theorem portValue_outCount (s : State) : s.portValue 0x10 = s.resultValue s.regs.outCount := rfl
@[simp] theorem portValue_dstLen (s : State) : s.portValue 0x14 = s.resultValue s.regs.dstLen := rfl

/-- Offsets above the register map read 0 (R10). -/
theorem portValue_above (s : State) {off : Word} (h : 0x18 ≤ off.toNat) : s.portValue off = 0 := by
  have undecoded : ∀ r : Word, r.toNat < 0x18 → off ≠ r := by
    rintro r hr rfl
    omega
  simp only [portValue, undecoded offStatus (by decide), undecoded offSrcLen (by decide),
    undecoded offSrcCur (by decide), undecoded offOutCount (by decide), undecoded offDstLen (by decide), if_false]

/-- While not BUSY a result register reads exactly (R14, R15, R16). -/
theorem resultValue_ready {s : State} (h : s.Ready) (v : Word) : s.resultValue v = v := if_neg h

/-- Settles O7, offset by offset. -/
theorem registerReads : Obligations.RegisterReads := by
  unfold Obligations.RegisterReads
  intro s off
  refine ⟨s.readPort off, rfl, ?_, ?_, ?_, ?_, ?_, ?_, fun h => portValue_above s h⟩
  · rintro rfl
    obtain ⟨hstate, hlow, hhigh, herr⟩ := s.regs.status.word_fields
    simp only [readPort_rdata, portValue_status, hstate, hlow, hhigh, herr]
    refine ⟨?_, trivial, trivial, ?_, s.regs.status.errCode_ne_zero, s.regs.status.doneWire_iff⟩
    · cases s.regs.status <;> rfl
    · cases s.regs.status with
      | error e => cases e <;> rfl
      | _ => rfl
  · rintro rfl
    exact portValue_cmd s
  · rintro rfl
    exact portValue_srcLen s
  · rintro hr rfl
    exact (portValue_srcCur s).trans (resultValue_ready hr _)
  · rintro hr rfl
    exact (portValue_outCount s).trans (resultValue_ready hr _)
  · rintro hr rfl
    exact (portValue_dstLen s).trans (resultValue_ready hr _)

/-- While BUSY the port takes no write (R13, R14). -/
theorem writePort_busy {s : State} (h : s.isBusy) (off value : Word) : s.writePort off value = s := if_pos h

/-- A command word while BUSY is ignored (R96). -/
theorem exec_command_busy {s : State} (h : s.isBusy) (w : Word) : exec (decodeCommand w) s = .next s := by
  rcases decodeCommand_cases w with hw | hw | hw | hw | hw <;> rw [hw] <;> exact if_pos h

/-- A write to any offset but those of CMD, SRC_LEN and SRC_CUR is ignored (R10, R17; log 15). -/
theorem writePort_undecoded (s : State) {off : Word} (value : Word) (hl : off ≠ offSrcLen) (hc : off ≠ offSrcCur) :
    s.writePort off value = s := by
  rw [writePort, if_neg hl, if_neg hc, ite_self]

/-- While not BUSY a write to SRC_LEN or SRC_CUR sets that register (R13, R14). -/
theorem writePort_srcLen {s : State} (h : s.Ready) (value : Word) :
    s.writePort offSrcLen value = { s with regs.srcLen := value } := (if_neg h).trans (if_pos rfl)

theorem writePort_srcCur {s : State} (h : s.Ready) (value : Word) :
    s.writePort offSrcCur value = { s with regs.srcCur := value } :=
  (if_neg h).trans ((if_neg (by decide)).trans (if_pos rfl))

/-- Settles O8: reads, then writes by offset and by BUSY. -/
theorem hostAccessRule : Obligations.HostAccessRule := by
  unfold Obligations.HostAccessRule
  refine ⟨fun s off => ⟨s.readPort off, rfl, rfl⟩, fun s off value h0 h8 hC => ?_, fun s value hb => ⟨?_, ?_, ?_⟩,
    fun s value hr => ⟨?_, ?_⟩⟩
  · have hcmd : off ≠ offCmd := h0
    rw [hostStep, if_neg hcmd, writePort_undecoded s value h8 hC]
  · exact congrArg _ (writePort_busy hb _ _)
  · exact congrArg _ (writePort_busy hb _ _)
  · exact exec_command_busy hb value
  · exact congrArg _ (writePort_srcLen hr value)
  · exact congrArg _ (writePort_srcCur hr value)

/-- Settles O10, by evaluation of the reset state. -/
theorem resetValues : Obligations.ResetValues := by
  unfold Obligations.ResetValues
  decide

/-- Settles O11: `rst` is `applyReset`, which is written field by field. -/
theorem resetInput : Obligations.ResetInput := by
  unfold Obligations.ResetInput
  exact fun s => ⟨s.applyReset, rfl, rfl, rfl, rfl, rfl, rfl, rfl, rfl, rfl, rfl, rfl, rfl, rfl, rfl, rfl, rfl, rfl, rfl,
    rfl, rfl⟩

/-- Issue while not BUSY, on a page that fits SRC: the body of the command (R90, R27). -/
theorem issue_fits {s : State} (body : State → State) (hr : s.Ready) (hf : s.regs.srcLen.toNat ≤ s.env.inst.srcCap) :
    issue body s = .next (body { s with
      regs.status := .busy, regs.outCount := 0, regs.dstLen := 0, diu.emitted := 0, dbr.prevLen := 0 }) := by
  rw [issue, if_neg hr]
  exact if_neg (Nat.not_lt.mpr hf)

/-- Issue while not BUSY, on a page too long for SRC: CapacityExceeded at once (R90, R199). -/
theorem issue_tooLong {s : State} (body : State → State) (hr : s.Ready) (hf : s.env.inst.srcCap < s.regs.srcLen.toNat) :
    issue body s = .next (State.raise .capacityExceeded { s with
      regs.status := .busy, regs.outCount := 0, regs.dstLen := 0, diu.emitted := 0, dbr.prevLen := 0 }) := by
  rw [issue, if_neg hr]
  exact if_pos hf

/-- A decode command is issued (R90), with a body that starts a DIU run (R92, R93, R94). -/
theorem exec_decode_issues {i : Instr} (hi : i = .decI32 ∨ i = .decI64 ∨ i = .decBa) :
    ∃ body, ∀ s, exec i s = issue body s := by
  rcases hi with rfl | rfl | rfl
  · exact ⟨fun t => ({ t with dbr.bstate := .idle } : State).startRun .w32 .dst, fun _ => rfl⟩
  · exact ⟨fun t => ({ t with dbr.bstate := .idle } : State).startRun .w64 .dst, fun _ => rfl⟩
  · exact ⟨fun t => ({ t with dbr.bstate := .pfx } : State).startRun .w32 .pfx, fun _ => rfl⟩

/-- Settles O14: the body of each command, and the page too long. -/
theorem decodeCommandsIssue : Obligations.DecodeCommandsIssue := by
  unfold Obligations.DecodeCommandsIssue
  refine ⟨fun s hr hf => ⟨?_, ?_, ?_⟩, fun s i hr hf hi => ?_⟩
  · rw [exec, execDecI32, issue_fits _ hr hf]; rfl
  · rw [exec, execDecI64, issue_fits _ hr hf]; rfl
  · rw [exec, execDecBa, issue_fits _ hr hf]; rfl
  · obtain ⟨body, hbody⟩ := exec_decode_issues hi
    exact ⟨_, (hbody s).trans (issue_tooLong body hr hf), rfl, rfl, rfl, rfl, rfl, rfl⟩

end Sys2Proof.Machine

/-! ### The memories (O9, O44, O48, O49, O51) -/

namespace Sys2Proof.Machine
open State

/-! #### No stop, and no write to SRC -/

/-- Settles O48, from the lemmas that carry the invariant through the unit's step and through every command word. -/
theorem unitNeverStops : Obligations.UnitNeverStops := by
  unfold Obligations.UnitNeverStops
  intro s hI
  refine ⟨?_, fun w => ?_⟩
  · obtain ⟨t, ht, _⟩ := unitStep_inv hI
    exact ⟨t, ht⟩
  · obtain ⟨t, ht, _⟩ := exec_command_inv hI w
    exact ⟨t, ht⟩

/-- Settles O49, from what `SameInput` says of every instruction and of every step of the unit. -/
theorem sourceNeverWritten : Obligations.SourceNeverWritten := by
  unfold Obligations.SourceNeverWritten
  refine ⟨fun i s t h => ?_, fun s t h => ?_⟩
  · have same := SameInput.exec h
    exact ⟨same.src, same.srcLen, same.inst, same.host⟩
  · have same := SameInput.unitStep h
    exact ⟨same.src, same.srcLen, same.inst, same.host⟩

/-! #### DST is append-only -/

/-- From `s` to `t` DST_LEN does not shrink, and no byte of DST below it changes (R48). -/
structure Appends (s t : State) : Prop where
  dstLen : s.regs.dstLen.toNat ≤ t.regs.dstLen.toNat
  kept : ∀ a, a < s.regs.dstLen.toNat → t.mem.dst.read .dst a = s.mem.dst.read .dst a

theorem Appends.trans {s t u : State} (h : Appends s t) (h' : Appends t u) : Appends s u :=
  ⟨h.dstLen.trans h'.dstLen, fun a ha => (h'.kept a (ha.trans_le h.dstLen)).trans (h.kept a ha)⟩

/-- Where nothing has been counted into DST_LEN nothing is to be kept. -/
theorem Appends.of_empty {s : State} (h : s.regs.dstLen = 0) (t : State) : Appends s t := by
  have h0 : s.regs.dstLen.toNat = 0 := by rw [h]; rfl
  exact ⟨by omega, fun a ha => by omega⟩

/-- A step that writes bytes at DST_LEN, and nothing else of DST, and then counts `n` bytes more. -/
theorem Appends.of_store {s t : State} {bs : List Byte} {n : Word}
    (hm : t.mem.dst = s.mem.dst.writeList s.regs.dstLen.toNat bs) (hl : t.regs.dstLen = s.regs.dstLen + n)
    (hn : s.regs.dstLen.toNat + n.toNat < 2 ^ 32) : Appends s t := by
  refine ⟨?_, fun a ha => ?_⟩
  · rw [hl, BitVec.toNat_add, Nat.mod_eq_of_lt hn]
    exact Nat.le_add_right _ _
  · rw [hm]
    exact Memory.read_writeList_outside .dst bs s.mem.dst _ a (.inl ha)

/-- Outside the value loop DST_LEN is 0, and a run's sink is the one that its starter chose (R92, R93, R161, R162). -/
theorem run_sinkOk_dstLen {s : State} (hI : s.Inv) (hb : s.isBusy) (hd : s.diu.dstate ≠ .idle) :
    s.SinkOk ∧ s.regs.dstLen = 0 := by
  obtain ⟨_, _, hok⟩ := hI.running hb
  cases hds : s.diu.dstate <;> simp only [hds] at hok
  case idle => exact absurd hds hd
  case hdr => obtain ⟨hs, _, hl, _⟩ := hok; exact ⟨hs, hl⟩
  case blk => obtain ⟨hs, _, _, hl, _⟩ := hok; exact ⟨hs, hl⟩
  case wid => obtain ⟨hs, _, _, hl, _⟩ := hok; exact ⟨hs, hl⟩
  case pay => obtain ⟨hs, _, _, hl, _⟩ := hok; exact ⟨hs, hl⟩
  case done => obtain ⟨hs, _, _, hl, _⟩ := hok; exact ⟨hs, hl⟩

/-- A run into DST was started by a command, not by the DBR (R92, R93). -/
theorem bstate_of_dst_sink {s : State} (hs : s.SinkOk) (hk : s.diu.sink = .dst) : s.dbr.bstate = .idle := by
  obtain ⟨_, hsel⟩ := hs
  cases hbs : s.dbr.bstate <;> simp [hbs, hk] at hsel
  case idle => rfl

/-- A value that passes R164 does not carry DST_LEN past 32 bits. -/
theorem value_fits {s : State} (hI : s.Inv) (hc : s.checkValue = none) :
    s.regs.dstLen.toNat + s.prefixLen.toNat + s.suffixLen.toNat < 2 ^ 32 := by
  obtain ⟨_, _, _, _, hcap⟩ := valueError_none hc
  exact hcap.trans_lt (dstCap_lt hI.legal)

/-- The copy of the bytes that a value shares with the one before it appends to DST (R165). -/
theorem valueBegun_appends {s : State} (hI : s.Inv) (hc : s.checkValue = none) : Appends s s.valueBegun :=
  .of_store rfl rfl ((Nat.le_add_right _ _).trans_lt (value_fits hI hc))

/-- The copy of a value's suffix appends to what its first bytes were copied to (R165). -/
theorem suffixCopied_appends {s : State} (hI : s.Inv) (hc : s.checkValue = none) :
    Appends s.valueBegun s.valueBegun.suffixCopied := by
  refine .of_store rfl rfl ?_
  have hfits := value_fits hI hc
  show (s.regs.dstLen + s.prefixLen).toNat + s.suffixLen.toNat < 2 ^ 32
  rw [BitVec.toNat_add]
  omega

/-- Closing a value writes neither DST nor DST_LEN. -/
theorem Appends.nextValue {s t : State} (h : Appends s t) : Appends s t.nextValue :=
  ⟨by rw [nextValue_regs]; exact h.dstLen, fun a ha => by rw [nextValue_mem]; exact h.kept a ha⟩

/-- A step of the unit that does not raise appends to DST (R48). -/
theorem unitStep_appends {s t : State} (hI : s.Inv) (hb : s.isBusy) (h : unitStep s = .next t)
    (hne : ∀ e, t.regs.status ≠ .error e) : Appends s t := by
  by_cases hd : s.diu.dstate = .idle
  case neg => exact .of_empty (run_sinkOk_dstLen hI hb hd).2 t
  obtain ⟨_, _, hok⟩ := hI.running hb
  simp only [hd] at hok
  cases hbs : s.dbr.bstate <;> simp only [hbs] at hok
  case cmp =>
    obtain ⟨_, _, hl, _⟩ := hok
    exact .of_empty hl t
  case val =>
    by_cases hr : s.micro.rawLeft = 0
    · rcases unitStep_value hI hb hd hbs hr with ⟨e, _, hu⟩ | ⟨hc, hu | hu⟩ <;> rw [hu] at h <;> cases h
      · exact absurd rfl (hne e)
      · exact (valueBegun_appends hI hc).nextValue
      · exact ((valueBegun_appends hI hc).trans (suffixCopied_appends hI hc)).nextValue
    · obtain ⟨b, _, _, hu⟩ := unitStep_raw hI hb hd hbs hr
      rw [hu] at h
      cases h
      refine (Appends.of_store (t := s.byteCopied b) rfl rfl ?_).nextValue
      have hleft := ne_zero_pos hr
      have hfits := hok.fits
      have hcap := dstCap_lt hI.legal
      show s.regs.dstLen.toNat + 1 < 2 ^ 32
      omega
  case done =>
    rw [unitStep_close hI hb hd hbs] at h
    cases h
    exact ⟨le_rfl, fun _ _ => rfl⟩

/-- A step of a run into DST that does not raise leaves the bytes of the values emitted before it alone (R48, R118). -/
theorem dstRun_keeps_emitted {s t : State} (hI : s.Inv) (hb : s.isBusy) (h : unitStep s = .next t)
    (hne : ∀ e, t.regs.status ≠ .error e) (hd : s.diu.dstate ≠ .idle) (hk : s.diu.sink = .dst) :
    ∀ a, a < s.diu.emitted.toNat * s.diu.wSel.bytes → t.mem.dst.read .dst a = s.mem.dst.read .dst a := by
  have hbs := bstate_of_dst_sink (run_sinkOk_dstLen hI hb hd).1 hk
  by_cases hdone : s.diu.dstate = .done
  · rw [(unitStep_runDone hb hdone).1 hbs] at h
    cases h
    exact fun _ _ => rfl
  have hba : s.diu.dstate = .hdr → s.env.grain = .whole → s.dbr.bstate ≠ .pfx := by simp [hbs]
  rcases run_runsOn hI hb hd hdone hba with ⟨e, u, hu, he, _⟩ | ⟨us, u, hu, hrun, _⟩ <;> rw [hu] at h <;> cases h
  · exact absurd he (hne e)
  · have hsink := hrun.sink.sink
    rw [hk] at hsink
    obtain ⟨hw, _⟩ := hsink
    exact fun a ha => hw.outside a (.inl ha)

/-- Settles O51: a run into DST writes past the values it has emitted, every other step past DST_LEN. -/
theorem dstAppendOnly : Obligations.DstAppendOnly := by
  unfold Obligations.DstAppendOnly
  intro s t hI hb h hne
  have happ := unitStep_appends hI hb h hne
  refine ⟨happ.dstLen, ?_⟩
  split
  · next hrun => exact dstRun_keeps_emitted hI hb h hne hrun.1 hrun.2
  · exact happ.kept

/-! #### The host's accesses -/

section
variable {sp : Space} {cap : Nat} {a : Word} {s : State} (t : State)

/-- While BUSY the host has no access to a memory (R224, U4; log 12). -/
theorem hostMemory_busy (h : s.isBusy) : hostMemory sp cap a s t = .refused .hostAccessWhileBusy := if_pos h

/-- While not BUSY an access inside the space is answered (R40). -/
theorem hostMemory_inside (hr : s.Ready) (h : a.toNat < cap) : hostMemory sp cap a s t = .next t :=
  (if_neg hr).trans (if_pos h)

/-- While not BUSY an access outside the space faults (log 14). -/
theorem hostMemory_outside (hr : s.Ready) (h : cap ≤ a.toNat) : hostMemory sp cap a s t = .fault (.outsideSpace sp) :=
  (if_neg hr).trans (if_neg (Nat.not_lt.mpr h))

end

/-- Settles O9: each access is one of the three cases of `hostMemory`. -/
theorem hostMemoryAccess : Obligations.HostMemoryAccess := by
  unfold Obligations.HostMemoryAccess
  refine ⟨fun s a b hb => ?_, fun s a b hr => ⟨fun h => ?_, fun h => ?_, fun h => ?_, fun h => ?_, fun h => ?_,
    fun h => ?_, fun h => ?_⟩⟩
  · exact ⟨hostMemory_busy _ hb, hostMemory_busy _ hb, hostMemory_busy _ hb, hostMemory_busy _ hb⟩
  · exact ⟨_, hostMemory_inside _ hr h, rfl, wrote_write .src s.mem.src a.toNat b⟩
  · exact ⟨_, hostMemory_inside _ hr h, rfl⟩
  · exact ⟨_, hostMemory_inside _ hr h, rfl⟩
  · exact ⟨_, hostMemory_inside _ hr (Nat.lt_succ_of_le h), rfl⟩
  · exact ⟨hostMemory_outside _ hr h, hostMemory_outside _ hr h⟩
  · exact hostMemory_outside _ hr h
  · exact hostMemory_outside _ hr h

/-! #### The copy of the shared bytes -/

/-- Settles O44: with no suffix byte left the previous value ends at DST_LEN, and R164 bounds what is copied by its length. -/
theorem prefixCopyDisjoint : Obligations.PrefixCopyDisjoint := by
  unfold Obligations.PrefixCopyDisjoint
  intro s hI hb hd hv hr hc
  obtain ⟨_, _, hprefix, _⟩ := valueError_none hc
  have harena := (valuesOk_of_inv hI hb hd hv).arena
  have h0 : s.micro.rawLeft.toNat = 0 := by rw [hr]; rfl
  omega

end Sys2Proof.Machine

/-! ### The decoder and the encoder (O1 to O5) -/

namespace Sys2Proof
open Machine

/-! #### The bytes of a varint, as numbers (R70) -/

theorem contByte_toNat (g : Group) : (contByte g).toNat = 128 + g.toNat := by
  have hor := Nat.two_pow_add_eq_or_of_lt (i := 7) g.isLt 1
  rw [contByte, BitVec.toNat_append]
  exact hor.symm

theorem lastByte_toNat (g : Group) : (lastByte g).toNat = g.toNat := by
  rw [lastByte, BitVec.toNat_append]
  exact Nat.zero_or _

theorem groupOf_toNat (b : Byte) : (groupOf b).toNat = b.toNat % 128 := by
  simp [groupOf, BitVec.extractLsb'_toNat]

/-- The continuation flag is bit 7. -/
theorem continues_iff (b : Byte) : continues b = true ↔ 128 ≤ b.toNat := by
  have hmsb : continues b = b.msb := rfl
  rw [hmsb, BitVec.msb_eq_decide, decide_eq_true_iff]

@[simp] theorem continues_contByte (g : Group) : continues (contByte g) = true := by
  rw [continues_iff, contByte_toNat]
  exact Nat.le_add_right _ _

@[simp] theorem continues_lastByte (g : Group) : continues (lastByte g) = false := by
  rw [← Bool.not_eq_true, continues_iff, lastByte_toNat]
  exact Nat.not_le.mpr g.isLt

@[simp] theorem groupOf_contByte (g : Group) : groupOf (contByte g) = g := by
  have hg := g.isLt
  apply BitVec.eq_of_toNat_eq
  rw [groupOf_toNat, contByte_toNat]
  omega

@[simp] theorem groupOf_lastByte (g : Group) : groupOf (lastByte g) = g := by
  apply BitVec.eq_of_toNat_eq
  rw [groupOf_toNat, lastByte_toNat]
  exact Nat.mod_eq_of_lt g.isLt

/-- A byte is its flag and its group. -/
theorem contByte_groupOf {b : Byte} (h : continues b = true) : contByte (groupOf b) = b := by
  have hb := b.isLt
  rw [continues_iff] at h
  apply BitVec.eq_of_toNat_eq
  rw [contByte_toNat, groupOf_toNat]
  omega

theorem lastByte_groupOf {b : Byte} (h : continues b = false) : lastByte (groupOf b) = b := by
  rw [← Bool.not_eq_true, continues_iff] at h
  apply BitVec.eq_of_toNat_eq
  rw [lastByte_toNat, groupOf_toNat]
  omega

/-- In byte position 10 the one value bit is the byte (R70). -/
theorem extractLsb'_setWidth_bit (v : BitVec 1) : (v.setWidth 8).extractLsb' 0 1 = v := by
  apply BitVec.eq_of_toNat_eq
  have hv := v.isLt
  simp only [BitVec.extractLsb'_toNat, BitVec.toNat_setWidth]
  omega

theorem setWidth_extractLsb'_bit {b : Byte} (h : b.toNat ≤ 1) : (b.extractLsb' 0 1).setWidth 8 = b := by
  apply BitVec.eq_of_toNat_eq
  simp only [BitVec.extractLsb'_toNat, BitVec.toNat_setWidth]
  omega

/-! #### A varint and its bytes -/

theorem map_eq_ok {ε α β : Type} {f : α → β} {x : Except ε α} {y : β} (h : x.map f = .ok y) :
    ∃ a, x = .ok a ∧ f a = y := by
  cases x with
  | error e => cases h
  | ok a => cases h; exact ⟨a, rfl, rfl⟩

/-- A varint read from byte number `k` on stands in the bytes it was read from. -/
theorem parseVarint_bytes {k : Nat} {bs rest : List Byte} {v : Varint} (h : parseVarint k bs = .ok (v, rest)) :
    bs = v.bytes ++ rest := by
  induction bs generalizing k v with
  | nil => cases h
  | cons b bs ih =>
    unfold parseVarint at h
    split at h
    · cases h
    split at h
    · next hc =>
      obtain ⟨⟨u, r⟩, hr, hv⟩ := map_eq_ok h
      cases hv
      rw [ih hr]
      simp [Varint.bytes, contByte_groupOf hc]
    · next hc =>
      cases h
      simp [Varint.bytes, lastByte_groupOf (Bool.eq_false_of_not_eq_true hc)]

theorem parseVarint_contByte {k : Nat} (hk : k < 9) (g : Group) {bs rest : List Byte} {v : Varint}
    (h : parseVarint (k + 1) bs = .ok (v, rest)) :
    parseVarint k (contByte g :: bs) = .ok ({ v with conts := g :: v.conts }, rest) := by
  rw [parseVarint, if_neg (by omega), if_pos (continues_contByte g), h, groupOf_contByte]
  rfl

theorem parseVarint_lastByte {k : Nat} {g : Group} (h : k < 9 ∨ g.toNat ≤ 1) (rest : List Byte) :
    parseVarint k (lastByte g :: rest) = .ok ({ conts := [], last := g }, rest) := by
  rw [parseVarint, lastByte_toNat, if_neg (by omega), continues_lastByte, groupOf_lastByte]
  rfl

/-- The bytes of a varint that ends by byte number 9, read from byte number `k` on, give it back. -/
theorem parseVarint_append {k : Nat} {v : Varint}
    (h : k + v.conts.length < 9 ∨ k + v.conts.length = 9 ∧ v.last.toNat ≤ 1) (rest : List Byte) :
    parseVarint k (v.bytes ++ rest) = .ok (v, rest) := by
  obtain ⟨conts, last⟩ := v
  induction conts generalizing k with
  | nil => exact parseVarint_lastByte (h.imp id And.right) rest
  | cons g gs ih =>
    simp only [List.length_cons] at h
    exact parseVarint_contByte (by omega) g (ih (by simp only; omega))

theorem Varint.wellFormed_iff (v : Varint) :
    v.wellFormed = true ↔ v.conts.length < 9 ∨ v.conts.length = 9 ∧ v.last.toNat ≤ 1 := by
  simp [Varint.wellFormed]

/-- The bytes of a well-formed varint give it back (R70). -/
theorem parseVarint_of_wellFormed {v : Varint} (h : v.wellFormed = true) (rest : List Byte) :
    parseVarint 0 (v.bytes ++ rest) = .ok (v, rest) :=
  parseVarint_append (by simpa using v.wellFormed_iff.mp h) rest

/-! #### The header -/

theorem parseHdr_of_wellFormed {b m t f : Varint} (hb : b.wellFormed = true) (hm : m.wellFormed = true)
    (ht : t.wellFormed = true) (hf : f.wellFormed = true) (rest : List Byte) :
    parseHdr (b.bytes ++ m.bytes ++ t.bytes ++ f.bytes ++ rest) = .ok (.hdr b m t f, rest) := by
  simp only [parseHdr, List.append_assoc, parseVarint_of_wellFormed hb, parseVarint_of_wellFormed hm,
    parseVarint_of_wellFormed ht, parseVarint_of_wellFormed hf, bind, Except.bind, pure, Except.pure]

theorem bind_eq_ok {ε α β : Type} {x : Except ε α} {f : α → Except ε β} {y : β} (h : (x >>= f) = .ok y) :
    ∃ a, x = .ok a ∧ f a = .ok y := by
  cases x with
  | error e => cases h
  | ok a => exact ⟨a, rfl, h⟩

theorem parseHdr_bytes {bs rest : List Byte} {i : Instr} (h : parseHdr bs = .ok (i, rest)) :
    ∃ own, encode i = .bytes own ∧ bs = own ++ rest := by
  obtain ⟨⟨b, bs1⟩, hb, h⟩ := bind_eq_ok h
  obtain ⟨⟨m, bs2⟩, hm, h⟩ := bind_eq_ok h
  obtain ⟨⟨t, bs3⟩, ht, h⟩ := bind_eq_ok h
  obtain ⟨⟨f, bs4⟩, hf, h⟩ := bind_eq_ok h
  cases h
  refine ⟨_, rfl, ?_⟩
  rw [parseVarint_bytes hb, parseVarint_bytes hm, parseVarint_bytes ht, parseVarint_bytes hf]
  simp only [List.append_assoc]

/-! #### One varint byte -/

theorem decodeVarintByte_contByte {k : Nat} (hk : k < 9) (g : Group) :
    decodeVarintByte k (contByte g) = .ok (.varintCont g) := by
  rw [decodeVarintByte, if_pos hk, if_pos (continues_contByte g), groupOf_contByte]

theorem decodeVarintByte_lastByte {k : Nat} (hk : k < 9) (g : Group) :
    decodeVarintByte k (lastByte g) = .ok (.varintLast g) := by
  rw [decodeVarintByte, if_pos hk, continues_lastByte, groupOf_lastByte]
  rfl

theorem decodeVarintByte_tenth (v : BitVec 1) : decodeVarintByte 9 (v.setWidth 8) = .ok (.varintLast10 v) := by
  have hv := v.isLt
  have hle : (v.setWidth 8).toNat ≤ 1 := by
    rw [BitVec.toNat_setWidth]
    omega
  rw [decodeVarintByte, if_neg (by omega), if_pos ⟨rfl, hle⟩, extractLsb'_setWidth_bit]

theorem decodeVarintByte_encode {k : Nat} {b : Byte} {i : Instr} (h : decodeVarintByte k b = .ok i) :
    encode i = .bytes [b] := by
  unfold decodeVarintByte at h
  split at h
  · split at h
    · next hc => cases h; rw [encode, contByte_groupOf hc]
    · next hc => cases h; rw [encode, lastByte_groupOf (Bool.eq_false_of_not_eq_true hc)]
  split at h
  · next hk => cases h; rw [encode, setWidth_extractLsb'_bit hk.2]
  · cases h

/-! #### The command words -/

/-- The four words of the opcode map, and the words above them (R62, R63). -/
theorem word_cases (w : Word) : w = 0 ∨ w = 1 ∨ w = 2 ∨ w = 3 ∨ 3 < w.toNat := by
  by_cases h : 3 < w.toNat
  · exact .inr (.inr (.inr (.inr h)))
  · bv_omega

theorem ne_of_above {w u : Word} (h : 3 < w.toNat) (hu : u.toNat ≤ 3) : w ≠ u := by
  rintro rfl
  exact absurd h (Nat.not_lt.mpr hu)

theorem decodeCommand_above {w : Word} (h : 3 < w.toNat) : decodeCommand w = .illegal w := by
  rw [decodeCommand, if_neg (ne_of_above h (by decide)), if_neg (ne_of_above h (by decide)),
    if_neg (ne_of_above h (by decide)), if_neg (ne_of_above h (by decide))]

/-- The mask of the opcode map takes the whole word (R62). -/
theorem and_mask (w : Word) : w &&& 0xFFFFFFFF = w := BitVec.and_allOnes

/-- Settles O4: each of the four words by evaluation, every other word is illegal. -/
theorem opcodeMap : Obligations.OpcodeMap := by
  unfold Obligations.OpcodeMap
  intro w
  rw [and_mask]
  rcases word_cases w with rfl | rfl | rfl | rfl | h
  case inr.inr.inr.inr =>
    rw [decodeCommand_above h]
    simp [ne_of_above h, h, eq_comm]
  all_goals simp [decodeCommand]

theorem decodeCommand_encode {i : Instr} {w : Word} (hi : i.wellFormed = true) (h : encode i = .word w) :
    decodeCommand w = i := by
  cases i with
  | clr => cases h; rfl
  | decI32 => cases h; rfl
  | decI64 => cases h; rfl
  | decBa => cases h; rfl
  | illegal u => cases h; exact decodeCommand_above (of_decide_eq_true hi)
  | _ => cases h

theorem encode_decodeCommand (w : Word) : (decodeCommand w).wellFormed = true ∧ encode (decodeCommand w) = .word w := by
  rcases word_cases w with rfl | rfl | rfl | rfl | h
  case inr.inr.inr.inr =>
    rw [decodeCommand_above h]
    exact ⟨decide_eq_true h, rfl⟩
  all_goals exact ⟨rfl, rfl⟩

/-! #### The stream elements -/

/-- The encoding of an element, read at a position that it fits, gives it back (R60, R65 to R71). -/
theorem decodeElement_encode {i : Instr} {pos : Pos} {bs rest : List Byte} (hw : i.wellFormed = true)
    (hfit : i.fits pos = true) (hend : endsBefore i pos rest = true) (h : encode i = .bytes bs) :
    decodeElement pos (bs ++ rest) = .ok (i, rest) := by
  cases i with
  | varintCont g | varintLast g =>
    cases pos with
    | varintByte k =>
      cases h
      have hk : k < 9 := of_decide_eq_true hfit
      simp [decodeElement, decodeVarintByte_contByte hk, decodeVarintByte_lastByte hk, Except.map]
    | _ => cases hfit
  | varintLast10 v =>
    cases pos with
    | varintByte k =>
      cases h
      cases eq_of_beq hfit
      simp [decodeElement, decodeVarintByte_tenth, Except.map]
    | _ => cases hfit
  | uvarint v | zzvarint v | blkMin v =>
    cases eq_of_beq hfit
    cases h
    simp [decodeElement, parseVarint_of_wellFormed hw, Except.map]
  | hdr b m t f =>
    cases eq_of_beq hfit
    cases h
    simp only [Instr.wellFormed, Bool.and_eq_true] at hw
    obtain ⟨⟨⟨hb, hm⟩, ht⟩, hf⟩ := hw
    exact parseHdr_of_wellFormed hb hm ht hf rest
  | blkWidth b | raw b =>
    cases eq_of_beq hfit
    cases h
    rfl
  | mb payload =>
    cases pos with
    | mb n =>
      have hn : payload.length ≤ n := of_decide_eq_true hfit
      cases h
      simp only [endsBefore, Bool.or_eq_true, beq_iff_eq, List.isEmpty_iff] at hend
      rcases hend with rfl | rfl
      · simp [decodeElement]
      · simp [decodeElement, hn]
    | _ => cases hfit
  | pageInt page | pageBa page =>
    cases eq_of_beq hfit
    cases h
    cases List.isEmpty_iff.mp hend
    simp [decodeElement]
  | _ => cases hfit

/-- What is read at a position stands, encoded, in the bytes it was read from. -/
theorem decodeElement_bytes {pos : Pos} {bs rest : List Byte} {i : Instr} (h : decodeElement pos bs = .ok (i, rest)) :
    ∃ own, encode i = .bytes own ∧ bs = own ++ rest := by
  cases pos with
  | varintByte k =>
    cases bs with
    | nil => cases h
    | cons b bs =>
      obtain ⟨j, hj, h⟩ := map_eq_ok h
      cases h
      exact ⟨_, decodeVarintByte_encode hj, rfl⟩
  | uvarint | zzvarint | blkMin =>
    obtain ⟨⟨v, r⟩, hv, h⟩ := map_eq_ok h
    cases h
    exact ⟨_, rfl, parseVarint_bytes hv⟩
  | hdr => exact parseHdr_bytes h
  | blkWidth | raw =>
    cases bs with
    | nil => cases h
    | cons b bs => cases h; exact ⟨_, rfl, rfl⟩
  | mb n => cases h; exact ⟨_, rfl, (List.take_append_drop n bs).symm⟩
  | pageInt | pageBa => cases h; exact ⟨_, rfl, (List.append_nil bs).symm⟩

/-- Settles O1, from the command words and the stream elements. -/
theorem decodeEncode : Obligations.DecodeEncode := by
  unfold Obligations.DecodeEncode
  exact ⟨fun _ _ hi h => decodeCommand_encode hi h, fun _ _ _ _ hw hfit hend h => decodeElement_encode hw hfit hend h⟩

/-- Settles O2: the bytes read are the encoding and the rest; fit and well-formedness stand in `decodeElement_ok`. -/
theorem encodeDecode : Obligations.EncodeDecode := by
  unfold Obligations.EncodeDecode
  refine ⟨encode_decodeCommand, fun pos bs rest i hlen h => ?_⟩
  obtain ⟨hfit, hw, _⟩ := decodeElement_ok hlen h
  exact ⟨hw, hfit, decodeElement_bytes h⟩

/-- Settles O3, by evaluation of the decoder on each word. -/
theorem sampleWords : Obligations.SampleWords := by
  unfold Obligations.SampleWords
  decide

/-! #### The value of a varint (R70, R111) -/

/-- One turn of the loop of R111 adds its group above the bits read so far, while the sum stays within 64 bits. -/
theorem addGroup_toNat {v : DWord} {k : Nat} {g : Group} (hv : v.toNat < 2 ^ (7 * k))
    (hfit : v.toNat + 2 ^ (7 * k) * g.toNat < 2 ^ 64) :
    (addGroup v k g).toNat = v.toNat + 2 ^ (7 * k) * g.toNat := by
  have hg : (g.setWidth 64).toNat = g.toNat :=
    BitVec.toNat_setWidth_of_le (by decide)
  rw [addGroup, BitVec.toNat_or, BitVec.toNat_shiftLeft, hg, Nat.shiftLeft_eq, Nat.mul_comm g.toNat,
    Nat.mod_eq_of_lt (by omega), Nat.or_comm, ← Nat.two_pow_add_eq_or_of_lt hv, Nat.add_comm]

/-- The loop of R111 sums the groups, least significant first, while the sum stays within 64 bits. -/
theorem addGroups_toNat {gs : List Group} {v : DWord} {k : Nat} (hv : v.toNat < 2 ^ (7 * k))
    (hfit : v.toNat + 2 ^ (7 * k) * groupSum gs < 2 ^ 64) :
    (addGroups v k gs).toNat = v.toNat + 2 ^ (7 * k) * groupSum gs := by
  induction gs generalizing v k with
  | nil => rfl
  | cons g gs ih =>
    have hpow : 2 ^ (7 * (k + 1)) = 2 ^ (7 * k) * 2 ^ 7 := by rw [Nat.mul_add, Nat.pow_add]
    have hsum : 2 ^ (7 * k) * groupSum (g :: gs) = 2 ^ (7 * k) * g.toNat + 2 ^ (7 * (k + 1)) * groupSum gs := by
      rw [groupSum, Nat.mul_add, hpow, Nat.mul_assoc]
    have hg : 2 ^ (7 * k) * g.toNat ≤ 2 ^ (7 * k) * 127 := Nat.mul_le_mul_left _ (Nat.le_of_lt_succ g.isLt)
    have hstep := addGroup_toNat (g := g) hv (by omega)
    rw [addGroups, ih (by omega) (by omega)]
    omega

theorem groupSum_append (gs : List Group) (g : Group) :
    groupSum (gs ++ [g]) = groupSum gs + 2 ^ (7 * gs.length) * g.toNat := by
  induction gs with
  | nil => simp [groupSum]
  | cons h hs ih =>
    have hpow : 2 ^ (7 * (hs.length + 1)) = 2 ^ 7 * 2 ^ (7 * hs.length) := by rw [Nat.mul_add, Nat.pow_add, Nat.mul_comm]
    rw [List.cons_append, groupSum, groupSum, ih, List.length_cons, hpow, Nat.mul_add, Nat.mul_assoc, Nat.add_assoc]

theorem groupSum_lt (gs : List Group) : groupSum gs < 2 ^ (7 * gs.length) := by
  induction gs with
  | nil => decide
  | cons g gs ih =>
    have hpow : 2 ^ (7 * (gs.length + 1)) = 2 ^ (7 * gs.length) * 2 ^ 7 := by rw [Nat.mul_add, Nat.pow_add]
    have hg := g.isLt
    rw [groupSum, List.length_cons]
    omega

/-- The groups of a well-formed varint make a 64-bit number: 63 bits of nine bytes, and bit 63 of a 10th. -/
theorem groupSum_lt_of_wellFormed {v : Varint} (h : v.wellFormed = true) : groupSum (v.conts ++ [v.last]) < 2 ^ 64 := by
  rcases v.wellFormed_iff.mp h with hlen | ⟨hlen, hlast⟩
  · refine (groupSum_lt _).trans_le (Nat.pow_le_pow_right (by decide) ?_)
    rw [List.length_append, List.length_singleton]
    omega
  · have hlow := groupSum_lt v.conts
    rw [hlen] at hlow
    rw [groupSum_append, hlen]
    omega

/-- The value of a well-formed varint is the sum of its groups. -/
theorem Varint.value_toNat {v : Varint} (h : v.wellFormed = true) :
    v.value.toNat = groupSum (v.conts ++ [v.last]) := by
  have hlt := groupSum_lt_of_wellFormed h
  have hsum := addGroups_toNat (gs := v.conts ++ [v.last]) (v := 0) (k := 0) (by decide) (by simpa using hlt)
  rw [Varint.value, hsum]
  simp

/-! #### The bytes of a varint in the page -/

theorem map_groupOf_bytes (v : Varint) : v.bytes.map groupOf = v.conts ++ [v.last] := by
  simp [Varint.bytes, Function.comp_def]

/-- The byte after the non-final ones is the final one. -/
theorem getD_last (v : Varint) (rest : List Byte) : (v.bytes ++ rest).getD v.conts.length 0 = lastByte v.last := by
  simp [Varint.bytes, List.getD]

/-- Every byte before the final one continues (R70). -/
theorem continues_getD {v : Varint} {k : Nat} (hk : k < v.conts.length) (rest : List Byte) :
    continues ((v.bytes ++ rest).getD k 0) = true := by
  simp [Varint.bytes, List.getD, List.getElem?_append, hk]

/-- In byte position 10 only 0 and 1 are legal (R70). -/
theorem lastByte_of_le_one {g : Group} (h : g.toNat ≤ 1) : lastByte g = 0 ∨ lastByte g = 1 := by
  rw [← lastByte_toNat] at h
  bv_omega

/-- Settles O5: the bytes read are those of a well-formed varint, and the rest. -/
theorem varintFormat : Obligations.VarintFormat := by
  unfold Obligations.VarintFormat
  intro bs rest v h
  obtain ⟨hlen, hw⟩ := parseVarint_zero h
  have hdrop := parseVarint_rest h
  have hsize : v.size = v.conts.length + 1 := rfl
  have hlegal := v.wellFormed_iff.mp hw
  rw [parseVarint_bytes h] at hlen hdrop ⊢
  refine ⟨by omega, hdrop.symm, by omega, fun k hk => ?_, ?_, ?_, fun h10 => ?_⟩
  · exact continues_getD (by omega) rest
  · rw [hsize, Nat.add_sub_cancel, getD_last, continues_lastByte]
  · rw [List.take_left' (Laws.Size.varint v), map_groupOf_bytes, Varint.value_toNat hw]
  · rw [show 9 = v.conts.length by omega, getD_last]
    exact lastByte_of_le_one (by omega)

end Sys2Proof

/-! ### Elements out of place, and the placed word (O32, O34) -/

namespace Sys2Proof.Machine
open State

/-- Settles O32: the meaning of every stream element is `inPlace` of it. -/
theorem elementOutOfPlace : Obligations.ElementOutOfPlace := by
  unfold Obligations.ElementOutOfPlace
  intro s i bs hi hat
  cases i with
  | clr => cases hi
  | decI32 => cases hi
  | decI64 => cases hi
  | decBa => cases hi
  | illegal w => cases hi
  | _ => exact inPlace_refused hat _

/-- A word placed for CMD is written there next, the unit not BUSY and the memories as they were (log 22). -/
theorem placeCommand_eq (w : Word) (s : State) : ∃ t : State, t.Ready ∧ t.env = s.env ∧ t.mem = s.mem ∧
    s.placeCommand w = { t with env.host := .writeReg 0 w :: t.env.host } := by
  by_cases hb : s.regs.status = .busy
  · exact ⟨{ s with regs.status := .idle, diu.dstate := .idle, dbr.bstate := .idle }, Status.noConfusion, rfl, rfl,
      by simp [placeCommand, hb]⟩
  · exact ⟨s, hb, rfl, rfl, by simp [placeCommand, hb]⟩

/-- A placed byte is the whole page, and the unit stands at its lone position (log 17, log 22). -/
theorem placeByte_position (b : Byte) (s : State) : (s.placeByte b).popHost.position = some (lonePos b) := rfl

theorem placeByte_page (b : Byte) (s : State) : (s.placeByte b).popHost.page = [b] := by
  simp [page, placeByte, popHost, Memory.readList]

/-- The element that is read from the page at the cursor stands in its place. -/
theorem at_of_decodeElement {s : State} {pos : Pos} {i : Instr} {rest : List Byte} (hp : s.position = some pos)
    (hd : decodeElement pos s.page = .ok (i, rest)) : s.At i :=
  (fetch_ok hp (by rw [fetch, hd]; rfl)).1

theorem decodeTableWord_byte {w : Nat} {i : Instr} (h : decodeTableWord 8 w = some i) :
    ∃ rest, decodeElement (lonePos (BitVec.ofNat 8 w)) [BitVec.ofNat 8 w] = .ok (i, rest) := by
  rw [decodeTableWord, if_neg (by decide), if_pos rfl] at h
  split at h
  · next j rest hd => cases h; exact ⟨rest, hd⟩
  · cases h

/-- Settles O34: the command word is taken by the host port, the byte by the unit. -/
theorem placedWordRuns : Obligations.PlacedWordRuns := by
  unfold Obligations.PlacedWordRuns
  refine ⟨fun s w => ?_, fun s w i h => ?_⟩
  · obtain ⟨t, hr, he, hm, ht⟩ := placeCommand_eq (BitVec.ofNat 32 w) s
    refine ⟨t, hr, he, hm, ?_⟩
    show step (s.placeCommand (BitVec.ofNat 32 w)) = _
    rw [ht]
    rfl
  · obtain ⟨rest, hd⟩ := decodeTableWord_byte h
    rw [← placeByte_page _ s] at hd
    have hp := placeByte_position (BitVec.ofNat 8 w) s
    refine ⟨_, at_of_decodeElement hp hd, ?_⟩
    show step (s.placeByte (BitVec.ofNat 8 w)) = _
    rw [step_of_unitMoves rfl]
    exact unitStep_decodes hp hd

end Sys2Proof.Machine

/-! ### CLR and the illegal command words (O12, O13) -/

namespace Sys2Proof.Machine

/-- While not BUSY, CLR leaves everything but STATE and ERR as it is (R91). -/
theorem exec_clr_ready {s : State} (hr : s.Ready) : exec .clr s = .next { s with regs.status := .idle } := if_neg hr

/-- Settles O12: not BUSY by the rule of CLR, BUSY by that of every command word (R96), of which CLR's is 0. -/
theorem clrResult : Obligations.ClrResult := by
  unfold Obligations.ClrResult
  exact fun s => ⟨exec_clr_ready, fun hb => exec_command_busy hb 0⟩

/-- While not BUSY, an illegal word leaves everything but STATE and ERR as it is, whatever the word (R95). -/
theorem exec_illegal_ready {s : State} (hr : s.Ready) (w : Word) :
    exec (.illegal w) s = .next { s with regs.status := .error .illegalCommand } := if_neg hr

/-- A word that R62 does not list is an illegal command (R63). -/
theorem decodeCommand_unlisted {w : Word} (h0 : w ≠ 0) (h1 : w ≠ 1) (h2 : w ≠ 2) (h3 : w ≠ 3) :
    decodeCommand w = .illegal w := by
  obtain h | h | h | h | habove := word_cases w
  · exact absurd h h0
  · exact absurd h h1
  · exact absurd h h2
  · exact absurd h h3
  · exact decodeCommand_above habove

/-- A write to CMD runs the command its word encodes (R11). -/
theorem hostStep_writeCmd (w : Word) (s : State) :
    hostStep (.writeReg offCmd w) s = exec (decodeCommand w) s := by
  rw [hostStep, if_pos rfl]

/-- Settles O13: the host's write of an unlisted word is the illegal command, whose effect is R95's. -/
theorem illegalCommandResult : Obligations.IllegalCommandResult := by
  unfold Obligations.IllegalCommandResult
  intro s w hr h0 h1 h2 h3
  have hexec := exec_illegal_ready hr w
  exact ⟨hexec, by rw [hostStep_writeCmd, decodeCommand_unlisted h0 h1 h2 h3, hexec]⟩

end Sys2Proof.Machine

/-! ### The primitives on values: varint, zig-zag, bit-pack reader, accumulator, Emit (O6, O15 to O18) -/

namespace Sys2Proof.Machine
open State

/-! #### The two errors of a varint (R111) -/

/-- The end of the page before a final byte and before a 10th byte, `k` bytes having been read (R110, R111). -/
theorem readVarintFrom_eof_iff {k : Nat} (hk : k ≤ 9) (v : DWord) (bs : List Byte) :
    readVarintFrom k v bs = .error .unexpectedEOF ↔ k + bs.length < 10 ∧ ∀ b ∈ bs, continues b = true := by
  induction bs generalizing k v with
  | nil => simp; omega
  | cons b bs ih =>
    rcases Nat.lt_or_eq_of_le hk with hk | rfl
    · rw [readVarintFrom_cons hk]
      by_cases hc : continues b = true
      · rw [if_pos hc, ih hk]
        simp [hc, Nat.add_assoc, Nat.add_comm 1]
      · simp [hc]
    · rw [readVarintFrom_tenth]
      exact iff_of_false (by split <;> simp) fun ⟨hlen, _⟩ => absurd hlen (by rw [List.length_cons]; omega)

/-- A 10th byte above 1 after bytes that all continue, `k` bytes having been read (R70, R111). -/
theorem readVarintFrom_malformed_iff {k : Nat} (hk : k ≤ 9) (v : DWord) (bs : List Byte) :
    readVarintFrom k v bs = .error .malformedHeader ↔
      10 ≤ k + bs.length ∧ (∀ b ∈ bs.take (9 - k), continues b = true) ∧ 1 < (bs.getD (9 - k) 0).toNat := by
  induction bs generalizing k v with
  | nil => simp
  | cons b bs ih =>
    rcases Nat.lt_or_eq_of_le hk with hk | rfl
    · rw [readVarintFrom_cons hk, show 9 - k = 9 - (k + 1) + 1 by omega, List.take_succ_cons, List.getD_cons_succ]
      by_cases hc : continues b = true
      · rw [if_pos hc, ih hk]
        simp [hc, Nat.add_assoc, Nat.add_comm 1]
      · simp [hc]
    · rw [readVarintFrom_tenth]
      split
      · next hb => exact iff_of_false (by simp) fun ⟨_, _, hlt⟩ => absurd hlt (Nat.not_lt.mpr hb)
      · next hb => exact iff_of_true rfl ⟨by rw [List.length_cons]; omega, by simp, Nat.not_le.mp hb⟩

/-- Settles O6: a varint that is read has the format of R70; the errors by the two lemmas above, no byte being read. -/
theorem readVarint : Obligations.ReadVarint := by
  unfold Obligations.ReadVarint
  intro bs
  refine ⟨fun u rest h => ?_, ?_, ?_, fun e h => ?_⟩
  · unfold readUvarint at h
    split at h
    · next v r hv =>
      cases h
      obtain ⟨h10, hdrop, hlen, hcont, hlast, hsum, _⟩ := varintFormat bs rest v hv
      exact ⟨v.size, varint_size_pos v, h10, hlen, hdrop.symm, hcont, hlast, hsum⟩
    · cases h
  · rw [← readVarintFrom_zero, readVarintFrom_eof_iff (Nat.zero_le 9), Nat.zero_add]
  · rw [← readVarintFrom_zero, readVarintFrom_malformed_iff (Nat.zero_le 9), Nat.zero_add]
  · unfold readUvarint at h
    split at h
    · cases h
    · next e' _ =>
      cases h
      cases e' with
      | endOfPage => exact .inl rfl
      | varintTooLong => exact .inr rfl

/-! #### Zig-zag (R112) -/

/-- An even number is halved. -/
theorem zigZag64_toInt_even {u : DWord} {k : Nat} (h : u.toNat = 2 * k) : (zigZag64 u).toInt = k := by
  have hbit : u &&& 1 = 0 := by
    apply BitVec.eq_of_toNat_eq
    simp [Nat.and_one_is_mod, h]
  have hz : zigZag64 u = u >>> 1 := by
    rw [zigZag64, hbit, show (0 - 0 : DWord) = 0#64 from rfl, BitVec.xor_zero]
  have hhalf : (u >>> 1).toNat = k := by rw [BitVec.toNat_ushiftRight, Nat.shiftRight_eq_div_pow]; omega
  rw [hz, BitVec.toInt_eq_toNat_of_lt (by omega), hhalf]

/-- An odd number is halved and complemented. -/
theorem zigZag64_toInt_odd {u : DWord} {k : Nat} (h : u.toNat = 2 * k + 1) :
    (zigZag64 u).toInt = -((k : Int) + 1) := by
  have hbit : u &&& 1 = 1 := by
    apply BitVec.eq_of_toNat_eq
    simp [Nat.and_one_is_mod, h]
  have hz : zigZag64 u = ~~~(u >>> 1) := by
    rw [zigZag64, hbit, show (0 - 1 : DWord) = BitVec.allOnes 64 from rfl, BitVec.xor_allOnes]
  have hhalf : (u >>> 1).toNat = k := by rw [BitVec.toNat_ushiftRight, Nat.shiftRight_eq_div_pow]; omega
  have hu := u.isLt
  rw [hz, BitVec.toInt_eq_toNat_cond, BitVec.toNat_not, hhalf, if_neg (by omega)]
  omega

/-- Even numbers go to different numbers from 0 up, odd ones to different numbers below 0. -/
theorem zigZag64_injective : Function.Injective zigZag64 := by
  intro u v h
  have hint := congrArg BitVec.toInt h
  apply BitVec.eq_of_toNat_eq
  obtain ⟨k, hu | hu⟩ := Nat.even_or_odd' u.toNat <;> obtain ⟨j, hv | hv⟩ := Nat.even_or_odd' v.toNat
  · rw [zigZag64_toInt_even hu, zigZag64_toInt_even hv] at hint; omega
  · rw [zigZag64_toInt_even hu, zigZag64_toInt_odd hv] at hint; omega
  · rw [zigZag64_toInt_odd hu, zigZag64_toInt_even hv] at hint; omega
  · rw [zigZag64_toInt_odd hu, zigZag64_toInt_odd hv] at hint; omega

/-- Settles O15: the two parities, and an injective map of a finite type is bijective. -/
theorem zigZagMap : Obligations.ZigZagMap := by
  unfold Obligations.ZigZagMap
  exact ⟨fun _ _ => zigZag64_toInt_even, fun _ _ => zigZag64_toInt_odd,
    Finite.injective_iff_bijective.mp zigZag64_injective⟩

/-! #### The bit-pack reader (R116) -/

/-- Bit `n` of a payload is bit `n` of the little-endian number it stands for. -/
theorem payloadBit_eq_testBit (payload : List Byte) (n : Nat) : payloadBit payload n = (leNat payload).testBit n := by
  induction payload generalizing n with
  | nil => simp [payloadBit, leNat]
  | cons b bs ih =>
    rw [leNat, Nat.add_comm, Nat.testBit_two_pow_mul_add _ b.isLt]
    by_cases hn : n < 8
    · rw [if_pos hn, payloadBit, Nat.div_eq_of_lt hn, Nat.mod_eq_of_lt hn, BitVec.testBit_toNat]
      rfl
    · obtain ⟨m, rfl⟩ : ∃ m, n = m + 8 := ⟨n - 8, by omega⟩
      rw [if_neg hn, Nat.add_sub_cancel, ← ih]
      simp [payloadBit]

/-- `w` bits from bit `n` on are the number shifted right by `n` and masked to `w` bits. -/
theorem bitsFrom_eq (payload : List Byte) (n w : Nat) : bitsFrom payload n w = leNat payload / 2 ^ n % 2 ^ w := by
  induction w generalizing n with
  | zero => simp [bitsFrom, Nat.mod_one]
  | succ w ih =>
    rw [bitsFrom, ih, payloadBit_eq_testBit, Nat.toNat_testBit, Nat.pow_succ, Nat.pow_succ', Nat.mod_mul,
      Nat.div_div_eq_div_mul]

theorem unpack_toNat {w : Nat} (hw : w ≤ 64) (payload : List Byte) (j : Nat) :
    (unpack payload j w).toNat = leNat payload / 2 ^ (j * w) % 2 ^ w := by
  have hlt : bitsFrom payload (j * w) w < 2 ^ 64 := by
    rw [bitsFrom_eq]
    exact (Nat.mod_lt _ (Nat.two_pow_pos w)).trans_le (Nat.pow_le_pow_right (by decide) hw)
  rw [unpack, BitVec.toNat_ofNat, Nat.mod_eq_of_lt hlt, bitsFrom_eq]

theorem unpack_getLsbD {w t : Nat} (hw : w ≤ 64) (ht : t < w) (payload : List Byte) (j : Nat) :
    (unpack payload j w).getLsbD t = payloadBit payload (j * w + t) := by
  rw [payloadBit_eq_testBit, ← BitVec.testBit_toNat, unpack_toNat hw, Nat.testBit_mod_two_pow,
    Nat.testBit_div_two_pow, Nat.add_comm t]
  simp [ht]

/-- Settles O16: the field as a number, and its bits as bits of the payload. -/
theorem unpackField : Obligations.UnpackField := by
  unfold Obligations.UnpackField
  exact fun payload j w hw _ => ⟨unpack_toNat hw payload j, fun t ht => unpack_getLsbD hw ht payload j⟩

/-! #### The accumulator (R117) -/

theorem accumulate_toNat (w : Width) (m run u : DWord) :
    (accumulate w m run u).toNat = (run.toNat + (m.toNat + u.toNat)) % 2 ^ w.bits := by
  rw [accumulate, truncW_toNat, BitVec.toNat_add, truncW_toNat, BitVec.toNat_add]
  cases w <;> simp only [Width.bits] <;> omega

/-- Value `i` is RUN and the deltas up to `i`, modulo 2^W. -/
theorem accumulateAll_getD_toNat (w : Width) (m run : DWord) (us : List DWord) {i : Nat} (hi : i < us.length) :
    ((accumulateAll w m run us).getD i 0).toNat =
      (run.toNat + ((us.take (i + 1)).map fun u => m.toNat + u.toNat).sum) % 2 ^ w.bits := by
  induction us generalizing run i with
  | nil => simp at hi
  | cons u us ih =>
    cases i with
    | zero => simp [accumulateAll, accumulate_toNat]
    | succ i =>
      rw [accumulateAll, List.getD_cons_succ, ih _ (Nat.lt_of_succ_lt_succ hi), accumulate_toNat, Nat.mod_add_mod,
        List.take_succ_cons, List.map_cons, List.sum_cons, Nat.add_assoc]

/-- RUN after some values is the last of them. -/
theorem lastRun_eq_getD (run : DWord) {vs : List DWord} (h : 0 < vs.length) :
    lastRun run vs = vs.getD (vs.length - 1) 0 := by
  simp [lastRun, List.getLast?_eq_getElem?, List.getElem?_eq_getElem (Nat.sub_lt h Nat.one_pos)]

/-- Settles O17, by induction on the fields. -/
theorem accumulatedValues : Obligations.AccumulatedValues := by
  unfold Obligations.AccumulatedValues
  intro w m run us i hi
  refine ⟨accumulateAll_getD_toNat w m run us hi, ?_⟩
  rw [lastRun_eq_getD run (by rw [length_accumulateAll]; omega), length_accumulateAll]

/-! #### Emit (R118) -/

theorem leNat_append (as bs : List Byte) : leNat (as ++ bs) = leNat as + 2 ^ (8 * as.length) * leNat bs := by
  induction as with
  | nil => simp [leNat]
  | cons a as ih =>
    have hpow : 2 ^ (8 * (as.length + 1)) = 2 ^ 8 * 2 ^ (8 * as.length) := by
      rw [Nat.mul_add, Nat.pow_add, Nat.mul_comm]
    rw [List.cons_append, leNat, leNat, ih, List.length_cons, hpow, Nat.mul_add, Nat.mul_assoc, Nat.add_assoc]

/-- The `n` low bytes of a value, read as a little-endian number, are the value modulo 2^(8n) (R42). -/
theorem leNat_leBytes (n : Nat) (v : DWord) : leNat (leBytes n v) = v.toNat % 2 ^ (8 * n) := by
  induction n with
  | zero => simp [leBytes, leNat, Nat.mod_one]
  | succ n ih =>
    have hsplit : leBytes (n + 1) v = leBytes n v ++ [v.extractLsb' (8 * n) 8] := by
      simp [leBytes, List.range_succ]
    rw [hsplit, leNat_append, ih, length_leBytes, Nat.mul_succ, Nat.pow_add, Nat.mod_mul]
    simp [leNat, Nat.shiftRight_eq_div_pow]

@[simp] theorem emitAll_singleton (v : DWord) (s : State) : s.emitAll [v] = s.emit v := by
  cases h : s.emit v <;> simp [emitAll, h]

/-- Settles O18: the bytes stored are the value's, and Emit is that of a list of one value. -/
theorem emitOne : Obligations.EmitOne := by
  unfold Obligations.EmitOne
  refine ⟨fun w v => by rw [leNat_leBytes, ← w.bits_eq], fun s v hl hroom => ?_⟩
  simpa using emitAll_sinkGets (vs := [v]) hl hroom

end Sys2Proof.Machine

/-! ### Varint fields, width bytes and miniblocks (O21 to O25, O27) -/

namespace Sys2Proof.Machine
open State

/-! #### A varint byte, and a completed field (R111) -/

/-- Settles O21: VARINT.CONT in its place is one turn of the loop of R111. -/
theorem varintContResult : Obligations.VarintContResult := by
  unfold Obligations.VarintContResult
  intro s g ha
  rw [exec, execVarintCont, inPlace_at ha]
  rfl

/-- The cursor past `n` bytes, and `m` the model's own fields after them (log 18). -/
def State.pastBytes (n : Nat) (m : Micro) (s : State) : State := { s.advance n with micro := m }

/-- A varint read whole by the element `mk`, or its final byte, of value `u` and `n` bytes, is the field of value `u`
taken after those bytes; which header field it is does not change. -/
theorem exec_field {s : State} {i : Instr} {u : DWord} {n : Nat} (mk : Varint → Instr)
    (hmk : ∀ v, exec (mk v) s = inPlace (mk v) s (takeField v.value (s.advance v.size))) (ha : s.At i)
    (hi : (∃ v : Varint, i = mk v ∧ u = v.value ∧ n = v.size) ∨
      (∃ g, i = .varintLast g ∧ u = (s.micro.vrValue ||| (g.setWidth 64 <<< (7 * s.micro.vrCount))) ∧ n = 1) ∨
      (∃ v, i = .varintLast10 v ∧ u = (s.micro.vrValue ||| (v.setWidth 64 <<< 63)) ∧ n = 1)) :
    ∃ m : Micro, m.hdrField = s.micro.hdrField ∧ exec i s = takeField u (s.pastBytes n m) := by
  rcases hi with ⟨v, rfl, rfl, rfl⟩ | ⟨g, rfl, rfl, rfl⟩ | ⟨v, rfl, rfl, rfl⟩
  · exact ⟨s.micro, rfl, by rw [hmk, inPlace_at ha]; rfl⟩
  · exact ⟨s.clearVarint.micro, rfl, by rw [exec, execVarintLast, inPlace_at ha]; rfl⟩
  · refine ⟨s.clearVarint.micro, rfl, ?_⟩
    have hbit : (v.setWidth 7).setWidth 64 = v.setWidth 64 := by
      apply BitVec.eq_of_toNat_eq
      simp only [BitVec.toNat_setWidth]
      omega
    rw [exec, execVarintLast10, inPlace_at ha, addGroup, hbit]
    rfl

/-- In D_HDR the last field completes the header (R131, R132). -/
theorem takeField_first {s : State} (hd : s.diu.dstate = .hdr) (hf : s.micro.hdrField = .first) (u : DWord) :
    takeField u s = finishHeader (zzValue s.diu.wSel u) s := by
  simp [takeField, hd, hf]

/-- In D_BLK a field is the min delta (R134). -/
theorem takeField_blk {s : State} (hd : s.diu.dstate = .blk) (u : DWord) :
    takeField u s =
      .next { s with diu.minDelta := zzValue s.diu.wSel u, diu.dstate := .wid, micro.widthIdx := 0 } := by
  simp [takeField, hd]

/-- Settles O22: the three registers by the cases of a completed field. -/
theorem headerFields : Obligations.HeaderFields := by
  unfold Obligations.HeaderFields
  intro s i u n ha hd hi hne
  obtain ⟨m, hm, hexec⟩ := exec_field .uvarint (fun _ => rfl) ha hi
  rw [hexec]
  rcases takeField_cases u (s.pastBytes n m) with
    ⟨_, hk, h⟩ | ⟨_, hk, h⟩ | ⟨_, hk, h⟩ | ⟨_, hk, _⟩ | ⟨hblk, _⟩ | ⟨hhdr, _⟩
  case inr.inr.inr.inl => exact absurd (hm.symm.trans hk) hne
  case inr.inr.inr.inr.inl => exact absurd (hd.symm.trans hblk) (by decide)
  case inr.inr.inr.inr.inr => exact absurd hd hhdr
  all_goals
    rw [← hm, show m.hdrField = _ from hk]
    exact ⟨_, h, rfl, rfl, rfl, rfl, rfl, rfl⟩

/-- Settles O24: a completed field in D_BLK is the min delta. -/
theorem blockMinDelta : Obligations.BlockMinDelta := by
  unfold Obligations.BlockMinDelta
  intro s i u n ha hd hi
  obtain ⟨m, _, hexec⟩ := exec_field .blkMin (fun _ => rfl) ha hi
  exact ⟨_, hexec.trans (takeField_blk (s := s.pastBytes n m) hd u), rfl, rfl, rfl, rfl, rfl, rfl, truncW_toNat _ _⟩

/-! #### The header's checks (R132) -/

theorem isPowerOfTwo_iff (x : DWord) : isPowerOfTwo x = true ↔ ∃ k, x.toNat = 2 ^ k := by
  rcases Nat.eq_zero_or_pos x.toNat with h0 | hpos
  · rw [show x = 0 from BitVec.eq_of_toNat_eq h0]
    refine iff_of_false (by decide) fun ⟨k, hk⟩ => absurd hk (Nat.two_pow_pos k).ne
  · have hne : x ≠ 0 := fun h => by simp [h] at hpos
    have hsub : (x - 1).toNat = x.toNat - 1 := by
      rw [BitVec.toNat_sub, show (1 : DWord).toNat = 1 from rfl]
      omega
    have hand : x &&& (x - 1) = 0 ↔ x.toNat &&& (x.toNat - 1) = 0 := by
      rw [← BitVec.toNat_inj, BitVec.toNat_and, hsub]
      rfl
    simp only [isPowerOfTwo, Bool.and_eq_true, bne_iff_ne, beq_iff_eq, ne_eq, hne, not_false_eq_true, true_and, hand]
    exact Nat.and_sub_one_eq_zero_iff_isPowerOfTwo hpos.ne'

/-- The format of a header is what its checks 1 to 5 test. -/
theorem headerFormat_iff (b m t : DWord) :
    headerFormat b m t ↔
      m ≠ 0 ∧ b ≠ 0 ∧ b.toNat % m.toNat = 0 ∧ isPowerOfTwo (b / m) = true ∧ 8 ≤ (b / m).toNat ∧
        t.toNat ≤ 2 ^ 31 - 1 := by
  rw [isPowerOfTwo_iff, BitVec.toNat_udiv]
  constructor
  · rintro ⟨hm, ⟨k, hk, hb⟩, ht⟩
    have hdiv : b.toNat / m.toNat = 2 ^ k := by rw [hb, Nat.mul_div_cancel_left _ hm]
    have h8 : 8 ≤ 2 ^ k := Nat.pow_le_pow_right (n := 2) (by decide) hk
    refine ⟨fun h => by simp [h] at hm, fun h => ?_, by rw [hb, Nat.mul_mod_right], ⟨k, hdiv⟩, hdiv ▸ h8, ht⟩
    rw [h, show (0 : DWord).toNat = 0 from rfl, Nat.zero_div] at hdiv
    exact absurd hdiv (Nat.two_pow_pos k).ne
  · rintro ⟨hm, _, hmod, ⟨k, hk⟩, h8, ht⟩
    have hk3 : 3 ≤ k := (Nat.pow_le_pow_iff_right (a := 2) (by decide)).mp (hk ▸ h8)
    exact ⟨Nat.pos_of_ne_zero fun h => hm (BitVec.eq_of_toNat_eq h),
      ⟨k, hk3, by rw [← hk, Nat.mul_div_cancel' (Nat.dvd_of_mod_eq_zero hmod)]⟩, ht⟩

/-- A header of another format fails one of checks 1 to 5. -/
theorem headerError_of_not_format {p : Config.Instance} {cap : Nat} {b m t : DWord} (h : ¬ headerFormat b m t) :
    headerError p cap b m t = some .malformedHeader := by
  simp only [headerError, ite_eq_left_iff]
  intro hm hb hmod hpow ht
  simp only [Bool.or_eq_true, Bool.not_eq_true', decide_eq_true_eq, not_or, Bool.not_eq_false, Nat.not_lt] at hpow
  exact absurd ((headerFormat_iff b m t).mpr ⟨hm, hb, not_not.mp hmod, hpow.1, hpow.2, Nat.not_lt.mp ht⟩) h

/-- On a header of the format checks 6 and 7 decide. -/
theorem headerError_of_format {p : Config.Instance} {cap : Nat} {b m t : DWord} (h : headerFormat b m t) :
    headerError p cap b m t =
      if p.maxBlockSize < b.toNat then some .capacityExceeded
      else if cap < t.toNat then some .capacityExceeded else none := by
  obtain ⟨hm, hb, hmod, hpow, h8, ht⟩ := (headerFormat_iff b m t).mp h
  rw [headerError, if_neg hm, if_neg hb, if_neg (not_not.mpr hmod), hpow, if_neg (by simpa [Config.minMbSize] using h8),
    if_neg (show ¬ Config.maxTotal < _ from Nat.not_lt.mpr ht)]

theorem headerError_of_fits {p : Config.Instance} {cap : Nat} {b m t : DWord} (h : headerFormat b m t)
    (hfits : headerFits p cap b t) : headerError p cap b m t = none := by
  obtain ⟨hb, ht⟩ := hfits
  rw [headerError_of_format h, if_neg (Nat.not_lt.mpr hb), if_neg (Nat.not_lt.mpr ht)]

theorem headerError_of_not_fits {p : Config.Instance} {cap : Nat} {b m t : DWord} (h : headerFormat b m t)
    (hfits : ¬ headerFits p cap b t) : headerError p cap b m t = some .capacityExceeded := by
  rw [headerError_of_format h]
  simp only [ite_eq_left_iff]
  intro hb ht
  exact absurd ⟨Nat.not_lt.mp hb, Nat.not_lt.mp ht⟩ hfits

/-- Settles O23: the first value ends the header, whose registers the lemmas above judge. -/
theorem firstValue : Obligations.FirstValue := by
  unfold Obligations.FirstValue
  intro s i u n hI ha hd hf hi
  obtain ⟨m, hm, hexec⟩ := exec_field .zzvarint (fun _ => rfl) ha hi
  obtain ⟨_, hpos, _⟩ := ha.pos
  obtain ⟨_, _, hok⟩ := hI.running (position_busy hpos)
  simp only [hd] at hok
  obtain ⟨hsink, hemitted, _⟩ := hok
  rw [hexec, takeField_first (s := s.pastBytes n m) hd (hm.trans hf)]
  rcases finishHeader_ends (s := s.pastBytes n m) _ hI.legal hsink hemitted with
    ⟨e, he, h⟩ | ⟨hn, t, h, hends⟩
  · refine ⟨_, h, fun hform hfits => ?_, fun hform hfits => ?_, fun hform => ?_⟩
    · exact absurd (he.symm.trans (headerError_of_fits hform hfits)) (Option.some_ne_none e)
    · obtain rfl := Option.some.inj (he.symm.trans (headerError_of_not_fits hform hfits))
      rfl
    · obtain rfl := Option.some.inj (he.symm.trans (headerError_of_not_format hform))
      rfl
  · refine ⟨t, h, fun _ _ => ⟨m, hends⟩, fun hform hfits => ?_, fun hform => ?_⟩
    · exact absurd (hn.symm.trans (headerError_of_not_fits hform hfits)) (Option.some_ne_none _).symm
    · exact absurd (hn.symm.trans (headerError_of_not_format hform)) (Option.some_ne_none _).symm

/-! #### Width bytes (R114, R135) -/

/-- A width byte in its place goes to the entry of WIDTHS that is next. -/
theorem exec_blkWidth_ends {s : State} {b : Byte} (hI : s.Inv) (ha : s.At (.blkWidth b)) :
    ∃ t, exec (.blkWidth b) s = .next t ∧ WidthEnds s t b := by
  obtain ⟨p, hpos, hfit⟩ := ha.pos
  obtain rfl : p = .blkWidth := eq_of_beq hfit
  obtain ⟨hb, hd⟩ := position_blkWidth hpos
  obtain ⟨_, _, hok⟩ := hI.running hb
  simp only [hd] at hok
  obtain ⟨_, hbl, _, _, _, hidx⟩ := hok
  obtain ⟨_, hcount⟩ := headerError_mbCount hbl.legal
  rw [exec, execBlkWidth, inPlace_at ha]
  dsimp only
  rw [if_pos (by omega)]
  by_cases hlast : s.micro.widthIdx + 1 = s.diu.mbCount.toNat
  · rw [if_pos hlast]
    exact ⟨_, rfl, rfl, rfl, rfl, rfl, rfl, rfl, .inr ⟨hlast, rfl⟩⟩
  · rw [if_neg hlast]
    exact ⟨_, rfl, rfl, rfl, rfl, rfl, rfl, rfl, .inl ⟨hlast, rfl, rfl⟩⟩

/-- Settles O25, by whether the byte is the last of the block. -/
theorem widthByte : Obligations.WidthByte := by
  unfold Obligations.WidthByte
  intro s w hI ha
  obtain ⟨t, h, ht⟩ := exec_blkWidth_ends hI ha
  refine ⟨t, h, ht.regs, ht.mem, ht.dbr, ht.env, ?_⟩
  rcases ht.next with ⟨hmore, hidx, hdiu⟩ | ⟨hlast, hdiu⟩
  · rw [hdiu]
    exact ⟨wrote_write _ _ _ _, fun hlast => absurd hlast hmore, fun _ => ⟨rfl, hidx⟩⟩
  · rw [hdiu]
    exact ⟨wrote_write _ _ _ _, fun _ => rfl, fun hmore => absurd hlast hmore⟩

/-! #### Miniblocks (R136, R137) -/

/-- In D_PAY the sink has room for the values of the next miniblock, and neither counter that it moves wraps (R119). -/
theorem miniblock_room {s : State} (hI : s.Inv) (hb : s.isBusy) (hd : s.diu.dstate = .pay) :
    s.diu.emitted.toNat + s.mbYield ≤ sinkCapOf s.env.inst s.diu.wSel s.diu.sink ∧
      (s.diu.remaining - BitVec.ofNat 32 s.mbYield).toNat = s.diu.remaining.toNat - s.mbYield ∧
      (s.diu.mbIdx + 1).toNat = s.diu.mbIdx.toNat + 1 := by
  obtain ⟨_, _, hok⟩ := hI.running hb
  simp only [hd] at hok
  obtain ⟨hs, hbl, _, _, _, _, hemitted⟩ := hok
  obtain ⟨_, _, _, _, _, _, _, hcap⟩ := headerError_none hbl.legal
  have hcount := hbl.counted
  have hleft := ne_zero_pos hbl.some_left
  have hlt := s.diu.sinkCap.isLt
  have hyield : s.mbYield ≤ s.diu.remaining.toNat := Nat.min_le_right _ _
  refine ⟨by rw [← hs.1]; omega, ?_, Word.toNat_add_one (by omega)⟩
  rw [BitVec.toNat_sub, BitVec.toNat_ofNat]
  omega

/-- The test on REMAINING of R137, on numbers. -/
theorem afterMiniblock_eq (remaining : Word) (mbIdx mbCount : Nat) :
    afterMiniblock remaining mbIdx mbCount =
      if remaining.toNat = 0 then .done else if mbIdx = mbCount then .blk else .pay := by
  have hz : remaining = 0 ↔ remaining.toNat = 0 := BitVec.toNat_inj.symm
  simp only [afterMiniblock, hz]

/-- Settles O27: with both checks of R136 passed, the values go to the sink, which has room. -/
theorem miniblockResult : Obligations.MiniblockResult := by
  unfold Obligations.MiniblockResult
  intro s payload hI ha hw hlen hpage
  obtain ⟨p, hpos, hfit⟩ := ha.pos
  cases p with
  | mb n =>
    obtain ⟨hb, hd, _⟩ := position_mb hpos
    obtain ⟨hroom, hremaining, hmbIdx⟩ := miniblock_room hI hb hd
    obtain ⟨t, ht, hget, et⟩ := emitAll_sinkGets
      (vs := accumulateAll s.diu.wSel s.diu.minDelta s.diu.run (fields payload s.mbWidth s.mbYield)) hI.legal
      (by rwa [length_accumulateAll, length_fields])
    have hbytes : payloadBytes s.diu.mbSize.toNat s.mbWidth = payload.length := hlen.symm
    rw [exec, execMb, inPlace_at ha]
    dsimp only
    rw [if_neg (Nat.not_lt.mpr hw), hbytes, if_neg (Nat.not_lt.mpr hpage), if_neg (not_not.mpr rfl), ← mbYield, ht,
      orOutside_some]
    refine ⟨_, rfl, ⟨hget.emitted, hget.sink, hget.src, hget.ofs⟩, ?_, ?_, hremaining, hmbIdx,
      afterMiniblock_eq _ _ _, ?_, ?_, ?_, ?_⟩
    · rw [et]; rfl
    · exact (List.getLastD_eq_getLast? ..).symm
    · rw [et]; rfl
    · rw [et]; rfl
    · rw [et]; rfl
    · rw [et]; rfl
  | _ => cases hfit

end Sys2Proof.Machine

/-! ### The reference encoder, read back (O59) -/

namespace Sys2Proof.Machine

/-! #### The shortest varint, and zig-zag of a W-bit value (R75) -/

theorem length_conts_shortest (fuel : Nat) (v : DWord) : (shortest fuel v).conts.length ≤ fuel := by
  induction fuel generalizing v with
  | zero => exact Nat.le_refl 0
  | succ fuel ih =>
    rw [shortest]
    split
    · exact Nat.zero_le _
    · exact Nat.succ_le_succ (ih _)

/-- The groups of the shortest varint sum to the value, while there is fuel for all of them. -/
theorem groupSum_shortest {fuel : Nat} {v : DWord} (h : v.toNat < 2 ^ (7 * (fuel + 1))) :
    groupSum ((shortest fuel v).conts ++ [(shortest fuel v).last]) = v.toNat := by
  induction fuel generalizing v with
  | zero => simpa [shortest, groupSum] using h
  | succ fuel ih =>
    rw [shortest]
    split
    · next hsmall => simpa [groupSum] using hsmall
    · have hshift : (v >>> 7).toNat = v.toNat / 2 ^ 7 := by
        rw [BitVec.toNat_ushiftRight, Nat.shiftRight_eq_div_pow]
      have hpow : 2 ^ (7 * (fuel + 1 + 1)) = 2 ^ (7 * (fuel + 1)) * 2 ^ 7 := by rw [Nat.mul_add, Nat.pow_add]
      rw [List.cons_append, groupSum, ih (by omega), hshift, BitVec.toNat_setWidth, Nat.mod_add_div]

theorem shortest_wellFormed (v : DWord) : (shortest 9 v).wellFormed = true := by
  have hlen := length_conts_shortest 9 v
  have hsum := groupSum_shortest (fuel := 9) (v := v) (v.isLt.trans (by decide))
  rw [groupSum_append] at hsum
  refine (Varint.wellFormed_iff _).mpr ?_
  rcases Nat.lt_or_eq_of_le hlen with hlt | heq
  · exact .inl hlt
  · rw [heq] at hsum
    exact .inr ⟨heq, by omega⟩

/-- The bytes of the shortest varint are read back as its value (R75, R111). -/
theorem readUvarint_uvarintBytes (v : DWord) (rest : List Byte) :
    readUvarint (uvarintBytes v ++ rest) = .ok (v, rest) := by
  have hvalue : (shortest 9 v).value = v := BitVec.eq_of_toNat_eq
    ((Varint.value_toNat (shortest_wellFormed v)).trans (groupSum_shortest (v.isLt.trans (by decide))))
  rw [readUvarint, uvarintBytes, parseVarint_of_wellFormed (shortest_wellFormed v)]
  dsimp only
  rw [hvalue]

/-- The zig-zag map of R112 undoes the one of R75: an even number stands for a value from 0 up, an odd one for a
negative. -/
theorem zigZag64_zigZagOf (s : DWord) : zigZag64 (zigZagOf s) = s := by
  have hdouble : (s <<< 1).toNat = s.toNat * 2 % 2 ^ 64 := by rw [BitVec.toNat_shiftLeft, Nat.shiftLeft_eq]
  have hmsb := BitVec.msb_eq_decide s
  apply BitVec.eq_of_toInt_eq
  cases hs : s.msb with
  | false =>
    have hlt : s.toNat < 2 ^ 63 := by simpa [hs] using hmsb
    have hsign : s.sshiftRight 63 = 0 := by
      apply BitVec.eq_of_toNat_eq
      rw [BitVec.sshiftRight_eq_of_msb_false hs, BitVec.toNat_ushiftRight, Nat.shiftRight_eq_div_pow]
      exact Nat.div_eq_of_lt hlt
    have heven : (zigZagOf s).toNat = 2 * s.toNat := by
      rw [zigZagOf, hsign, show (0 : DWord) = 0#64 from rfl, BitVec.xor_zero, hdouble]
      omega
    rw [zigZag64_toInt_even heven, BitVec.toInt_eq_toNat_of_lt (by omega)]
  | true =>
    have hle : 2 ^ 63 ≤ s.toNat := by simpa [hs] using hmsb
    have hlt := s.isLt
    have hsign : s.sshiftRight 63 = BitVec.allOnes 64 := by
      have hzero : ~~~s >>> 63 = 0#64 := by
        apply BitVec.eq_of_toNat_eq
        rw [BitVec.toNat_ushiftRight, Nat.shiftRight_eq_div_pow, BitVec.toNat_not]
        exact Nat.div_eq_of_lt (by omega)
      rw [BitVec.sshiftRight_eq_of_msb_true hs, hzero, BitVec.not_zero]
    have hodd : (zigZagOf s).toNat = 2 * (2 ^ 64 - 1 - s.toNat) + 1 := by
      rw [zigZagOf, hsign, BitVec.xor_allOnes, BitVec.toNat_not, hdouble]
      omega
    rw [zigZag64_toInt_odd hodd, BitVec.toInt_eq_toNat_cond, if_neg (by omega)]
    omega

theorem truncW_signExtendW {w : Width} {v : DWord} (h : isWValue w v) : truncW w (signExtendW w v) = v := by
  cases w with
  | w32 =>
    apply BitVec.eq_of_toNat_eq
    rw [truncW_toNat, signExtendW, BitVec.toNat_signExtend, BitVec.toNat_setWidth, BitVec.toNat_setWidth]
    simp only [isWValue, Width.bits] at h ⊢
    split <;> omega
  | w64 => rfl

/-- A W-bit value written as a zig-zag varint is read back (R75, R113). -/
theorem readUvarint_zzvarintBytes {w : Width} {v : DWord} (h : isWValue w v) (rest : List Byte) :
    ∃ u, readUvarint (zzvarintBytes w v ++ rest) = .ok (u, rest) ∧ zzValue w u = v :=
  ⟨_, readUvarint_uvarintBytes _ rest, by rw [zzValue, zigZag64_zigZagOf, truncW_signExtendW h]⟩

/-! #### Deltas (R76) -/

theorem isWValue_truncW (w : Width) (v : DWord) : isWValue w (truncW w v) := truncW_lt w v

/-- The two additions modulo 2^W of R117 undo the two subtractions of R76. -/
theorem accumulate_delta {w : Width} {u : DWord} (h : isWValue w u) (m run : DWord) :
    accumulate w m run (truncW w (truncW w (u - run) - m)) = u := by
  apply BitVec.eq_of_toNat_eq
  rw [accumulate_toNat, truncW_toNat, BitVec.toNat_sub, truncW_toNat, BitVec.toNat_sub]
  unfold isWValue at h
  cases w <;> simp only [Width.bits] at * <;> omega

/-- The fields of the deltas over `vs` accumulate to `vs`, whatever is taken as the least delta. -/
theorem accumulateAll_deltasFrom {w : Width} (m : DWord) {vs : List DWord} (h : ∀ v ∈ vs, isWValue w v)
    (run : DWord) :
    accumulateAll w m run ((deltasFrom w run vs).map fun d => truncW w (d - m)) = vs := by
  induction vs generalizing run with
  | nil => rfl
  | cons v vs ih =>
    obtain ⟨hv, hvs⟩ := List.forall_mem_cons.mp h
    rw [deltasFrom, List.map_cons, accumulateAll, accumulate_delta hv, ih hvs]

@[simp] theorem length_deltasFrom (w : Width) (v : DWord) (vs : List DWord) :
    (deltasFrom w v vs).length = vs.length := by
  induction vs generalizing v with
  | nil => rfl
  | cons u us ih => simp [deltasFrom, ih]

@[simp] theorem lastRun_cons (run v : DWord) (vs : List DWord) : lastRun run (v :: vs) = lastRun v vs := by
  simp [lastRun, List.getLast?_cons]

theorem lastRun_append (run : DWord) (us vs : List DWord) :
    lastRun run (us ++ vs) = lastRun (lastRun run us) vs := by
  simp [lastRun, List.getLast?_append, Option.getD_or]

theorem take_deltasFrom (w : Width) (v : DWord) (vs : List DWord) (n : Nat) :
    (deltasFrom w v vs).take n = deltasFrom w v (vs.take n) := by
  induction vs generalizing v n with
  | nil => simp [deltasFrom]
  | cons u us ih => cases n <;> simp [deltasFrom, ih]

theorem drop_deltasFrom (w : Width) (v : DWord) (vs : List DWord) (n : Nat) :
    (deltasFrom w v vs).drop n = deltasFrom w (lastRun v (vs.take n)) (vs.drop n) := by
  induction vs generalizing v n with
  | nil => simp [deltasFrom]
  | cons u us ih =>
    cases n with
    | zero => rfl
    | succ n => simp [deltasFrom, ih]

theorem isWValue_of_mem_deltasFrom {w : Width} {v d : DWord} {vs : List DWord} (h : d ∈ deltasFrom w v vs) :
    isWValue w d := by
  induction vs generalizing v with
  | nil => cases h
  | cons u us ih =>
    rcases List.mem_cons.mp h with rfl | h
    · exact isWValue_truncW w _
    · exact ih h

theorem isWValue_signedMin {w : Width} {a b : DWord} (ha : isWValue w a) (hb : isWValue w b) :
    isWValue w (signedMin w a b) := by
  unfold signedMin
  split
  · exact ha
  · exact hb

theorem isWValue_leastDelta {w : Width} {ds : List DWord} (h : ∀ d ∈ ds, isWValue w d) :
    isWValue w (leastDelta w ds) := by
  cases ds with
  | nil => exact Nat.two_pow_pos w.bits
  | cons d ds =>
    obtain ⟨hd, hds⟩ := List.forall_mem_cons.mp h
    exact List.foldlRecOn ds (signedMin w) hd fun _ hacc _ hmem => isWValue_signedMin hacc (hds _ hmem)

/-! #### A payload (R67, R116) -/

/-- The width of a group of fields is the least that holds each of them (R76). -/
theorem widthOf_le_iff (us : List DWord) (n : Nat) : widthOf us ≤ n ↔ ∀ u ∈ us, u.toNat < 2 ^ n := by
  have h : ∀ k, us.foldl (fun n u => max n u.toNat.size) k ≤ n ↔ k ≤ n ∧ ∀ u ∈ us, u.toNat < 2 ^ n := by
    induction us with
    | nil => simp
    | cons u us ih => simp [ih, Nat.size_le, and_assoc]
  rw [widthOf, h]
  simp

@[simp] theorem length_natBytes (n x : Nat) : (natBytes n x).length = n := by
  induction n generalizing x with
  | zero => rfl
  | succ n ih => simp [natBytes, ih]

theorem leNat_natBytes (n x : Nat) : leNat (natBytes n x) = x % 2 ^ (8 * n) := by
  induction n generalizing x with
  | zero => simp [natBytes, leNat, Nat.mod_one]
  | succ n ih => 
    rw [natBytes, leNat, ih, BitVec.toNat_ofNat, Nat.mul_succ, Nat.add_comm (8 * n), Nat.pow_add, Nat.mod_mul]

theorem packNat_lt {w : Nat} {us : List DWord} (h : ∀ u ∈ us, u.toNat < 2 ^ w) :
    packNat w us < 2 ^ (w * us.length) := by
  induction us with
  | nil => simp [packNat]
  | cons u us ih =>
    obtain ⟨hu, hus⟩ := List.forall_mem_cons.mp h
    have hrest := Nat.mul_le_mul_left (2 ^ w) (Nat.succ_le_of_lt (ih hus))
    rw [packNat, List.length_cons, Nat.mul_succ, Nat.add_comm (w * _), Nat.pow_add]
    rw [Nat.mul_succ] at hrest
    omega

/-- Field `j` of the packed number. -/
theorem packNat_field {w : Nat} {us : List DWord} (h : ∀ u ∈ us, u.toNat < 2 ^ w) {j : Nat} (hj : j < us.length) :
    packNat w us / 2 ^ (j * w) % 2 ^ w = us[j].toNat := by
  induction us generalizing j with
  | nil => cases hj
  | cons u us ih =>
    obtain ⟨hu, hus⟩ := List.forall_mem_cons.mp h
    cases j with
    | zero => simp [packNat, Nat.mod_eq_of_lt hu]
    | succ j =>
      rw [packNat, Nat.succ_mul, Nat.add_comm (j * w), Nat.pow_add, ← Nat.div_div_eq_div_mul,
        Nat.add_mul_div_left _ _ (Nat.two_pow_pos w), Nat.div_eq_of_lt hu, Nat.zero_add, List.getElem_cons_succ]
      exact ih hus _

theorem length_packPayload (mbSize w : Nat) (us : List DWord) :
    (packPayload mbSize w us).length = payloadBytes mbSize w :=
  length_natBytes _ _

/-- The fields packed into a payload, which the zero fields after them fill, are unpacked again. -/
theorem fields_packPayload {mbSize w : Nat} {us : List DWord} (h8 : 8 ∣ mbSize) (hw : w ≤ 64)
    (hlen : us.length ≤ mbSize) (h : ∀ u ∈ us, u.toNat < 2 ^ w) :
    fields (packPayload mbSize w us) w us.length = us := by
  have hbits : 8 * payloadBytes mbSize w = mbSize * w := Nat.mul_div_cancel' (h8.mul_right w)
  have hnum : leNat (packPayload mbSize w us) = packNat w us := by
    rw [packPayload, leNat_natBytes, hbits, Nat.mul_comm mbSize]
    exact Nat.mod_eq_of_lt ((packNat_lt h).trans_le (Nat.pow_le_pow_right (by decide) (Nat.mul_le_mul_left w hlen)))
  refine List.ext_getElem (length_fields ..) fun j _ hj => BitVec.eq_of_toNat_eq ?_
  simp only [fields, List.getElem_map, List.getElem_range, unpack_toNat hw, hnum, packNat_field h hj]

/-! #### The miniblocks of a block, the blocks and the header (R65, R66, R76) -/

theorem readWidths_append (ws rest : List Byte) : readWidths ws.length (ws ++ rest) = .ok (ws, rest) := by
  induction ws with
  | nil => rfl
  | cons b ws ih => rw [List.length_cons, List.cons_append, readWidths, ih]; rfl

@[simp] theorem length_widthsOf (mbSize n : Nat) (us : List DWord) : (widthsOf mbSize n us).length = n := by
  induction n generalizing us with
  | zero => rfl
  | succ n ih => simp [widthsOf, ih]

@[simp] theorem payloadsOf_nil (mbSize n : Nat) : payloadsOf mbSize n [] = [] := by
  cases n <;> rfl

theorem payloadsOf_succ {us : List DWord} (h : us ≠ []) (mbSize n : Nat) :
    payloadsOf mbSize (n + 1) us =
      packPayload mbSize (widthOf (us.take mbSize)) (us.take mbSize) ++ payloadsOf mbSize n (us.drop mbSize) := by
  rw [payloadsOf, if_neg (by simpa using h)]

/-- A miniblock over the next fields, as many as fill it or all that are missing, is read back as the accumulated
values. -/
theorem miniblocksRest_packPayload {w : Width} {mbCount mbSize missing : Nat} {us : List DWord} (m run : DWord)
    (ws rest : List Byte) (h8 : 8 ∣ mbSize) (hus : ∀ u ∈ us, isWValue w u) (hmissing : missing ≠ 0)
    (hlen : us.length = min mbSize missing) :
    miniblocksRest w mbCount mbSize m (BitVec.ofNat 8 (widthOf us) :: ws) missing run
        (packPayload mbSize (widthOf us) us ++ rest) =
      (miniblocksRest w mbCount mbSize m ws (missing - us.length) (lastRun run (accumulateAll w m run us)) rest).map
        (prepend (accumulateAll w m run us)) := by
  have hwidth : widthOf us ≤ w.bits := (widthOf_le_iff _ _).mpr hus
  have hbits : w.bits ≤ 64 := by cases w <;> decide
  have hbyte : (BitVec.ofNat 8 (widthOf us)).toNat = widthOf us := by
    rw [BitVec.toNat_ofNat, Nat.mod_eq_of_lt (by omega)]
  have hfields : fields (packPayload mbSize (widthOf us) us) (widthOf us) us.length = us :=
    fields_packPayload h8 (by omega) (by omega) ((widthOf_le_iff _ _).mp (Nat.le_refl _))
  have hpay := length_packPayload mbSize (widthOf us) us
  rw [miniblocksRest_cons hmissing (by rwa [hbyte]) (by rw [hbyte, List.length_append]; omega) rfl, hbyte,
    List.take_left' hpay, List.drop_left' hpay, ← hlen, hfields]

/-- The widths and payloads of `n` miniblocks over the fields `us`, which fill them or are all that is missing, are
read back as the accumulated values; what follows them is read next. -/
theorem miniblocksRest_payloadsOf {w : Width} {mbCount mbSize n missing : Nat} {us : List DWord} (m run : DWord)
    (rest : List Byte) (hpos : 0 < mbSize) (h8 : 8 ∣ mbSize) (hus : ∀ u ∈ us, isWValue w u)
    (hlen : us.length = min (n * mbSize) missing) :
    miniblocksRest w mbCount mbSize m ((widthsOf mbSize n us).map (BitVec.ofNat 8)) missing run
        (payloadsOf mbSize n us ++ rest) =
      (blocksRest w mbCount mbSize (missing - us.length) (lastRun run (accumulateAll w m run us)) rest).map
        (prepend (accumulateAll w m run us)) := by
  induction n generalizing missing us run with
  | zero =>
    obtain rfl : us = [] := List.length_eq_zero_iff.mp (by omega)
    rw [widthsOf, List.map_nil, payloadsOf_nil, miniblocksRest_nil, accumulateAll, map_prepend_nil]
    rfl
  | succ n ih =>
    rw [Nat.succ_mul] at hlen
    rcases Nat.eq_zero_or_pos missing with rfl | hmissing
    · obtain rfl : us = [] := List.length_eq_zero_iff.mp (by omega)
      rw [miniblocksRest_zero, payloadsOf_nil, accumulateAll, map_prepend_nil]
      exact (blocksRest_zero ..).symm
    have hne : us ≠ [] := fun h => by rw [h, List.length_nil] at hlen; omega
    have hgroup : (us.take mbSize).length = min mbSize missing := by rw [List.length_take]; omega
    have hlater : (us.drop mbSize).length = min (n * mbSize) (missing - (us.take mbSize).length) := by
      rw [List.length_drop, hgroup]
      omega
    have hlen' : (us.take mbSize).length + (us.drop mbSize).length = us.length := by
      rw [← List.length_append, List.take_append_drop]
    have hvalues := accumulateAll_append w m run (us.take mbSize) (us.drop mbSize)
    rw [List.take_append_drop] at hvalues
    rw [payloadsOf_succ hne, widthsOf, List.map_cons, List.append_assoc,
      miniblocksRest_packPayload m run _ _ h8 (fun u hu => hus u (List.mem_of_mem_take hu)) hmissing.ne' hgroup,
      ih _ (fun u hu => hus u (List.mem_of_mem_drop hu)) hlater, map_prepend_append, hvalues, lastRun_append,
      Nat.sub_sub, hlen']

/-- A block over the next values, as many as fill it or all that are missing, is read back as these values. -/
theorem blocksRest_encodeBlock {w : Width} {mbCount mbSize missing : Nat} {vs : List DWord} (run : DWord)
    (rest : List Byte) (hpos : 0 < mbSize) (h8 : 8 ∣ mbSize) (hvs : ∀ v ∈ vs, isWValue w v) (hmissing : missing ≠ 0)
    (hlen : vs.length = min (mbCount * mbSize) missing) :
    blocksRest w mbCount mbSize missing run (encodeBlock w mbCount mbSize (deltasFrom w run vs) ++ rest) =
      (blocksRest w mbCount mbSize (missing - vs.length) (lastRun run vs) rest).map (prepend vs) := by
  have hleast := isWValue_leastDelta fun d (hd : d ∈ deltasFrom w run vs) => isWValue_of_mem_deltasFrom hd
  unfold encodeBlock
  dsimp only
  generalize leastDelta w (deltasFrom w run vs) = least at hleast
  have hvalues := accumulateAll_deltasFrom least hvs run
  generalize hus : (deltasFrom w run vs).map (fun d => truncW w (d - least)) = us at hvalues
  have husW : ∀ u ∈ us, isWValue w u := by
    subst hus
    simp only [List.forall_mem_map]
    exact fun d _ => isWValue_truncW w _
  have husLen : us.length = vs.length := by rw [← hvalues, length_accumulateAll]
  obtain ⟨u, hmin, hu⟩ := readUvarint_zzvarintBytes hleast
    ((widthsOf mbSize mbCount us).map (BitVec.ofNat 8) ++ (payloadsOf mbSize mbCount us ++ rest))
  have hwidths := readWidths_append ((widthsOf mbSize mbCount us).map (BitVec.ofNat 8))
    (payloadsOf mbSize mbCount us ++ rest)
  rw [List.length_map, length_widthsOf] at hwidths
  rw [blocksRest_succ hmissing, List.append_assoc, List.append_assoc, hmin, Except.bind, hwidths, Except.bind, hu,
    miniblocksRest_payloadsOf least run rest hpos h8 husW (husLen.trans hlen), hvalues, husLen]

/-- The blocks of the values after `run` are read back as the values. -/
theorem blocksRest_encodeBlocks {w : Width} {mbCount mbSize fuel : Nat} {vs : List DWord} (run : DWord)
    (rest : List Byte) (hcount : 0 < mbCount) (hpos : 0 < mbSize) (h8 : 8 ∣ mbSize) (hvs : ∀ v ∈ vs, isWValue w v)
    (hfuel : vs.length ≤ fuel) :
    blocksRest w mbCount mbSize vs.length run (encodeBlocks w mbCount mbSize fuel (deltasFrom w run vs) ++ rest) =
      .ok (vs, rest) := by
  induction fuel generalizing vs run with
  | zero =>
    obtain rfl : vs = [] := List.length_eq_zero_iff.mp (by omega)
    exact blocksRest_zero ..
  | succ fuel ih =>
    rw [encodeBlocks]
    rcases Nat.eq_zero_or_pos vs.length with hnil | hmissing
    · obtain rfl := List.length_eq_zero_iff.mp hnil
      exact blocksRest_zero ..
    have hblock : 0 < mbCount * mbSize := Nat.mul_pos hcount hpos
    have hmore : ¬ (deltasFrom w run vs).isEmpty = true := fun h => by
      rw [List.isEmpty_iff_length_eq_zero, length_deltasFrom] at h
      omega
    have hlater : vs.length - (vs.take (mbCount * mbSize)).length = (vs.drop (mbCount * mbSize)).length := by
      rw [List.length_take, List.length_drop]
      omega
    rw [if_neg hmore, take_deltasFrom, drop_deltasFrom, List.append_assoc,
      blocksRest_encodeBlock run _ hpos h8 (fun v hv => hvs v (List.mem_of_mem_take hv)) (by omega) (by simp),
      hlater, ih _ (fun v hv => hvs v (List.mem_of_mem_drop hv)) (by rw [List.length_drop]; omega)]
    simp [Except.map, prepend]

/-- A geometry that is legal makes a header of the format of R132, whose block size fits the unit. -/
theorem header_of_geometryLegal {p : Config.Instance} {mbCount mbSize : Nat} (h : geometryLegal p mbCount mbSize)
    {total cap : Nat} (htotal : total ≤ min Config.maxTotal cap) :
    headerError p cap (BitVec.ofNat 64 (mbCount * mbSize)) (BitVec.ofNat 64 mbCount) (BitVec.ofNat 64 total) = none ∧
      (BitVec.ofNat 64 mbCount).toNat = mbCount ∧
      (BitVec.ofNat 64 (mbCount * mbSize) / BitVec.ofNat 64 mbCount).toNat = mbSize ∧
      (BitVec.ofNat 64 total).toNat = total := by
  obtain ⟨hcount, ⟨k, hk, rfl⟩, hmax, hlt⟩ := h
  have hcountNat : (BitVec.ofNat 64 mbCount).toNat = mbCount := by
    have := Nat.le_mul_of_pos_right mbCount (Nat.two_pow_pos k)
    rw [BitVec.toNat_ofNat]
    omega
  have hblock : (BitVec.ofNat 64 (mbCount * 2 ^ k)).toNat = mbCount * 2 ^ k := Nat.mod_eq_of_lt hlt
  have htotalNat : (BitVec.ofNat 64 total).toNat = total := by
    rw [BitVec.toNat_ofNat]
    simp only [Config.maxTotal] at htotal
    omega
  refine ⟨headerError_of_fits ⟨by omega, ⟨k, hk, by rw [hblock, hcountNat]⟩, ?_⟩ ⟨by omega, by omega⟩, hcountNat, ?_,
    htotalNat⟩
  · rw [htotalNat]
    exact htotal.trans (Nat.min_le_left ..)
  · rw [BitVec.toNat_udiv, hblock, hcountNat, Nat.mul_div_cancel_left _ hcount]

/-- A header with TOTAL = 0 that passes is the whole stream (R133). -/
theorem headerRest_none {p : Config.Instance} {cap : Nat} {b m t : DWord} (h : headerError p cap b m t = none)
    (ht : t.toNat = 0) (w : Width) (f : DWord) (page : List Byte) :
    headerRest p w cap b m t f page = .ok ([], page) := by
  rw [headerRest, h]
  exact if_pos (BitVec.eq_of_toNat_eq ht)

/-- After any other header that passes stand the blocks of the values but the first (R133). -/
theorem headerRest_some {p : Config.Instance} {cap n : Nat} {b m t : DWord} (h : headerError p cap b m t = none)
    (ht : t.toNat = n + 1) (w : Width) (f : DWord) (page : List Byte) :
    headerRest p w cap b m t f page =
      (blocksRest w m.toNat (b / m).toNat n (zzValue w f) page).map (prepend [zzValue w f]) := by
  have hne : t ≠ 0 := fun h0 => by simp [h0] at ht
  rw [headerRest, h]
  dsimp only
  rw [if_neg hne, ht, Nat.add_sub_cancel]

/-- Settles O59: the four varints of the header are read back, then the blocks over the deltas of the values. -/
theorem intRoundTrip : Obligations.IntRoundTrip := by
  unfold Obligations.IntRoundTrip
  intro p w cap mbCount mbSize vs rest _ hgeo hvs htotal
  obtain ⟨hheader, hcountNat, hsizeNat, htotalNat⟩ := header_of_geometryLegal hgeo htotal
  obtain ⟨hcount, ⟨k, hk, rfl⟩, _, _⟩ := hgeo
  rw [encodeInts, decodeIntPage_eq]
  simp only [List.append_assoc, readUvarint_uvarintBytes, Except.bind]
  cases vs with
  | nil =>
    obtain ⟨f, hread, _⟩ := readUvarint_zzvarintBytes (w := w) (v := 0) (Nat.two_pow_pos _) rest
    rw [List.headD_nil, List.tail_nil, deltasFrom, List.length_nil, encodeBlocks, List.nil_append, hread]
    exact headerRest_none hheader htotalNat w f rest
  | cons v vs =>
    obtain ⟨hv, hvs⟩ := List.forall_mem_cons.mp hvs
    obtain ⟨f, hread, hf⟩ := readUvarint_zzvarintBytes hv
      (encodeBlocks w mbCount (2 ^ k) (deltasFrom w v vs).length (deltasFrom w v vs) ++ rest)
    rw [List.headD_cons, List.tail_cons, hread]
    dsimp only
    rw [headerRest_some hheader htotalNat, hf, hcountNat, hsizeNat,
      blocksRest_encodeBlocks v rest hcount (Nat.two_pow_pos k) (pow_dvd_pow 2 hk) hvs (length_deltasFrom ..).ge]
    rfl

end Sys2Proof.Machine

/-! ### The header as one element, miniblocks of width 0, the page as one operation (O19, O20, O26, O28, O30) -/

namespace Sys2Proof.Machine
open State

/-! #### The header in one piece (R131 to R133) -/

/-- The four fields of the header read into their registers (R131). -/
def State.headerFieldsRead (b m t f : Varint) (s : State) : State :=
  { s with
    regs.srcCur := s.regs.srcCur + BitVec.ofNat 32 (b.size + m.size + t.size + f.size)
    diu.emitted := 0
    diu.blockSize := b.value
    diu.mbCount := m.value
    diu.total := t.value }

/-- A run that waits for its header has its sink set up and nothing emitted (R27, R130). -/
theorem hdr_sinkOk {s : State} (hI : s.Inv) (hb : s.isBusy) (hd : s.diu.dstate = .hdr) :
    s.SinkOk ∧ s.diu.emitted = 0 := by
  obtain ⟨_, _, hok⟩ := hI.running hb
  simp only [hd] at hok
  obtain ⟨hsink, hemitted, _⟩ := hok
  exact ⟨hsink, hemitted⟩

/-- .hdr in its place: the error that R132 finds, or R133. -/
theorem exec_hdr_ends {s : State} {b m t f : Varint} (hI : s.Inv) (ha : s.At (.hdr b m t f)) :
    (∃ e, headerError s.env.inst s.diu.sinkCap.toNat b.value m.value t.value = some e ∧
      exec (.hdr b m t f) s = .next ((s.headerFieldsRead b m t f).raise e)) ∨
    (headerError s.env.inst s.diu.sinkCap.toNat b.value m.value t.value = none ∧
      ∃ u, exec (.hdr b m t f) s = .next u ∧
        HeaderEnds (s.headerFieldsRead b m t f) (zzValue s.diu.wSel f.value) u) := by
  obtain ⟨p, hpos, hfit⟩ := ha.pos
  obtain rfl : p = .hdr := eq_of_beq hfit
  obtain ⟨hb, hd⟩ := position_hdr hpos
  obtain ⟨hsink, _⟩ := hdr_sinkOk hI hb hd
  have hexec : exec (.hdr b m t f) s = finishHeader (zzValue s.diu.wSel f.value) (s.headerFieldsRead b m t f) := by
    rw [exec, execHdr, inPlace_at ha]
    rfl
  rw [hexec]
  exact finishHeader_ends (s := s.headerFieldsRead b m t f) _ hI.legal hsink rfl

/-- The unit is BUSY where an element stands in its place. -/
theorem State.At.busy {s : State} {i : Instr} (ha : s.At i) : s.isBusy := by
  obtain ⟨_, hpos, _⟩ := ha.pos
  exact position_busy hpos

/-- Settles O19: what R132 finds, by whether the format and the limits are met. -/
theorem headerValidated : Obligations.HeaderValidated := by
  unfold Obligations.HeaderValidated
  intro s b m t f hI ha
  rcases exec_hdr_ends hI ha with ⟨e, he, h⟩ | ⟨hn, u, h, hends⟩
  · refine ⟨_, h, fun hform => ?_, fun hform hfits => ?_, fun hform hfits => ?_⟩
    · obtain rfl := Option.some.inj (he.symm.trans (headerError_of_not_format hform))
      rfl
    · obtain rfl := Option.some.inj (he.symm.trans (headerError_of_not_fits hform hfits))
      rfl
    · exact absurd (he.symm.trans (headerError_of_fits hform hfits)) (Option.some_ne_none e)
  · refine ⟨u, h, fun hform => ?_, fun hform hfits => ?_, fun _ _ => ⟨?_, ?_⟩⟩
    · exact absurd (hn.symm.trans (headerError_of_not_format hform)) (Option.some_ne_none _).symm
    · exact absurd (hn.symm.trans (headerError_of_not_fits hform hfits)) (Option.some_ne_none _).symm
    · rw [hends.regs]
      exact ha.busy
    · rw [hends.diu]
      exact BitVec.toNat_udiv

/-- Settles O20: a header that passes is not rejected, so R133 follows. -/
theorem headerAccepted : Obligations.HeaderAccepted := by
  unfold Obligations.HeaderAccepted
  intro s b m t f hI ha hform hfits
  rcases exec_hdr_ends hI ha with ⟨e, he, _⟩ | ⟨_, hends⟩
  · exact absurd (he.symm.trans (headerError_of_fits hform hfits)) (Option.some_ne_none e)
  · exact hends

/-! #### A miniblock's errors, and width 0 (R136, R142) -/

/-- Settles O26: the two checks of R136 in their order. -/
theorem miniblockErrors : Obligations.MiniblockErrors := by
  unfold Obligations.MiniblockErrors
  intro s payload ha
  rw [exec, execMb, inPlace_at ha]
  dsimp only
  refine ⟨fun hw => ?_, fun hw hn => ?_⟩
  · rw [if_pos hw]
    exact ⟨_, rfl, rfl⟩
  · rw [if_neg (Nat.not_lt.mpr hw), if_pos (show _ < _ + payloadBytes _ _ from hn)]
    exact ⟨_, rfl, rfl⟩

/-- The fields of width 0 are all 0, whatever the payload (R116). -/
theorem fields_width_zero (payload : List Byte) (k : Nat) : fields payload 0 k = List.replicate k 0 := by
  have hfield : ∀ j, unpack payload j 0 = 0 := fun _ => rfl
  simp [fields, hfield, List.map_const']

/-- Values accumulated over fields that are all 0 are RUN and so many min deltas (R142). -/
theorem accumulateAll_zeros_getD (w : Width) (m run : DWord) {k i : Nat} (hi : i < k) :
    ((accumulateAll w m run (List.replicate k 0)).getD i 0).toNat =
      (run.toNat + (i + 1) * m.toNat) % 2 ^ w.bits := by
  rw [accumulateAll_getD_toNat w m run _ (by simpa using hi), List.take_replicate, Nat.min_eq_left hi]
  simp

/-- Settles O28: a miniblock of width 0 has an empty payload, and its fields are all 0. -/
theorem widthZeroRun : Obligations.WidthZeroRun := by
  unfold Obligations.WidthZeroRun
  intro s hI ha hw
  obtain ⟨p, hpos, hfit⟩ := ha.pos
  cases p with
  | mb n =>
    obtain ⟨hb, hd, _⟩ := position_mb hpos
    obtain ⟨_, _, hok⟩ := hI.running hb
    simp only [hd] at hok
    obtain ⟨_, _, hcur, _⟩ := hok
    obtain ⟨t, h, hsink, hregs, _⟩ := miniblockResult s [] hI ha (by omega) (by simp [hw]) (by simpa using hcur)
    rw [← fields, hw, fields_width_zero] at hsink
    refine ⟨t, _, h, hsink, by simp [hregs], by simp, fun i hi => ?_⟩
    exact accumulateAll_zeros_getD _ _ _ (by simpa using hi)
  | _ => cases hfit

/-! #### The page as one operation (R139) -/

/-- Settles O30: the values of DecodeInt fit the sink, which takes them all. -/
theorem intPageResult : Obligations.IntPageResult := by
  unfold Obligations.IntPageResult
  intro s page hI ha _
  obtain ⟨p, hpos, hfit⟩ := ha.pos
  obtain rfl : p = .pageInt := eq_of_beq hfit
  obtain ⟨hb, hd, _⟩ := position_pageInt hpos
  obtain ⟨hsink, hemitted⟩ := hdr_sinkOk hI hb hd
  rw [exec, execPageInt, inPlace_at ha]
  cases hr : decodeIntPage s.env.inst s.diu.wSel s.diu.sinkCap.toNat page with
  | error e => exact ⟨_, rfl, rfl⟩
  | ok r =>
    obtain ⟨vs, rest⟩ := r
    obtain ⟨hcap, _⟩ := decodeIntPage_ok hr
    have hstart : ({ s with diu.emitted := 0 } : State) = s := by rw [← hemitted]
    obtain ⟨t, ht, hget, et⟩ := emitAll_sinkGets (s := s) (vs := vs) hI.legal (by
      rw [← hsink.1, hemitted]
      simpa using hcap)
    dsimp only
    rw [hstart, ht, orOutside_some]
    refine ⟨_, rfl, ⟨hget.emitted, hget.sink, hget.src, hget.ofs⟩, ?_, ?_, ?_, ?_, ?_⟩ <;>
      (rw [et]; rfl)

end Sys2Proof.Machine

/-! ### The end of a DIU run, and its errors (O38, O40) -/

namespace Sys2Proof.Machine

/-- Settles O40: in D_DONE the unit takes the rule of whoever started the run. -/
theorem runEnds : Obligations.RunEnds := by
  unfold Obligations.RunEnds
  intro s hb hd
  obtain ⟨toHost, toSuffixes, toCompare⟩ := unitStep_runDone hb hd
  refine ⟨fun hbs => ?_, toSuffixes, toCompare⟩
  have hidle : { s.dbr with bstate := .idle } = s.dbr := by rw [← hbs]
  rw [toHost hbs, State.endIntCommand, State.finish, hidle]
  dsimp only
  cases s.diu.wSel <;> rfl

/-- The errors of a DIU run (R145). -/
def Err.OfDiu (e : Err) : Prop :=
  e = .unexpectedEOF ∨ e = .malformedHeader ∨ e = .invalidBitWidth ∨ e = .capacityExceeded

/-! #### The pure functions -/

/-- A function of the page gives no error but those of a DIU run. -/
def OnlyDiuErrors {α : Type} (r : Except Err α) : Prop := ∀ e, r = .error e → e.OfDiu

namespace OnlyDiuErrors
variable {α β : Type}

theorem ok (a : α) : OnlyDiuErrors (.ok a) := fun _ h => by cases h

theorem error {e : Err} (h : e.OfDiu) : OnlyDiuErrors (.error e : Except Err α) := fun _ h' => by cases h'; exact h

theorem bind {r : Except Err α} {f : α → Except Err β} (h : OnlyDiuErrors r) (hf : ∀ a, OnlyDiuErrors (f a)) :
    OnlyDiuErrors (r.bind f) := by
  cases r with
  | error e => exact error (h e rfl)
  | ok a => exact hf a

theorem map {r : Except Err α} (h : OnlyDiuErrors r) (f : α → β) : OnlyDiuErrors (r.map f) := by
  cases r with
  | error e => exact error (h e rfl)
  | ok a => exact ok (f a)

theorem readUvarint (page : List Byte) : OnlyDiuErrors (readUvarint page) := fun e h => by
  obtain ⟨_, _, _, herr⟩ := Machine.readVarint page
  exact (herr e h).imp_right .inl

theorem readWidths (n : Nat) (page : List Byte) : OnlyDiuErrors (readWidths n page) := by
  induction n generalizing page with
  | zero => exact ok _
  | succ n ih =>
    cases page with
    | nil => exact error (.inl rfl)
    | cons b page => exact (ih page).map _

theorem decodeMiniblocks (w : Width) (mbSize : Nat) (m : DWord) (ws : List Byte) (missing : Nat) (run : DWord)
    (page : List Byte) : OnlyDiuErrors (decodeMiniblocks w mbSize m ws missing run page) := by
  induction ws generalizing missing run page with
  | nil => exact ok _
  | cons b ws ih =>
    unfold Machine.decodeMiniblocks
    split
    · exact ok _
    split
    · exact error (.inr (.inr (.inl rfl)))
    dsimp only
    split
    · exact error (.inl rfl)
    · exact (ih _ _ _).map _

theorem decodeBlocks (w : Width) (mbCount mbSize fuel missing : Nat) (run : DWord) (page : List Byte) :
    OnlyDiuErrors (decodeBlocks w mbCount mbSize fuel missing run page) := by
  induction fuel generalizing missing run page with
  | zero =>
    unfold Machine.decodeBlocks
    split
    · exact ok _
    · exact error (.inl rfl)
  | succ fuel ih =>
    unfold Machine.decodeBlocks
    split
    · exact ok _
    · exact (readUvarint page).bind fun _ => (readWidths _ _).bind fun _ =>
        (decodeMiniblocks _ _ _ _ _ _ _).bind fun _ => (ih _ _ _).bind fun _ => ok _

theorem headerError {p : Config.Instance} {cap : Nat} {b m t : DWord} {e : Err}
    (h : headerError p cap b m t = some e) : e.OfDiu := by
  by_cases hform : headerFormat b m t
  · by_cases hfits : headerFits p cap b t
    · exact absurd (h.symm.trans (headerError_of_fits hform hfits)) (Option.some_ne_none e)
    · obtain rfl := Option.some.inj (h.symm.trans (headerError_of_not_fits hform hfits))
      exact .inr (.inr (.inr rfl))
  · obtain rfl := Option.some.inj (h.symm.trans (headerError_of_not_format hform))
    exact .inr (.inl rfl)

theorem decodeIntPage (p : Config.Instance) (w : Width) (cap : Nat) (page : List Byte) :
    OnlyDiuErrors (decodeIntPage p w cap page) := by
  rw [decodeIntPage_eq]
  refine (readUvarint _).bind fun b => (readUvarint _).bind fun m => (readUvarint _).bind fun t =>
    (readUvarint _).bind fun f => ?_
  unfold Machine.headerRest
  split
  · next he => exact error (headerError he)
  split
  · exact ok _
  · exact ((decodeBlocks _ _ _ _ _ _ _).map _).map _

end OnlyDiuErrors

/-! #### The meanings of the elements -/

/-- A meaning or a rule ends in no error but those of a DIU run. -/
def RaisesDiuErrors (r : Result) : Prop := ∀ t e, r = .next t → t.regs.status = .error e → e.OfDiu

namespace RaisesDiuErrors

theorem raise (s : State) {e : Err} (h : e.OfDiu) : RaisesDiuErrors (.next (s.raise e)) := fun _ _ ht he => by
  cases ht
  cases he
  exact h

theorem busy {t : State} (h : t.isBusy) : RaisesDiuErrors (.next t) := fun _ _ ht he => by
  cases ht
  exact absurd (h.symm.trans he) Status.noConfusion

theorem fault (r : Fault) : RaisesDiuErrors (.fault r) := fun _ _ ht _ => by cases ht

theorem refused (r : Refusal) : RaisesDiuErrors (.refused r) := fun _ _ ht _ => by cases ht

theorem orOutside {sp : Space} {r : Option State} {k : State → Result}
    (h : ∀ u, r = some u → RaisesDiuErrors (k u)) : RaisesDiuErrors (orOutside sp r k) := fun t e ht he => by
  obtain ⟨u, hu, hk⟩ := orOutside_next ht
  exact h u hu t e hk he

variable {s : State} (hb : s.isBusy)
include hb

/-- Values emitted leave the unit BUSY. -/
theorem emitAll {sp : Space} {vs : List DWord} {k : State → Result}
    (h : ∀ u : State, u.isBusy → RaisesDiuErrors (k u)) : RaisesDiuErrors (Machine.orOutside sp (s.emitAll vs) k) :=
  orOutside fun u hu => h u (by rw [(State.emitAll_some hu).1]; exact hb)

theorem finishHeader (first : DWord) : RaisesDiuErrors (finishHeader first s) := by
  rcases finishHeader_cases first s with ⟨e, he, h⟩ | ⟨_, _, h⟩ | ⟨_, _, h⟩ <;> rw [h]
  · exact raise s (OnlyDiuErrors.headerError he)
  · exact busy hb
  · rw [← emitAll_singleton]
    exact emitAll (by exact hb) fun u hu => busy hu

theorem takeField (u : DWord) : RaisesDiuErrors (takeField u s) := by
  rcases takeField_cases u s with ⟨_, _, h⟩ | ⟨_, _, h⟩ | ⟨_, _, h⟩ | ⟨_, _, h⟩ | ⟨_, h⟩ | ⟨_, _, h⟩ <;> rw [h]
  · exact busy hb
  · exact busy hb
  · exact busy hb
  · exact finishHeader hb _
  · exact busy hb
  · exact refused _

theorem blkWidth {w : Byte} (ha : s.At (.blkWidth w)) : RaisesDiuErrors (exec (.blkWidth w) s) := by
  rw [exec, execBlkWidth, inPlace_at ha]
  dsimp only
  split
  · split
    · exact busy hb
    · exact busy hb
  · exact fault _

theorem mb {payload : List Byte} (ha : s.At (.mb payload)) : RaisesDiuErrors (exec (.mb payload) s) := by
  rw [exec, execMb, inPlace_at ha]
  dsimp only
  split
  · exact raise s (.inr (.inr (.inl rfl)))
  split
  · exact raise s (.inl rfl)
  split
  · exact refused _
  · exact emitAll hb fun u hu => busy hu

theorem pageInt {page : List Byte} (ha : s.At (.pageInt page)) : RaisesDiuErrors (exec (.pageInt page) s) := by
  rw [exec, execPageInt, inPlace_at ha]
  split
  · next he => exact raise s (OnlyDiuErrors.decodeIntPage _ _ _ _ _ he)
  · exact emitAll (s := { s with diu.emitted := 0 }) hb fun u hu => busy hu

end RaisesDiuErrors

/-- The elements of a DIU run: all but a suffix byte and the page of DEC_BA. -/
theorem exec_raisesDiuErrors {s : State} {i : Instr} (ha : s.At i) (hd : s.diu.dstate ≠ .idle)
    (hba : ∀ p, s.position = some p → p ≠ .pageBa) : RaisesDiuErrors (exec i s) := by
  have hb := ha.busy
  obtain ⟨p, hpos, hfit⟩ := ha.pos
  cases i with
  | clr => cases hfit
  | decI32 => cases hfit
  | decI64 => cases hfit
  | decBa => cases hfit
  | illegal w => cases hfit
  | varintCont g => rw [exec, execVarintCont, inPlace_at ha]; exact .busy hb
  | varintLast g => rw [exec, execVarintLast, inPlace_at ha]; exact .takeField (by exact hb) _
  | varintLast10 v => rw [exec, execVarintLast10, inPlace_at ha]; exact .takeField (by exact hb) _
  | uvarint v => rw [exec, execUvarint, inPlace_at ha]; exact .takeField (by exact hb) _
  | zzvarint v => rw [exec, execZzvarint, inPlace_at ha]; exact .takeField (by exact hb) _
  | hdr b m t f => rw [exec, execHdr, inPlace_at ha]; exact .finishHeader (by exact hb) _
  | blkMin v => rw [exec, execBlkMin, inPlace_at ha]; exact .takeField (by exact hb) _
  | blkWidth w => exact .blkWidth hb ha
  | mb payload => exact .mb hb ha
  | pageInt page => exact .pageInt hb ha
  | raw b =>
    obtain rfl : p = .raw := eq_of_beq hfit
    exact absurd (position_raw hpos).2.1 hd
  | pageBa page =>
    obtain rfl : p = .pageBa := eq_of_beq hfit
    exact absurd rfl (hba _ hpos)

/-- The end of a run raises nothing (R138). -/
theorem sequence_raisesDiuErrors {s : State} (hb : s.isBusy) (hd : s.diu.dstate = .done) :
    RaisesDiuErrors (sequence s) := by
  rw [sequence, hd]
  cases s.dbr.bstate with
  | idle => exact fun _ _ ht he => by cases ht; cases he
  | pfx => exact .busy hb
  | sfx => exact .busy hb
  | cmp => exact .fault _
  | val => exact .fault _
  | done => exact .fault _

/-- Settles O38: the bytes at the cursor are no element, or an element of a DIU run, or the run is over. -/
theorem diuErrors : Obligations.DiuErrors := by
  unfold Obligations.DiuErrors
  intro s t e hb hd hba h he
  have raises : RaisesDiuErrors (unitStep s) := by
    cases hp : s.position with
    | none =>
      rw [unitStep_sequence hb hp]
      exact sequence_raisesDiuErrors hb ((position_none hb hp).resolve_right fun hidle => hd hidle.1)
    | some p =>
      cases hf : s.fetch p with
      | ok i =>
        rw [unitStep_exec hp hf]
        exact exec_raisesDiuErrors (fetch_ok hp hf).1 hd hba
      | error err =>
        rw [unitStep_raise hp hf]
        cases err with
        | endOfPage => exact .raise s (.inl rfl)
        | varintTooLong => exact .raise s (.inr (.inl rfl))
  exact raises t e h he

end Sys2Proof.Machine

/-! ### The checks of a value (R164) -/

namespace Sys2Proof.Machine

/-- Bit 31 is the sign (R119). -/
theorem isNegative_iff_toInt (v : Word) : isNegative v = true ↔ v.toInt < 0 := by
  rw [isNegative_eq, decide_eq_true_eq, BitVec.toInt_neg_iff]
  omega

theorem toInt_eq_toNat_of_nonneg {v : Word} (h : ¬ v.toInt < 0) : v.toInt = v.toNat := by
  rw [BitVec.toInt_neg_iff] at h
  exact BitVec.toInt_eq_toNat_of_lt (by omega)

/-- The four checks on the lengths as signed numbers. -/
theorem valueError_signed (cap : Nat) (p q : Word) (prev left len : Nat) :
    valueError cap p q prev left len =
      if p.toInt < 0 ∨ q.toInt < 0 then some .negativeLength
      else if prev < p.toInt then some .prefixOutOfBounds
      else if left < q.toInt then some .valueOutOfBounds
      else if cap < len + p.toInt + q.toInt then some .capacityExceeded
      else none := by
  have hneg : (isNegative p || isNegative q) = true ↔ p.toInt < 0 ∨ q.toInt < 0 := by
    rw [Bool.or_eq_true, isNegative_iff_toInt, isNegative_iff_toInt]
  by_cases h : p.toInt < 0 ∨ q.toInt < 0
  · rw [valueError, if_pos (hneg.mpr h), if_pos h]
  · obtain ⟨hp, hq⟩ := not_or.mp h
    rw [valueError, if_neg (mt hneg.mp h), if_neg h, toInt_eq_toNat_of_nonneg hp, toInt_eq_toNat_of_nonneg hq]
    norm_cast

/-- Lengths that are no negative numbers and within the previous value, the page and DST pass the checks. -/
theorem valueError_of_fits {cap prev left len p q : Nat} {u v : Word} (hu : u.toInt = p) (hv : v.toInt = q)
    (hprev : p ≤ prev) (hleft : q ≤ left) (hcap : len + p + q ≤ cap) : valueError cap u v prev left len = none := by
  rw [valueError_signed, hu, hv, if_neg (by omega), if_neg (by omega), if_neg (by omega), if_neg (by omega)]

/-- The errors of a value. -/
theorem valueError_some {cap prev left len : Nat} {p q : Word} {e : Err}
    (h : valueError cap p q prev left len = some e) :
    e = .negativeLength ∨ e = .prefixOutOfBounds ∨ e = .valueOutOfBounds ∨ e = .capacityExceeded := by
  unfold valueError at h
  split at h
  · exact .inl (Option.some.inj h).symm
  split at h
  · exact .inr (.inl (Option.some.inj h).symm)
  split at h
  · exact .inr (.inr (.inl (Option.some.inj h).symm))
  split at h
  · exact .inr (.inr (.inr (Option.some.inj h).symm))
  · cases h

end Sys2Proof.Machine

/-! ### Byte strings of the reference encoder, read back (O60) -/

namespace Sys2Proof.Machine

/-! #### Shared prefixes (R76, R77) -/

/-- What two strings have in common is at most as long as either. -/
theorem commonLen_le (u v : List Byte) : commonLen u v ≤ u.length ∧ commonLen u v ≤ v.length := by
  induction u, v using commonLen.induct with
  | case1 us b vs ih => simpa [commonLen] using ih
  | case2 a us b vs h => simp [commonLen, h]
  | case3 => simp [commonLen]
  | case4 => simp [commonLen]

/-- Up to the length that they have in common two strings have the same bytes. -/
theorem take_eq_of_le_commonLen {u v : List Byte} {n : Nat} (h : n ≤ commonLen u v) : u.take n = v.take n := by
  induction u, v using commonLen.induct generalizing n with
  | case1 us b vs ih =>
    cases n with
    | zero => rfl
    | succ n =>
      rw [commonLen, if_pos rfl, Nat.add_le_add_iff_right] at h
      rw [List.take_succ_cons, List.take_succ_cons, ih h]
  | case2 a us b vs hne =>
    obtain rfl : n = 0 := by simpa [commonLen, hne] using h
    rfl
  | case3 vs =>
    obtain rfl : n = 0 := by simpa [commonLen] using h
    rfl
  | case4 us =>
    obtain rfl : n = 0 := by simpa [commonLen] using h
    rfl

/-- A length that a string shares with the one before it is at most its own length. -/
theorem lengths_of_shared {prev : List Byte} {ps : List Nat} {vs : List (List Byte)}
    (h : List.Forall₂ (· ≤ ·) ps (prefixLensFrom prev vs)) : List.Forall₂ (fun p v => p ≤ v.length) ps vs := by
  induction vs generalizing prev ps with
  | nil => cases h; exact .nil
  | cons v vs ih =>
    obtain - | ⟨hp, h⟩ := h
    exact .cons (hp.trans (commonLen_le _ _).2) (ih h)

theorem length_prefixLensFrom (prev : List Byte) (vs : List (List Byte)) :
    (prefixLensFrom prev vs).length = vs.length := by
  induction vs generalizing prev with
  | nil => rfl
  | cons v vs ih => exact congrArg (· + 1) (ih v)

/-! #### The value loop (R164, R165, R167) -/

/-- A length below 2^31 is the number its 32-bit word holds, unsigned and signed. -/
theorem toNat_lengthWord {n : Nat} (h : n < 2 ^ 31) : (BitVec.ofNat 32 n).toNat = n := by
  rw [BitVec.toNat_ofNat]; omega

theorem toInt_lengthWord {n : Nat} (h : n < 2 ^ 31) : (BitVec.ofNat 32 n).toInt = n := by
  rw [BitVec.toInt_eq_toNat_of_lt (by rw [toNat_lengthWord h]; omega), toNat_lengthWord h]

/-- The value loop over shared prefixes and the rests gives the strings back. -/
theorem decodeValues_shared {cap : Nat} {vs : List (List Byte)} {ps : List Nat} {prev : List Byte} {len : Nat}
    (rest : List Byte) (hps : List.Forall₂ (· ≤ ·) ps (prefixLensFrom prev vs)) (hvs : ∀ v ∈ vs, v.length < 2 ^ 31)
    (hcap : len + vs.flatten.length ≤ cap) :
    decodeValues cap ((ps.map (BitVec.ofNat 32)).zip ((vs.zip ps).map fun x => BitVec.ofNat 32 (x.1.length - x.2)))
      prev len (((vs.zip ps).map fun x => x.1.drop x.2).flatten ++ rest) = .ok (vs, rest) := by
  induction vs generalizing ps prev len with
  | nil => cases hps; rfl
  | cons v vs ih =>
    rw [prefixLensFrom] at hps
    obtain - | ⟨hp, hps⟩ := hps
    next p ps =>
    obtain ⟨hv, hvs⟩ := List.forall_mem_cons.mp hvs
    rw [List.flatten_cons, List.length_append] at hcap
    have hpv : p ≤ v.length := hp.trans (commonLen_le _ _).2
    have hdrop : (v.drop p).length = v.length - p := List.length_drop
    have hvalue : prev.take p ++ v.drop p = v := by
      rw [take_eq_of_le_commonLen hp, List.take_append_drop]
    simp only [List.zip_cons_cons, List.map_cons, List.flatten_cons, List.append_assoc, decodeValues]
    rw [valueError_of_fits (toInt_lengthWord (n := p) (by omega)) (toInt_lengthWord (n := v.length - p) (by omega))
      (hp.trans (commonLen_le _ _).1) (by rw [List.length_append, hdrop]; omega) (by omega)]
    dsimp only
    rw [toNat_lengthWord (n := p) (by omega), toNat_lengthWord (n := v.length - p) (by omega),
      List.take_left' hdrop, List.drop_left' hdrop, hvalue, ih hps hvs (by omega)]
    rfl

/-! #### The page -/

/-- A length below 2^31 is a 32-bit value of a stream. -/
theorem isWValue_length {n : Nat} (h : n < 2 ^ 31) : isWValue .w32 (BitVec.ofNat 64 n) := by
  rw [isWValue, BitVec.toNat_ofNat]
  simp only [Width.bits]
  omega

/-- The page of the strings `vs`, with lengths of prefixes that neighbours share, is decoded to `vs`. -/
theorem decodeBaPage_encodeStringsBy {p : Config.Instance} {mbCount mbSize : Nat} {vs : List (List Byte)}
    {ps : List Nat} (rest : List Byte) (hl : p.Legal) (hgeo : geometryLegal p mbCount mbSize)
    (hcount : vs.length ≤ p.lenCap) (hfits : vs.flatten.length ≤ p.dstCap) (hvs : ∀ v ∈ vs, v.length < 2 ^ 31)
    (hps : List.Forall₂ (· ≤ ·) ps (prefixLensFrom [] vs)) :
    ∃ d, decodeBaPage p (encodeStringsBy mbCount mbSize ps vs ++ rest) = .ok d ∧ d.values = vs ∧ d.rest = rest := by
  have hlen : ps.length = vs.length := hps.length_eq.trans (length_prefixLensFrom _ _)
  have hmax : vs.length ≤ min Config.maxTotal p.lenCap := by
    have := lenCap_lt hl
    simp only [Config.maxTotal]
    omega
  have hpair : ∀ x ∈ vs.zip ps, x.2 ≤ x.1.length ∧ x.1.length < 2 ^ 31 := fun x hx =>
    ⟨List.forall₂_zip (lengths_of_shared hps).flip hx, hvs _ (List.of_mem_zip hx).1⟩
  have hprefix : ∀ v ∈ ps.map (BitVec.ofNat 64), isWValue .w32 v := by
    intro v hv
    obtain ⟨n, hn, rfl⟩ := List.mem_map.mp hv
    rw [← List.map_snd_zip hlen.le] at hn
    obtain ⟨x, hx, rfl⟩ := List.mem_map.mp hn
    exact isWValue_length (by have := hpair x hx; omega)
  have hsuffix : ∀ v ∈ (vs.zip ps).map fun x => BitVec.ofNat 64 (x.1.length - x.2), isWValue .w32 v := by
    intro v hv
    obtain ⟨x, hx, rfl⟩ := List.mem_map.mp hv
    exact isWValue_length (by have := hpair x hx; omega)
  generalize hrests : ((vs.zip ps).map fun x => x.1.drop x.2).flatten ++ rest = rests
  have hruns : decodeLengths p (encodeStringsBy mbCount mbSize ps vs ++ rest) =
      .ok (ps.map (BitVec.ofNat 64), (vs.zip ps).map fun x => BitVec.ofNat 64 (x.1.length - x.2), rests) := by
    rw [decodeLengths, encodeStringsBy, List.append_assoc, List.append_assoc, hrests,
      intRoundTrip p .w32 p.lenCap mbCount mbSize _ _ hl hgeo hprefix (by simpa [hlen] using hmax)]
    dsimp only [Except.bind]
    rw [intRoundTrip p .w32 p.lenCap mbCount mbSize _ _ hl hgeo hsuffix (by simpa [hlen] using hmax)]
    rfl
  rw [decodeBaPage_eq, hruns, Except.bind, arrayRest, if_neg (by simp [hlen])]
  simp only [List.map_map, Function.comp_def, BitVec.setWidth_ofNat_of_le (show 32 ≤ 64 by decide)]
  rw [← hrests, decodeValues_shared rest hps hvs (by omega)]
  exact ⟨_, rfl, rfl, rfl⟩

/-- Settles O60: the longest common prefixes are one choice of shared prefixes. -/
theorem stringRoundTrip : Obligations.StringRoundTrip := by
  unfold Obligations.StringRoundTrip
  intro p mbCount mbSize vs rest hl hgeo hcount hfits hvs
  refine ⟨decodeBaPage_encodeStringsBy rest hl hgeo hcount hfits hvs (List.forall₂_refl _), fun ps hlen hle => ?_⟩
  refine decodeBaPage_encodeStringsBy rest hl hgeo hcount hfits hvs ?_
  rw [List.forall₂_iff_get]
  refine ⟨hlen.trans (length_prefixLensFrom _ _).symm, fun i hi hi' => ?_⟩
  have := hle i (hlen ▸ hi)
  rwa [List.getD_eq_getElem _ _ hi, List.getD_eq_getElem _ _ hi'] at this

end Sys2Proof.Machine

/-! ### The steps of the DBR, and its errors (O29, O31, O39, O41 to O43, O45) -/

namespace Sys2Proof.Machine
open State

/-- Settles O41: the counts are equal or not. -/
theorem compareCounts : Obligations.CompareCounts := by
  unfold Obligations.CompareCounts
  intro s hb hd hbs
  rw [unitStep_cmp hb hd hbs, State.compareCounts]
  refine ⟨fun h => ?_, fun h => ?_⟩
  · rw [if_pos h]
    exact ⟨_, rfl, rfl⟩
  · rw [if_neg (not_not.mpr h)]

/-- Settles O45: B_DONE writes the last offset and the result registers. -/
theorem offsetsClosed : Obligations.OffsetsClosed := by
  unfold Obligations.OffsetsClosed
  intro s hI hb hd hbs
  refine ⟨_, unitStep_close hI hb hd hbs, wrote_write _ _ _ _, rfl, rfl, rfl, rfl, ?_, rfl, rfl⟩
  rw [State.offsetsClosed, finish, ← hd]

/-! #### The checks of a value (R164) -/

/-- A value that fails a check raises that check's error. -/
theorem unitStep_checkFails {s : State} {e : Err} (hI : s.Inv) (hb : s.isBusy) (hd : s.diu.dstate = .idle)
    (hv : s.dbr.bstate = .val) (hr : s.micro.rawLeft = 0) (hc : s.checkValue = some e) :
    unitStep s = .next (s.raise e) := by
  rcases unitStep_value hI hb hd hv hr with ⟨e', he, hu⟩ | ⟨hnone, _⟩
  · rw [hu, Option.some.inj (hc.symm.trans he)]
  · cases hc.symm.trans hnone

/-- Settles O42: each clause is one branch of the four checks on signed lengths. -/
theorem valueChecks : Obligations.ValueChecks := by
  unfold Obligations.ValueChecks
  intro s hI hb hd hv hr p q
  have hcur : s.regs.srcCur.toNat ≤ s.regs.srcLen.toNat := by
    have := (valuesOk_of_inv hI hb hd hv).suffix
    omega
  have raises : ∀ {e : Err}, s.checkValue = some e → ∃ t, unitStep s = .next t ∧ t.regs.status = .error e :=
    fun he => ⟨_, unitStep_checkFails hI hb hd hv hr he, rfl⟩
  have hcheck := valueError_signed s.env.inst.dstCap (s.dbr.pfx.read .pfx s.dbr.idx.toNat)
    (s.dbr.sfx.read .sfx s.dbr.idx.toNat) s.dbr.prevLen.toNat
    (s.regs.srcLen.toNat - s.regs.srcCur.toNat) s.regs.dstLen.toNat
  rw [Nat.cast_sub hcur] at hcheck
  refine ⟨fun h => raises ?_, fun hp hq h => raises ?_, fun hp hq h1 h => raises ?_,
    fun hp hq h1 h2 h => raises ?_⟩ <;>
    refine hcheck.trans ?_
  · exact if_pos h
  · rw [if_neg (by omega)]
    exact if_pos h
  · rw [if_neg (by omega), if_neg (by omega)]
    exact if_pos h
  · rw [if_neg (by omega), if_neg (by omega), if_neg (by omega)]
    exact if_pos h

/-- Settles O39: in B_CMP the counts may differ, in B_VAL a value may fail its checks, and the other rules raise
nothing. -/
theorem dbrErrors : Obligations.DbrErrors := by
  unfold Obligations.DbrErrors
  intro s t e hI hb hd hu he
  have busy : ∀ {u : State}, unitStep s = .next u → u.regs.status ≠ .busy := fun h hbusy => by
    cases hu.symm.trans h
    cases hbusy.symm.trans he
  have raised : ∀ {e' : Err}, unitStep s = .next (s.raise e') → e = e' := fun h => by
    cases hu.symm.trans h
    cases he
    rfl
  obtain ⟨_, _, hok⟩ := hI.running hb
  simp only [hd] at hok
  cases hbs : s.dbr.bstate with
  | idle => simp only [hbs] at hok
  | pfx => simp only [hbs] at hok
  | sfx => simp only [hbs] at hok
  | cmp =>
    have h := unitStep_cmp hb hd hbs
    rw [State.compareCounts] at h
    split at h
    · exact .inl ⟨rfl, raised h⟩
    · exact absurd (by exact hb) (busy h)
  | val =>
    by_cases hr : s.micro.rawLeft = 0
    · rcases unitStep_value hI hb hd hbs hr with ⟨e', hc, h⟩ | ⟨_, h | h⟩
      · rw [raised h]
        exact .inr ⟨rfl, valueError_some hc⟩
      · exact absurd (by rw [nextValue_regs]; exact hb) (busy h)
      · exact absurd (by rw [nextValue_regs]; exact hb) (busy h)
    · obtain ⟨_, _, _, h⟩ := unitStep_raw hI hb hd hbs hr
      exact absurd (by rw [nextValue_regs]; exact hb) (busy h)
  | done =>
    cases hu.symm.trans (unitStep_close hI hb hd hbs)
    cases he

/-! #### The bytes of a value (R165) -/

/-- The end of a value changes BSTATE only, and only with no suffix byte left to copy. -/
theorem nextValue_dbr (s : State) : s.nextValue.dbr = { s.dbr with
    bstate := if s.micro.rawLeft = 0 then (if s.dbr.idx = s.dbr.nPfx then .done else .val) else s.dbr.bstate } := by
  unfold nextValue
  split
  · rfl
  · rfl

/-- .raw in its place copies its byte, which has room in DST. -/
theorem exec_raw {s : State} {b : Byte} (ha : s.At (.raw b)) (hfits : s.regs.dstLen.toNat + 1 ≤ s.env.inst.dstCap) :
    exec (.raw b) s = .next (s.byteCopied b).nextValue := by
  rw [exec, execRaw, inPlace_at ha, storeDst_of_le (by exact hfits), orOutside_some]
  rfl

/-- Settles O29: the byte copied, and the value ended by its last byte. -/
theorem rawByte : Obligations.RawByte := by
  unfold Obligations.RawByte
  intro s b hI ha
  obtain ⟨p, hpos, hfit⟩ := ha.pos
  obtain rfl : p = .raw := eq_of_beq hfit
  obtain ⟨hb, hd, hv, hr⟩ := position_raw hpos
  have hok := valuesOk_of_inv hI hb hd hv
  have hleft := ne_zero_pos hr
  have hfits := hok.fits
  have hcap := dstCap_lt hI.legal
  have hlast : s.micro.rawLeft - 1 = 0 ↔ s.micro.rawLeft = 1 := sub_eq_zero
  refine ⟨_, exec_raw ha (by omega), ?_, ?_, ?_, ?_, ?_, ?_, ?_, ?_, ?_⟩
  · rw [nextValue_mem]; exact wrote_writeList _ _ _ _
  · rw [nextValue_mem]; rfl
  · rw [nextValue_mem]; rfl
  · rw [nextValue_diu]; rfl
  · rw [nextValue_env]; rfl
  · rw [nextValue_regs]; rfl
  · rw [nextValue_regs]; exact Word.toNat_add_one (by omega)
  · rw [nextValue_micro]
    show (s.micro.rawLeft - 1).toNat = _
    rw [BitVec.toNat_sub_of_le (BitVec.le_def.mpr (show (1 : Word).toNat ≤ s.micro.rawLeft.toNat from hleft))]
    rfl
  · rw [nextValue_dbr]
    show ({ s.dbr with bstate := if s.micro.rawLeft - 1 = 0 then (if s.dbr.idx = s.dbr.nPfx then .done else .val)
      else s.dbr.bstate } : Dbr) = _
    simp only [hlast, hv]

/-- At the grains of R6 a value that passes its checks is emitted whole, at the others without its suffix (log 1). -/
theorem unitStep_checkPasses {s : State} (hI : s.Inv) (hb : s.isBusy) (hd : s.diu.dstate = .idle)
    (hv : s.dbr.bstate = .val) (hr : s.micro.rawLeft = 0) (hc : s.checkValue = none) :
    unitStep s = .next (if s.env.grain = .rule ∨ s.env.grain = .whole then s.valueBegun.suffixCopied.nextValue
      else s.valueBegun.nextValue) := by
  have hb' : s.regs.status = .busy := hb
  have hpos : s.position = none := by simp [position, hb', hd, hv]; exact hr
  obtain ⟨_, _, _, _, hcap⟩ := valueError_none hc
  have hok := valuesOk_of_inv hI hb hd hv
  have hidx := hok.some_left hr
  have hcount := hok.count
  have hdc := dstCap_lt hI.legal
  have hbegin : s.beginValue = some s.valueBegun := beginValue_of_le (by omega) (by omega)
  have hcopy : s.valueBegun.copySuffix = some s.valueBegun.suffixCopied := copySuffix_of_le (by
    show (s.regs.dstLen + s.prefixLen).toNat + s.suffixLen.toNat ≤ s.env.inst.dstCap
    rw [BitVec.toNat_add_of_lt (by omega)]
    exact hcap)
  rw [unitStep_sequence hb hpos, show sequence s = valueStep s by simp [sequence, hd, hv], valueStep, hc]
  cases hg : s.env.grain <;> simp [emitValue, hg, hbegin, hcopy]

/-- What a step that begins a value does at every grain: the value's start in OFS, the counters moved, nothing else
but DST, the cursors and BSTATE (R165). -/
theorem value_frame {s u : State} (hu : u = s.valueBegun ∨ u = s.valueBegun.suffixCopied) :
    Wrote .ofs s.dbr.idx.toNat [s.regs.dstLen] s.mem.ofs u.nextValue.mem.ofs ∧ u.nextValue.mem.src = s.mem.src ∧
    u.nextValue.regs = { s.regs with dstLen := u.nextValue.regs.dstLen, srcCur := u.nextValue.regs.srcCur } ∧
    u.nextValue.dbr = { s.dbr with
      prevOff := s.regs.dstLen, prevLen := BitVec.ofNat 32 (s.prefixLen.toNat + s.suffixLen.toNat)
      idx := s.dbr.idx + 1, bstate := u.nextValue.dbr.bstate } ∧
    u.nextValue.diu = s.diu ∧ u.nextValue.env = s.env := by
  have hlen : BitVec.ofNat 32 (s.prefixLen.toNat + s.suffixLen.toNat) = s.prefixLen + s.suffixLen := by
    rw [BitVec.ofNat_add, BitVec.ofNat_toNat, BitVec.ofNat_toNat, BitVec.setWidth_eq, BitVec.setWidth_eq]
  rw [nextValue_mem, nextValue_regs, nextValue_diu, nextValue_env, nextValue_dbr, hlen]
  rcases hu with rfl | rfl
  · exact ⟨wrote_write _ _ _ _, rfl, rfl, rfl, rfl, rfl⟩
  · exact ⟨wrote_write _ _ _ _, rfl, rfl, rfl, rfl, rfl⟩

/-- A length that is a number when read as signed is the same number unsigned. -/
theorem toNat_of_toInt {v : Word} {n : Nat} (h : v.toInt = n) : v.toNat = n := by
  have := toInt_eq_toNat_of_nonneg (v := v) (by omega)
  omega

/-- Settles O43: the step by the grain, and the state it leaves field by field. -/
theorem valueEmitted : Obligations.ValueEmitted := by
  unfold Obligations.ValueEmitted
  intro s p q hI hb hd hv hr hp hq hprev hsrc hcap
  have hcheck : s.checkValue = none := valueError_of_fits hp hq hprev (by omega) hcap
  obtain rfl : s.prefixLen.toNat = p := toNat_of_toInt hp
  obtain rfl : s.suffixLen.toNat = q := toNat_of_toInt hq
  have hdc := dstCap_lt hI.legal
  have hu := unitStep_checkPasses hI hb hd hv hr hcheck
  by_cases hg : s.env.grain = .rule ∨ s.env.grain = .whole
  · rw [if_pos hg] at hu
    have hends := value_ends hI hb hd hv hr hcheck
    have hsuffix : s.page.take s.suffixLen.toNat =
        s.mem.src.readList .src s.regs.srcCur.toNat s.suffixLen.toNat := by
      rw [page, Memory.take_readList, Nat.min_eq_left (by omega)]
    rw [hsuffix] at hends
    refine ⟨_, hu, fun _ => ⟨hends.dst, ?_, ?_, hends.rawLeft, nextValue_bstate rfl⟩, fun h => absurd hg h,
      value_frame (.inr rfl)⟩
    · rw [hends.dstLen, List.length_append, List.length_take, Memory.length_readList, Memory.length_readList]
      omega
    · rw [nextValue_regs]
      exact cursor_toNat (s := s) (n := s.suffixLen.toNat) (by rw [length_page]; omega)
  · rw [if_neg hg] at hu
    refine ⟨_, hu, fun h => absurd h hg, fun _ => ⟨?_, ?_, ?_, ?_, ?_⟩, value_frame (.inl rfl)⟩
    · rw [nextValue_mem, Memory.take_readList, Nat.min_eq_left hprev]
      exact wrote_writeList _ _ _ _
    · rw [nextValue_regs]
      exact BitVec.toNat_add_of_lt (by omega)
    · rw [nextValue_regs]
      rfl
    · rw [nextValue_micro]
      rfl
    · have hzero : s.suffixLen.toNat = 0 ↔ s.suffixLen = 0 := BitVec.toNat_inj (y := 0)
      rw [nextValue_dbr, ite_and]
      simp only [hzero]
      show (if s.suffixLen = 0 then (if s.dbr.idx + 1 = s.dbr.nPfx then BState.done else .val) else s.dbr.bstate) = _
      rw [hv]

/-! #### The page as one operation (R167) -/

/-- Settles O31: the values of DecodeByteArray and their starts fit DST and OFS, and no offset wraps. -/
theorem byteArrayPageResult : Obligations.ByteArrayPageResult := by
  unfold Obligations.ByteArrayPageResult
  intro s page hI ha _
  obtain ⟨p, hpos, hfit⟩ := ha.pos
  obtain rfl : p = .pageBa := eq_of_beq hfit
  obtain ⟨hb, _, _⟩ := position_pageBa hpos
  have hdc := dstCap_lt hI.legal
  have hlc := lenCap_lt hI.legal
  rw [exec, execPageBa, inPlace_at ha]
  cases hr : decodeBaPage s.env.inst page with
  | error e => exact ⟨_, rfl, rfl⟩
  | ok d =>
    obtain ⟨hcount, _, _, harena, _⟩ := decodeBaPage_ok hr
    dsimp only
    rw [if_neg (by omega), storeDst_of_le (by omega), orOutside_some]
    refine ⟨_, rfl, wrote_writeList _ _ _ _, wrote_writeList _ _ _ _, fun i hi => ?_, wrote_writeList _ _ _ _,
      wrote_writeList _ _ _ _, rfl, hb, rfl, rfl, rfl, ?_, ?_, rfl, rfl, rfl, rfl⟩
    · have hend := arenaEnd_le d.values i
      have hlen : i < (offsetsFrom 0 d.values).length := by rwa [length_offsetsFrom]
      rw [List.getD_eq_getElem _ _ hlen, getElem_offsetsFrom, Nat.zero_add, BitVec.toNat_ofNat]
      omega
    · exact Nat.mod_eq_of_lt (by omega)
    · exact Nat.mod_eq_of_lt (by omega)

end Sys2Proof.Machine

/-! ### Error entry (O36, O37) -/

namespace Sys2Proof.Machine
open State

/-- R202: a raise leaves BUSY. -/
theorem raise_ready (s : State) (e : Err) : (s.raise e).Ready := by
  rw [Ready, isBusy, raise_status]
  exact Status.noConfusion

/-- R203: of the host registers, a raise keeps SRC_LEN alone. -/
theorem raise_regs_congr {s u : State} (e : Err) (hl : s.regs.srcLen = u.regs.srcLen) (hf : s.env.free = u.env.free) :
    (s.raise e).regs = (u.raise e).regs := by
  rw [HostRegs.mk.injEq]
  simp only [raise_status, raise_srcLen, raise_srcCur, raise_outCount, raise_dstLen, hl, hf, and_self]

/-- R203: of the memories shared with the host, a raise keeps SRC alone. -/
theorem raise_mem_congr {s u : State} (e : Err) (hm : s.mem.src = u.mem.src) (hf : s.env.free = u.env.free) :
    (s.raise e).mem = (u.raise e).mem := by
  rw [Spaces.mk.injEq]
  simp only [raise_src, raise_dst, raise_ofs, hm, hf, and_self]

/-- Settles O36: the state after a raise is not BUSY, where the unit waits. -/
theorem errorEntry : Obligations.ErrorEntry := by
  unfold Obligations.ErrorEntry
  exact fun s e => ⟨raise_status s e, raise_dstate s e, raise_bstate s e, unitStep_ready (raise_ready s e)⟩

/-- Settles O37: what a raise does not keep, it draws from the counter of free values alone. -/
theorem errorStateUnspecified : Obligations.ErrorStateUnspecified := by
  unfold Obligations.ErrorStateUnspecified
  exact fun s _ e _ => ⟨raise_srcLen s e, raise_src s e, raise_inst s e,
    fun hl hm hf => ⟨raise_regs_congr e hl hf, raise_mem_congr e hm hf⟩⟩

end Sys2Proof.Machine
